-- ==== Sys2Proof/Word.lean ====
section
/-! DEFINITION. The word types of the core: a byte, a 32-bit host register word, a byte sequence. -/

namespace Sys2Proof

/-- One byte; bit 7 is the most significant (`00_scope.md` R12). -/
abbrev Byte := BitVec 8

/-- One host register word, 32 bits, bit 31 most significant (`00_scope.md` R14). -/
abbrev Word := BitVec 32

/-- A byte sequence, first byte first (`00_scope.md` R11). -/
abbrev Bytes := List Byte

end Sys2Proof
end

