-- ==== Sys2Proof/Syntax.lean ====
section
/-! DEFINITION. The ten commands of `FNC-CMD 1` (`30_encoding.md` R95), the reasons a command word is illegal
(R91), and the enumerations the source lists (cipher variants, modes, paddings, bit orders). -/

namespace Sys2Proof

/-- One constructor per row of `spec/opcode_table.json`. The argument is the field `ARG` [23:8] of the command
word (R90, R92); the commands without one have `ARG = 0`. -/
inductive Instr where
  | nop
  /-- `SETKEY n`: `n` is the key length in bytes. -/
  | setkey (n : BitVec 16)
  | encblk
  | decblk
  | encbuf
  | decbuf
  /-- `ENCCHK T`: `T` is the thread count, 1 to 65535. -/
  | encchk (t : BitVec 16)
  /-- `DECCHK T`: `T` is the thread count, 1 to 65535. -/
  | decchk (t : BitVec 16)
  /-- `PERMUTE m`: `m` is the table length in entries. -/
  | permute (m : BitVec 16)
  | clr
  deriving DecidableEq, Repr

/-- Why a command word is illegal: the steps (1) to (4) of `30_encoding.md` R91, in that order. -/
inductive IllegalReason where
  /-- (1) `w[31:24] ≠ 0`. -/
  | reservedBits
  /-- (2) `w[7:0]` is none of the ten codes. -/
  | unknownOpcode
  /-- (3) the command takes no operand and `w[23:8] ≠ 0`. -/
  | unexpectedArg
  /-- (4) `ENCCHK` or `DECCHK` with `w[23:8] = 0`. -/
  | zeroThreads
  deriving DecidableEq, Repr

/-- The four cipher variants (`00_scope.md` R3, `44_block_ciphers.md` R200), in the order of their codes. -/
inductive Variant where
  | base | comp2 | comp3 | comp4
  deriving DecidableEq, Repr

/-- The seven chaining modes (`00_scope.md` R18, `45_mode_engine.md` R231 to R237). Code 7 is no mode. -/
inductive Mode where
  | ecb | cbc | pcbc | cfb | ofb | ctr | randomDelta
  deriving DecidableEq, Repr

/-- The four padding schemes (`45_mode_engine.md` R221 to R225). -/
inductive Padding where
  | zeros | pkcs7 | ansiX923 | iso10126
  deriving DecidableEq, Repr

/-- The two bit orders of a byte sequence (`00_scope.md` R12). -/
inductive BitOrder where
  | msbFirst | lsbFirst
  deriving DecidableEq, Repr

end Sys2Proof
end

