-- ==== Sys2Proof/WellFormed.lean ====
section
/-! DEFINITION. Well-formed commands: the ones that some command word encodes (`30_encoding.md` R91, R92). -/

namespace Sys2Proof

/-- `ARG` is a 16-bit field by type; the one further restriction is that the thread count of the chunked commands
is 1 to 65535 (R91 step 4, R92). -/
def Instr.wellFormed : Instr → Bool
  | .nop => true
  | .setkey _ => true
  | .encblk => true
  | .decblk => true
  | .encbuf => true
  | .decbuf => true
  | .encchk t => t != 0
  | .decchk t => t != 0
  | .permute _ => true
  | .clr => true

end Sys2Proof
end

