-- ==== Sys2Proof/Decode.lean ====
section
/-! DEFINITION. The command word: decoding, total on all 32-bit values and rejecting by name (`30_encoding.md` R90,
R91), the encoder written from the same table (R95), and the reading of an opcode-table word. -/

namespace Sys2Proof

/-- Field `OPC`, bits [7:0] (R90). -/
def opcField (w : Word) : BitVec 8 := w.extractLsb' 0 8

/-- Field `ARG`, bits [23:8], unsigned, neither extended nor scaled (R90, R92). -/
def argField (w : Word) : BitVec 16 := w.extractLsb' 8 16

/-- Field `RSV`, bits [31:24], must be 0 (R90). -/
def rsvField (w : Word) : BitVec 8 := w.extractLsb' 24 8

/-- Step (3) of R91: a command that takes no operand needs `ARG = 0`. -/
def decodeNoArg (arg : BitVec 16) (i : Instr) : Except IllegalReason Instr :=
  if arg = 0 then .ok i else .error .unexpectedArg

/-- Step (4) of R91: the thread count of a chunked command is not 0. -/
def decodeThreads (arg : BitVec 16) (i : Instr) : Except IllegalReason Instr :=
  if arg = 0 then .error .zeroThreads else .ok i

/-- Decoding of a command word, in the order of R91. -/
def decode (w : Word) : Except IllegalReason Instr :=
  if rsvField w ≠ 0 then .error .reservedBits
  else if opcField w = 0x00 then decodeNoArg (argField w) .nop
  else if opcField w = 0x01 then .ok (.setkey (argField w))
  else if opcField w = 0x02 then decodeNoArg (argField w) .encblk
  else if opcField w = 0x03 then decodeNoArg (argField w) .decblk
  else if opcField w = 0x04 then decodeNoArg (argField w) .encbuf
  else if opcField w = 0x05 then decodeNoArg (argField w) .decbuf
  else if opcField w = 0x06 then decodeThreads (argField w) (.encchk (argField w))
  else if opcField w = 0x07 then decodeThreads (argField w) (.decchk (argField w))
  else if opcField w = 0x08 then .ok (.permute (argField w))
  else if opcField w = 0x0F then decodeNoArg (argField w) .clr
  else .error .unknownOpcode

/-- A command word from its two fields: `OPC + 256 · ARG` (R90, R98). -/
def commandWord (opc : BitVec 8) (arg : BitVec 16) : Word := (0#8 ++ arg) ++ opc

/-- The command word of an instruction (R95, table of `INDEX.md`). -/
def encode : Instr → Word
  | .nop => commandWord 0x00 0
  | .setkey n => commandWord 0x01 n
  | .encblk => commandWord 0x02 0
  | .decblk => commandWord 0x03 0
  | .encbuf => commandWord 0x04 0
  | .decbuf => commandWord 0x05 0
  | .encchk t => commandWord 0x06 t
  | .decchk t => commandWord 0x07 t
  | .permute m => commandWord 0x08 m
  | .clr => commandWord 0x0F 0

/-- The command word an opcode-table row's bits stand for: every bit above the row's length is 0. -/
def tableWord (nbits w : Nat) : Word := BitVec.ofNat 32 (w % 2 ^ nbits)

/-- The instruction the decoder reads from an opcode-table word. -/
def decodeTableWord (nbits w : Nat) : Option Instr := (decode (tableWord nbits w)).toOption

end Sys2Proof
end

