-- ==== Sys2Proof/Config.lean ====
section
/-! DEFINITION. What a build of the core fixes (`00_scope.md` R9) and the values the spec leaves free. -/

namespace Sys2Proof

/-- The build parameters of `00_scope.md` R9. Every function of the machine that depends on one takes it from here,
so a statement can be made for a build other than the default one. -/
structure Params where
  /-- `BUF_BYTES`: capacity of `DIN` in bytes; `DOUT` holds 16 more. -/
  bufBytes : Nat
  /-- `TBL_ENTRIES`: entries of `TBL`. -/
  tblEntries : Nat
  /-- `LANES`: block engines; no result depends on it (`46_chunked_and_parallel.md` R261). -/
  lanes : Nat
  /-- `CACHE_ENTRIES`: capacity of the sub-key cache (`42_composite_schedule_and_adapter.md` R178). -/
  cacheEntries : Nat
  /-- `LEGACY_CHUNK_RESTART` (`46_chunked_and_parallel.md` R266). -/
  legacyChunkRestart : Bool
  /-- `COMP_KS_CONST_BYTE` (`42_composite_schedule_and_adapter.md` R171). -/
  compKsConstByte : Byte
  deriving DecidableEq, Repr

/-- The ranges `00_scope.md` R9 allows. -/
abbrev Params.Legal (p : Params) : Prop :=
  p.bufBytes % 16 = 0 ∧ 16 ≤ p.bufBytes ∧ p.bufBytes ≤ 65520 ∧
  p.tblEntries % 8 = 0 ∧ 8 ≤ p.tblEntries ∧ p.tblEntries ≤ 16128 ∧ p.tblEntries ≤ 8 * (p.bufBytes + 16) ∧
  1 ≤ p.lanes ∧ 1 ≤ p.cacheEntries

/-- The constant byte of the composite key schedule. The spec leaves it `OPEN` (R9, decision D3): an uninterpreted
constant. [log 6] -/
opaque Config.compKsConstByte : Byte

/-- The random source (`00_scope.md` R10 (d), R15 `draw()`): the answer to the request with the given number. No law
holds of it (`45_mode_engine.md` R225). [log 5] -/
opaque Config.rnd : Nat → Byte

/-- What a memory byte that nothing has written since the last reset reads as (`70_reset_and_hazards.md` R343): the
first argument counts the resets, the second is the byte's host offset. No law holds of it. [log 4] -/
opaque Config.powerOnByte : Nat → Nat → Byte

/-- The build the machine's step is made of: the defaults of `00_scope.md` R9. [log 7, log 8] -/
def Config.params : Params where
  bufBytes := 4096
  tblEntries := 256
  lanes := 4
  cacheEntries := 8
  legacyChunkRestart := false
  compKsConstByte := Config.compKsConstByte

/-- The eight fixed tables as one record (`41_base_cipher_round_and_schedule.md`, opening): "A model should take the
eight tables as one configuration record so that they can be audited in one place." The value is
`Sys2Proof.Machine.tables`. -/
structure CipherTables where
  ip : List Nat
  fp : List Nat
  e : List Nat
  p : List Nat
  pc1 : List Nat
  pc2 : List Nat
  rot : List Nat
  /-- `sbox[j][row][col]`. -/
  sbox : List (List (List Nat))
  deriving DecidableEq, Repr

end Sys2Proof
end

