-- ==== Sys2Proof/Machine/Bytes.lean ====
section
/-! DEFINITION. Byte sequences: exclusive or, big-endian numbers, bits under the two orders, blocks, and the packing of
bytes into 32-bit words (`00_scope.md` R11 to R14, `20_memory.md` R62, R70). -/

namespace Sys2Proof.Machine

/-- `Xor(s, t)`, byte-wise (`00_scope.md` R11). -/
def xorBytes (s t : Bytes) : Bytes := List.zipWith (· ^^^ ·) s t

/-- `Rep(b, n)` (`00_scope.md` R11). -/
def rep (b : Byte) (n : Nat) : Bytes := List.replicate n b

/-- `Zeros(n)` (`00_scope.md` R11). -/
def zeroBytes (n : Nat) : Bytes := rep 0 n

/-- `s[a .. b)` (`00_scope.md` R11). -/
def slice (s : Bytes) (a b : Nat) : Bytes := (s.drop a).take (b - a)

/-- `Int(s)`, big-endian (`00_scope.md` R13). -/
def intOf (s : Bytes) : Nat := s.foldl (fun v b => v * 256 + b.toNat) 0

/-- `BE(v, n)`, the `n`-byte big-endian sequence of `v` (`00_scope.md` R13). -/
def beBytes (v n : Nat) : Bytes := (List.range n).map fun k => BitVec.ofNat 8 (v / 256 ^ (n - 1 - k))

/-- The place inside a byte of the bit with number `j mod 8` of its sequence (`00_scope.md` R12). -/
def bitPlace (order : BitOrder) (j : Nat) : Nat :=
  match order with
  | .msbFirst => 7 - j % 8
  | .lsbFirst => j % 8

/-- `Bit(s, k, order)` (`00_scope.md` R12). -/
def bitOf (order : BitOrder) (s : Bytes) (k : Nat) : Bool := (s.getD (k / 8) 0).getLsbD (bitPlace order k)

/-- The byte whose bit in place `q` is `f q`. -/
def byteOfPlaces (f : Nat → Bool) : Byte :=
  BitVec.ofNat 8 ((f 0).toNat + 2 * (f 1).toNat + 4 * (f 2).toNat + 8 * (f 3).toNat
    + 16 * (f 4).toNat + 32 * (f 5).toNat + 64 * (f 6).toNat + 128 * (f 7).toNat)

/-- The byte sequence whose bits are `bits`, numbered by `order`; eight bits make a byte. -/
def bytesOfBits (order : BitOrder) (bits : List Bool) : Bytes :=
  (List.range (bits.length / 8)).map fun i =>
    byteOfPlaces fun q => bits.getD (8 * i + bitPlace order q) false

/-- The blocks of `s`: block `i` is `s[i·BS .. (i+1)·BS)` (`20_memory.md` R70, R71). -/
def blocksOf (bs : Nat) (s : Bytes) : List Bytes :=
  (List.range (s.length / bs)).map fun i => slice s (i * bs) ((i + 1) * bs)

/-- The four bytes of a word, byte 0 the most significant (`20_memory.md` R62). -/
def wordBytes (w : Word) : Bytes :=
  [w.extractLsb' 24 8, w.extractLsb' 16 8, w.extractLsb' 8 8, w.extractLsb' 0 8]

/-- The word of four bytes, byte 0 the most significant (`20_memory.md` R62). -/
def wordOfBytes (b0 b1 b2 b3 : Byte) : Word := ((b0 ++ b1) ++ b2) ++ b3

end Sys2Proof.Machine
end

