-- ==== Sys2Proof/Machine/State.lean ====
section
/-! DEFINITION. The state of the core (`10_state.md` R20 to R36), the events of its host port, its state after reset, and
the reasons a step could stop. All of it is plain data. -/

namespace Sys2Proof.Machine

/-- Why a step stops with a fault: never. "Nothing in the core is `stuck`: every command ends (`20_memory.md` rule R83)
and every command word decodes" (`93_implementation_defined.md`); every error is a reported end of a command
(`60_exceptions.md` R300) and a bad host access gets an error response (`20_memory.md` R68). The type is closed and has no
constructor, so no meaning can stop with a fault. Safe: it removes no behaviour the spec gives. [log 19] -/
inductive Fault where
  deriving DecidableEq, Repr

/-- Why a step is refused. -/
inductive Refusal where
  /-- Raised by an arm of `exec` whose instruction has no meaning yet. No arm raises it: all ten commands have their
  meaning. Safe: a refused step proves nothing about the hardware. -/
  | notModelled (mnemonic : String)
  deriving DecidableEq, Repr

/-- The errors of `60_exceptions.md` R301, each with the deciding value R302 records. The I/O class has no constructor
(R306). -/
inductive CoreError where
  /-- Master key length is not `KEYBYTES(CTRL.CIPHER)`; carries the offered length. -/
  | sizeKey (n : Nat)
  /-- `DLEN` is not the block size; carries `DLEN`. -/
  | sizeBlock (dlen : Word)
  /-- The mode needs an IV and `IVLEN ≠ BS`; carries `IVLEN`. -/
  | sizeIv (ivlen : BitVec 5)
  /-- `RANDOM_DELTA` and `DELTALEN ≠ BS`; carries `DELTALEN`. -/
  | sizeDelta (deltalen : BitVec 5)
  /-- Wrong half-block or round-key length; carries the half-block length. Dead in the core (R305). -/
  | sizeHalf (len : Nat)
  /-- `DLEN` over capacity or, decrypting, not a multiple of `BS`; carries `DLEN`. -/
  | sizeBuf (dlen : Word)
  /-- Bad `PERMUTE` sizes; carries 0 for an empty input or table, else the table length. -/
  | sizePerm (m : Nat)
  /-- Wrong key parity; carries the index of the first failing byte. -/
  | parity (index : Nat)
  /-- A resolved table index is no bit number of the input; carries the index of the first such entry. -/
  | rangePerm (index : Nat)
  /-- Bad padding length byte; carries that byte, 0 for empty data. -/
  | rangePad (last : Byte)
  /-- No key is installed. -/
  | stateNokey
  /-- Unsupported selection; carries the offending `CTRL.MODE` value. -/
  | stateUnsup (mode : BitVec 3)
  /-- Fewer round keys than rounds; carries the round-key count. Dead in the core (R305). -/
  | stateRkcount (count : Nat)
  /-- The command word is not a command; carries the word. -/
  | illegalCmd (w : Word)
  deriving DecidableEq, Repr

/-- A 16-byte register of four 32-bit words, word 0 first (`IV`, `DELTA`: `10_state.md` R28). -/
structure Reg4 where
  w0 : Word
  w1 : Word
  w2 : Word
  w3 : Word
  deriving DecidableEq, Repr

/-- A 32-byte register of eight 32-bit words, word 0 first (`KEY`: `10_state.md` R28). -/
structure Reg8 where
  w0 : Word
  w1 : Word
  w2 : Word
  w3 : Word
  w4 : Word
  w5 : Word
  w6 : Word
  w7 : Word
  deriving DecidableEq, Repr

/-- One entry of the adapter's cache: an adjusted 8-byte key and its sub-key set (`10_state.md` R31). -/
structure CacheEntry where
  key : Bytes
  subKeys : List Bytes
  deriving DecidableEq, Repr

/-- One event the outside world applies to the core: an access of the host port (`20_memory.md` R63) of the given
width in bits at the given byte offset, or the reset signal (`70_reset_and_hazards.md` R340). -/
inductive HostEvent where
  | read (bits offset : Nat)
  | write (bits offset : Nat) (value : Word)
  | reset
  deriving DecidableEq, Repr

/-- What the host port answered last: nothing yet, the word of a read, the end of a write, or an error response
(`20_memory.md` R64, R65, R68). -/
inductive Response where
  | none
  | data (w : Word)
  | ack
  | busError
  deriving DecidableEq, Repr

/-- The host's side of the port: the events it has issued and the core has not yet performed, oldest first
(`20_memory.md` R74, R75), and the last answer. This is the model's own record of the environment, no register of the
core. [log 1] -/
structure Port where
  pending : List HostEvent
  response : Response
  deriving DecidableEq, Repr

/-- The state: the components of `10_state.md` R20, one field each, then the model's own record of the environment
(`port`, `drawIndex`, `resetCount`). The transient group of R20 and R33 is dead between commands and stands inside the
meanings (log 11); `ID` and `CMD` hold no state (R21, R25); `RK_DEC` is `RK_ENC` reversed and is one piece of state with
it (R30). -/
structure State where
  /-- `CTRL` (R22). Reserved bits are never stored. -/
  ctrl : Word
  /-- `STATUS.DONE` (R23). -/
  done : Bool
  /-- `STATUS.ERR` (R23). -/
  err : Bool
  /-- `STATUS.KEY_SET` (R23). -/
  keySet : Bool
  /-- `STATUS.KCIPHER` (R23). -/
  kcipher : Variant
  /-- `ERRCODE[7:0]` (R24). -/
  errcode : BitVec 8
  /-- `ERRINFO` (R24). -/
  errinfo : Word
  /-- `DLEN` (R26). -/
  dlen : Word
  /-- `OLEN` (R26). -/
  olen : Word
  /-- `IVLEN[4:0]` (R27). -/
  ivlen : BitVec 5
  /-- `DELTALEN[4:0]` (R27). -/
  deltalen : BitVec 5
  /-- `KEY`, 32 bytes (R28). -/
  key : Reg8
  /-- `IV`, 16 bytes (R28). -/
  iv : Reg4
  /-- `DELTA`, 16 bytes (R28). -/
  delta : Reg4
  /-- The memories `TBL`, `DIN` and `DOUT` (R35), one list of written bytes keyed by host offset. -/
  mem : List Host.Cell
  /-- The key store `RK_ENC`; `none` when it is invalid (R30). -/
  rkEnc : Option (List Bytes)
  /-- The adapter's cache `CACHE`, oldest entry first (R31). -/
  cache : List CacheEntry
  /-- The host port's environment (the model's own). [log 1] -/
  port : Port
  /-- How many requests the random source has answered (the model's own). [log 5] -/
  drawIndex : Nat
  /-- How many resets there have been; it selects the free power-on contents of the memories (the model's own).
  [log 4] -/
  resetCount : Nat
  deriving DecidableEq, Repr

/-- Four zero words. -/
def Reg4.zero : Reg4 := ⟨0, 0, 0, 0⟩

/-- Eight zero words. -/
def Reg8.zero : Reg8 := ⟨0, 0, 0, 0, 0, 0, 0, 0⟩

/-- The state after the hardware reset (`10_state.md` R36, `70_reset_and_hazards.md` R341): every register 0, no key,
the cache empty, no memory byte written; no host event issued, no draw made. -/
def State.reset : State where
  ctrl := 0
  done := false
  err := false
  keySet := false
  kcipher := .base
  errcode := 0
  errinfo := 0
  dlen := 0
  olen := 0
  ivlen := 0
  deltalen := 0
  key := Reg8.zero
  iv := Reg4.zero
  delta := Reg4.zero
  mem := []
  rkEnc := none
  cache := []
  port := ⟨[], .none⟩
  drawIndex := 0
  resetCount := 0

end Sys2Proof.Machine
end

