-- ==== Sys2Proof/Machine/Feistel.lean ====
section
/-! DEFINITION. The generic Feistel engine (`43_feistel_engine.md` R190 to R194). -/

namespace Sys2Proof.Machine

/-- The rounds: `(L, R) <- (R, Xor(F(R, rk), L))` for each round key in turn, with the old `L` and `R` on both right-hand
sides (R191). -/
def feistelRounds (F : Bytes → Bytes → Bytes) (rks : List Bytes) (L R : Bytes) : Bytes × Bytes :=
  match rks with
  | [] => (L, R)
  | rk :: rest => feistelRounds F rest R (xorBytes (F R rk) L)

/-- `Feistel(block, rks, N, BS, F)` when none of its failures applies: split, `N` rounds, output the final `R` followed
by the final `L` (R191). -/
def feistel (block : Bytes) (rks : List Bytes) (N BS : Nat) (F : Bytes → Bytes → Bytes) : Bytes :=
  let LR := feistelRounds F (rks.take N) (slice block 0 (BS / 2)) (slice block (BS / 2) BS)
  LR.2 ++ LR.1

/-- The rounds with a round function that can fail (`SIZE_HALF`). -/
def feistelRoundsChecked (F : Bytes → Bytes → Except CoreError Bytes) (rks : List Bytes) (L R : Bytes) :
    Except CoreError (Bytes × Bytes) :=
  match rks with
  | [] => .ok (L, R)
  | rk :: rest =>
    match F R rk with
    | .error e => .error e
    | .ok y => feistelRoundsChecked F rest R (xorBytes y L)

/-- `Feistel` with its failures in the order the source lists them: no key set, too few round keys, wrong block size
(R191). The key store is absent when no key is set. -/
def feistelChecked (block : Bytes) (rks : Option (List Bytes)) (N BS : Nat)
    (F : Bytes → Bytes → Except CoreError Bytes) : Except CoreError Bytes :=
  match rks with
  | none => .error .stateNokey
  | some ks =>
    if ks.length < N then .error (.stateRkcount ks.length)
    else if block.length ≠ BS then .error (.sizeBlock (BitVec.ofNat 32 block.length))
    else match feistelRoundsChecked F (ks.take N) (slice block 0 (BS / 2)) (slice block (BS / 2) BS) with
      | .error e => .error e
      | .ok LR => .ok (LR.2 ++ LR.1)

end Sys2Proof.Machine
end

