-- ==== Sys2Proof/Machine/Permutation.lean ====
section
/-! DEFINITION. The bit-permutation primitive `Permute` (`40_bit_permutation.md` R120 to R126). -/

namespace Sys2Proof.Machine

/-- The result of `Permute` when none of its failures applies: output bit `i` is input bit `T[i] - base`, input and output
numbered by the same order (R121). -/
def permute (inp : Bytes) (T : List Nat) (order : BitOrder) (base : Nat) : Bytes :=
  bytesOfBits order (T.map fun t => bitOf order inp (t - base))

/-- The resolved index `t - base`, computed on integers, is no bit number of an input of `nbits` bits (R122). -/
def outOfRange (base nbits t : Nat) : Bool := t < base || nbits ≤ t - base

/-- The least `i` whose entry is out of range (R122). -/
def firstOutOfRange (T : List Nat) (base nbits : Nat) : Option Nat := T.findIdx? (outOfRange base nbits)

/-- `Permute` with its failures, in the order they are tested (R122). -/
def permuteChecked (inp : Bytes) (T : List Nat) (order : BitOrder) (base : Nat) : Except CoreError Bytes :=
  if inp.length = 0 then .error (.sizePerm 0)
  else if T.length = 0 then .error (.sizePerm 0)
  else if T.length % 8 ≠ 0 then .error (.sizePerm T.length)
  else match firstOutOfRange T base (8 * inp.length) with
    | some i => .error (.rangePerm i)
    | none => .ok (permute inp T order base)

/-- The use every fixed table is made of: `MSB_FIRST`, 1-based (R124). -/
def permuteFixed (inp : Bytes) (T : List Nat) : Bytes := permute inp T .msbFirst 1

end Sys2Proof.Machine
end

