-- ==== Sys2Proof/Machine/BaseCipher.lean ====
section
/-! DEFINITION. The base cipher: key parity, round function, key schedule, block functions
(`41_base_cipher_round_and_schedule.md` R150 to R155, `44_block_ciphers.md` R203). -/

namespace Sys2Proof.Machine

/-! ### Key parity -/

/-- The number of set bits of a byte. -/
def popcount (b : Byte) : Nat := (List.range 8).countP fun q => b.getLsbD q

/-- `AdjustParityByte(b)` (R150). -/
def adjustParityByte (b : Byte) : Byte :=
  let h := b &&& 0xFE
  if popcount h % 2 = 1 then h else h ||| 1

/-- `AdjustParity(k)` (R150). -/
def adjustParity (k : Bytes) : Bytes := k.map adjustParityByte

/-- The parity of one byte is right: `b[0] = 1 - (popcount(b & 0xFE) mod 2)` (R151). -/
def parityOkByte (b : Byte) : Bool := (b.getLsbD 0).toNat == 1 - popcount (b &&& 0xFE) % 2

/-- `ParityOk(k)` (R151). -/
def parityOk (k : Bytes) : Bool := k.all parityOkByte

/-- The index of the first byte whose parity is wrong. -/
def firstBadParity (k : Bytes) : Option Nat := k.findIdx? fun b => !parityOkByte b

/-! ### Round function -/

/-- `SBOX[j][row][col]` (R148). -/
def sboxValue (j row col : Nat) : Nat := ((tables.sbox.getD j []).getD row []).getD col 0

/-- The four output bits of group `j` of the 48 bits `x`: the outer two bits select the row, the inner four the column,
the value goes out most significant bit first (R152). -/
def sboxBits (x : Bytes) (j : Nat) : List Bool :=
  let g := fun m => (bitOf .msbFirst x (6 * j + m)).toNat
  let v := sboxValue j (2 * g 0 + g 5) (8 * g 1 + 4 * g 2 + 2 * g 3 + g 4)
  [v.testBit 3, v.testBit 2, v.testBit 1, v.testBit 0]

/-- `BaseRound(half, rk)` on operands of the right lengths (R152): expand, exclusive or with the round key, substitute the
eight groups, permute. -/
def baseRound (half rk : Bytes) : Bytes :=
  let x := xorBytes (permuteFixed half tables.e) rk
  permuteFixed (bytesOfBits .msbFirst ((List.range 8).flatMap (sboxBits x))) tables.p

/-- `BaseRound` with its check (R152, R153). -/
def baseRoundChecked (half rk : Bytes) : Except CoreError Bytes :=
  if half.length ≠ 4 ∨ rk.length ≠ 6 then .error (.sizeHalf half.length) else .ok (baseRound half rk)

/-! ### Key schedule -/

/-- `RotL28(v, n)` (R154). -/
def rotL28 (v n : Nat) : Nat := (v * 2 ^ n) % 2 ^ 28 + v / 2 ^ (28 - n)

/-- The round keys from the halves `C`, `D` on, one per rotation amount; the rotation comes before the key is taken and
the rotations accumulate (R154). -/
def baseSchedule (rot : List Nat) (C D : Nat) : List Bytes :=
  match rot with
  | [] => []
  | n :: rest =>
    let C' := rotL28 C n
    let D' := rotL28 D n
    permuteFixed (beBytes (C' * 2 ^ 28 + D') 7) tables.pc2 :: baseSchedule rest C' D'

/-- The first 28 bits of the selected 56, first bit most significant (R154). -/
def halfC (key : Bytes) : Nat := intOf (permuteFixed key tables.pc1) / 2 ^ 28

/-- The last 28 bits of the selected 56, first bit most significant (R154). -/
def halfD (key : Bytes) : Nat := intOf (permuteFixed key tables.pc1) % 2 ^ 28

/-- `BaseExpand(key)` for a key that passes its checks: 16 round keys of 6 bytes, in encryption order (R154). -/
def baseRoundKeys (key : Bytes) : List Bytes := baseSchedule tables.rot (halfC key) (halfD key)

/-- `BaseExpand(key)`: length, then parity, then the round keys (R154). -/
def baseExpand (key : Bytes) : Except CoreError (List Bytes) :=
  if key.length ≠ 8 then .error (.sizeKey key.length)
  else match firstBadParity key with
    | some i => .error (.parity i)
    | none => .ok (baseRoundKeys key)

/-! ### Block functions -/

/-- `Permute(Feistel(Permute(b, IP), rks, 16, 8, BaseRound), FP)`, the shape of both directions (`44_block_ciphers.md`
R203). -/
def baseBlock (rks : List Bytes) (b : Bytes) : Bytes :=
  permuteFixed (feistel (permuteFixed b tables.ip) rks 16 8 baseRound) tables.fp

/-- `BaseEnc(rk16, b)` (`44_block_ciphers.md` R203). -/
def baseEnc (rk16 : List Bytes) (b : Bytes) : Bytes := baseBlock rk16 b

/-- `BaseDec(rk16, b)`: the round keys reversed (`44_block_ciphers.md` R203). -/
def baseDec (rk16 : List Bytes) (b : Bytes) : Bytes := baseBlock rk16.reverse b

end Sys2Proof.Machine
end

