-- ==== Sys2Proof/Machine/CompositeCipher.lean ====
section
/-! DEFINITION. The composite cipher: key schedule, round-function adapter with its cache, block functions
(`42_composite_schedule_and_adapter.md` R171 to R179, `44_block_ciphers.md` R204). -/

namespace Sys2Proof.Machine

/-! ### Key schedule -/

/-- `SCHED_KEY = AdjustParity(Rep(COMP_KS_CONST_BYTE, 8))` (R171). -/
def schedKey (c : Byte) : Bytes := adjustParity (rep c 8)

/-- `SCHED_RK = BaseExpand(SCHED_KEY)`; it cannot fail (R171). -/
def schedRk (c : Byte) : List Bytes := baseRoundKeys (schedKey c)

/-- `SchedEnc(x) = BaseEnc(SCHED_RK, x)` (R171). -/
def schedEnc (c : Byte) (x : Bytes) : Bytes := baseEnc (schedRk c) x

/-- `part[j] = key[8j .. 8j+8)` (R172). -/
def keyPart (key : Bytes) (j : Nat) : Bytes := slice key (8 * j) (8 * j + 8)

/-- `RoundConst(j) = BE(2^j, 8)` (R173). -/
def roundConst (j : Nat) : Bytes := beBytes (2 ^ j) 8

/-- What is encrypted for round key `i`, given round key `i - 1` (R172). -/
def compInput (key : Bytes) (S i : Nat) (prev : Bytes) : Bytes :=
  if i = 0 then keyPart key 0
  else if i < S then xorBytes (keyPart key i) prev
  else xorBytes (xorBytes (keyPart key (i % S)) prev) (roundConst (i - S))

/-- `n` round keys from round `i` on (R172). -/
def compSchedule (c : Byte) (key : Bytes) (S n i : Nat) (prev : Bytes) : List Bytes :=
  match n with
  | 0 => []
  | n + 1 =>
    let rk := schedEnc c (compInput key S i prev)
    rk :: compSchedule c key S n (i + 1) rk

/-- `CompExpand(key, S, R)` for a key of the right length: `R` round keys of 8 bytes, in encryption order (R172). -/
def compRoundKeys (c : Byte) (key : Bytes) (S R : Nat) : List Bytes := compSchedule c key S R 0 []

/-- `CompExpand(key, S, R)` with its check; it has no parity failure (R172, R175). -/
def compExpand (c : Byte) (key : Bytes) (S R : Nat) : Except CoreError (List Bytes) :=
  if key.length ≠ 8 * S then .error (.sizeKey key.length) else .ok (compRoundKeys c key S R)

/-! ### Round-function adapter -/

/-- `CompRound(half, rk) = BaseEnc(BaseExpand(AdjustParity(rk)), half)` on operands of the right lengths (R176). A model
may define it without the cache; "doing so is exact" (R179). -/
def compRound (half rk : Bytes) : Bytes := baseEnc (baseRoundKeys (adjustParity rk)) half

/-- `CompRound` with its check (R176). -/
def compRoundChecked (half rk : Bytes) : Except CoreError Bytes :=
  if half.length ≠ 8 ∨ rk.length ≠ 8 then .error (.sizeHalf half.length) else .ok (compRound half rk)

/-- The cache's entry for an adjusted key, if it has one (R177). -/
def cacheFind (cache : List CacheEntry) (k : Bytes) : Option (List Bytes) :=
  (cache.find? fun e => e.key = k).map CacheEntry.subKeys

/-- Insert an entry; when the cache is full the oldest one is dropped (R178 allows any). [log 9] -/
def cacheInsert (capacity : Nat) (cache : List CacheEntry) (e : CacheEntry) : List CacheEntry :=
  cache.drop (cache.length + 1 - capacity) ++ [e]

/-- `Lookup(k)`: the sub-key set and the cache afterwards (R177). -/
def cacheLookup (capacity : Nat) (cache : List CacheEntry) (k : Bytes) : List Bytes × List CacheEntry :=
  match cacheFind cache k with
  | some v => (v, cache)
  | none => (baseRoundKeys k, cacheInsert capacity cache ⟨k, baseRoundKeys k⟩)

/-- `CompRound` through the cache, as R176 writes it: the result and the cache afterwards. -/
def compRoundCached (capacity : Nat) (cache : List CacheEntry) (half rk : Bytes) : Bytes × List CacheEntry :=
  let r := cacheLookup capacity cache (adjustParity rk)
  (baseEnc r.1 half, r.2)

/-- The cache after the lookups of one composite block operation, one per round key in the order used. -/
def cacheAfterBlock (capacity : Nat) (rks : List Bytes) (cache : List CacheEntry) : List CacheEntry :=
  rks.foldl (fun c rk => (cacheLookup capacity c (adjustParity rk)).2) cache

/-- The cache after `n` block operations with the same round keys. -/
def cacheAfterBlocks (capacity : Nat) (rks : List Bytes) (n : Nat) (cache : List CacheEntry) : List CacheEntry :=
  match n with
  | 0 => cache
  | n + 1 => cacheAfterBlocks capacity rks n (cacheAfterBlock capacity rks cache)

/-! ### Block functions -/

/-- `CompEnc(rk, N, b)`, with no permutation before or after (`44_block_ciphers.md` R204). -/
def compEnc (rk : List Bytes) (N : Nat) (b : Bytes) : Bytes := feistel b rk N 16 compRound

/-- `CompDec(rk, N, b)`: the round keys reversed (`44_block_ciphers.md` R204). -/
def compDec (rk : List Bytes) (N : Nat) (b : Bytes) : Bytes := feistel b rk.reverse N 16 compRound

end Sys2Proof.Machine
end

