-- ==== Sys2Proof/Machine/Flags.lean ====
section
/-! DEFINITION. The status and error registers: the codes and details of the errors (`60_exceptions.md` R301, R302), the
codes of the enumerations (`10_state.md` R22), and the register words of `STATUS`, `ERRCODE`, `ERRINFO` (R23, R24). -/

namespace Sys2Proof.Machine

/-- `ERRCODE` of an error: class in [7:4], member in [3:0] (R301). -/
def CoreError.code : CoreError → BitVec 8
  | .sizeKey _ => 0x10
  | .sizeBlock _ => 0x11
  | .sizeIv _ => 0x12
  | .sizeDelta _ => 0x13
  | .sizeHalf _ => 0x14
  | .sizeBuf _ => 0x15
  | .sizePerm _ => 0x16
  | .parity _ => 0x20
  | .rangePerm _ => 0x30
  | .rangePad _ => 0x31
  | .stateNokey => 0x40
  | .stateUnsup _ => 0x41
  | .stateRkcount _ => 0x42
  | .illegalCmd _ => 0x60

/-- `ERRINFO` of an error: the recorded detail, zero-extended to 32 bits (R302). -/
def CoreError.info : CoreError → Word
  | .sizeKey n => BitVec.ofNat 32 n
  | .sizeBlock dlen => dlen
  | .sizeIv ivlen => ivlen.setWidth 32
  | .sizeDelta deltalen => deltalen.setWidth 32
  | .sizeHalf len => BitVec.ofNat 32 len
  | .sizeBuf dlen => dlen
  | .sizePerm m => BitVec.ofNat 32 m
  | .parity index => BitVec.ofNat 32 index
  | .rangePerm index => BitVec.ofNat 32 index
  | .rangePad last => last.setWidth 32
  | .stateNokey => 0
  | .stateUnsup mode => mode.setWidth 32
  | .stateRkcount count => BitVec.ofNat 32 count
  | .illegalCmd w => w

/-- The code of a variant in `CTRL.CIPHER` and `STATUS.KCIPHER` (`10_state.md` R22, R23). -/
def variantCode : Variant → BitVec 2
  | .base => 0
  | .comp2 => 1
  | .comp3 => 2
  | .comp4 => 3

/-- The variant of a `CTRL.CIPHER` code; all four codes are supported (`60_exceptions.md` R315). -/
def variantOfCode (c : BitVec 2) : Variant :=
  if c = 0 then .base else if c = 1 then .comp2 else if c = 2 then .comp3 else .comp4

/-- The mode of a `CTRL.MODE` code; code 7 is reserved (`10_state.md` R22). -/
def modeOfCode (c : BitVec 3) : Option Mode :=
  if c = 0 then some .ecb
  else if c = 1 then some .cbc
  else if c = 2 then some .pcbc
  else if c = 3 then some .cfb
  else if c = 4 then some .ofb
  else if c = 5 then some .ctr
  else if c = 6 then some .randomDelta
  else none

/-- The padding of a `CTRL.PAD` code (`10_state.md` R22). -/
def paddingOfCode (c : BitVec 2) : Padding :=
  if c = 0 then .zeros else if c = 1 then .pkcs7 else if c = 2 then .ansiX923 else .iso10126

/-- The `STATUS` register: `DONE` [0], `ERR` [1], `KEY_SET` [2], `KCIPHER` [5:4], the rest 0 (`10_state.md` R23). -/
def statusWord (s : State) : Word :=
  ((((0#26 ++ variantCode s.kcipher) ++ 0#1) ++ BitVec.ofBool s.keySet) ++ BitVec.ofBool s.err) ++ BitVec.ofBool s.done

/-- The `ERRCODE` register: the code in [7:0], the rest 0 (`10_state.md` R24). -/
def errcodeWord (s : State) : Word := s.errcode.setWidth 32

end Sys2Proof.Machine
end

