-- ==== Sys2Proof/Machine/Ops.lean ====
section
/-! DEFINITION. The shared operations over the state: the memories, the register words, the ends of a command
(`60_exceptions.md` R320, R321) and hardware reset (`70_reset_and_hazards.md` R340). -/

namespace Sys2Proof.Machine

/-! ### Memory (`10_state.md` R35, `20_memory.md` R61) -/

/-- The canonical form of the list of written bytes: offsets strictly rising. A byte that nothing has written is not
listed. -/
abbrev Memory.wf (m : List Host.Cell) : Prop := m.Pairwise fun c d => c.1 < d.1

/-- The byte written at offset `a`, if one was. -/
def Memory.find (m : List Host.Cell) (a : Nat) : Option Byte :=
  match m with
  | [] => none
  | (k, v) :: rest => if k = a then some v else Memory.find rest a

/-- Write one byte, keeping the canonical form. -/
def Memory.write (m : List Host.Cell) (a : Nat) (b : Byte) : List Host.Cell :=
  match m with
  | [] => [(a, b)]
  | (k, v) :: rest =>
    if a < k then (a, b) :: (k, v) :: rest
    else if a = k then (a, b) :: rest
    else (k, v) :: Memory.write rest a b

/-- Write a byte sequence at ascending offsets. -/
def Memory.writeBytes (m : List Host.Cell) (a : Nat) (bs : Bytes) : List Host.Cell :=
  match bs with
  | [] => m
  | b :: rest => Memory.writeBytes (Memory.write m a b) (a + 1) rest

/-- First offset of `TBL`, `DIN` and `DOUT` (`20_memory.md` R61). -/
def tblBase : Nat := 0x00400
def dinBase : Nat := 0x10000
def doutBase : Nat := 0x20000

/-- The bytes of the address map that are memory: `TBL`, `DIN`, `DOUT` (`20_memory.md` R61). -/
abbrev Memory.mapped (p : Params) (a : Nat) : Prop :=
  (tblBase ≤ a ∧ a < tblBase + 4 * p.tblEntries) ∨ (dinBase ≤ a ∧ a < dinBase + p.bufBytes)
    ∨ (doutBase ≤ a ∧ a < doutBase + p.bufBytes + 16)

/-- The byte at offset `a` of the memories: the one written last, else the free power-on value, the same on every read
until written (`70_reset_and_hazards.md` R343). [log 4] -/
def State.byteAt (s : State) (a : Nat) : Byte :=
  match Memory.find s.mem a with
  | some b => b
  | none => Config.powerOnByte s.resetCount a

/-- `n` bytes from offset `a` up. -/
def State.bytesAt (s : State) (a n : Nat) : Bytes := (List.range n).map fun k => s.byteAt (a + k)

/-- The word at offset `a` of the memories (`20_memory.md` R62). -/
def State.wordAt (s : State) (a : Nat) : Word :=
  wordOfBytes (s.byteAt a) (s.byteAt (a + 1)) (s.byteAt (a + 2)) (s.byteAt (a + 3))

/-- Write bytes at ascending offsets of the memories. -/
def State.putBytes (s : State) (a : Nat) (bs : Bytes) : State := { s with mem := Memory.writeBytes s.mem a bs }

/-- `DOUT[0 .. len(out)) <- out ; OLEN <- len(out)`, the output of a successful data command (`20_memory.md` R67, R72).
The stored bytes above the output keep their values, which nothing can see (U12). [log 12] -/
def State.putOutput (s : State) (out : Bytes) : State :=
  { s with mem := Memory.writeBytes s.mem doutBase out, olen := BitVec.ofNat 32 out.length }

/-! ### Register words -/

/-- Word `j` of a 16-byte register. -/
def Reg4.get (r : Reg4) (j : Fin 4) : Word :=
  match j with
  | 0 => r.w0
  | 1 => r.w1
  | 2 => r.w2
  | 3 => r.w3

/-- Store word `j` of a 16-byte register. -/
def Reg4.set (r : Reg4) (j : Fin 4) (w : Word) : Reg4 :=
  match j with
  | 0 => { r with w0 := w }
  | 1 => { r with w1 := w }
  | 2 => { r with w2 := w }
  | 3 => { r with w3 := w }

/-- The 16 bytes of the register, packed big-endian (`20_memory.md` R62). -/
def Reg4.bytes (r : Reg4) : Bytes := wordBytes r.w0 ++ wordBytes r.w1 ++ wordBytes r.w2 ++ wordBytes r.w3

/-- Store word `j` of a 32-byte register. -/
def Reg8.set (r : Reg8) (j : Fin 8) (w : Word) : Reg8 :=
  match j with
  | 0 => { r with w0 := w }
  | 1 => { r with w1 := w }
  | 2 => { r with w2 := w }
  | 3 => { r with w3 := w }
  | 4 => { r with w4 := w }
  | 5 => { r with w5 := w }
  | 6 => { r with w6 := w }
  | 7 => { r with w7 := w }

/-- Word `j` of a 32-byte register. The host cannot read `KEY`; this is the stored word (`10_state.md` R28). -/
def Reg8.get (r : Reg8) (j : Fin 8) : Word :=
  match j with
  | 0 => r.w0
  | 1 => r.w1
  | 2 => r.w2
  | 3 => r.w3
  | 4 => r.w4
  | 5 => r.w5
  | 6 => r.w6
  | 7 => r.w7

/-- The 32 bytes of the register, packed big-endian (`20_memory.md` R62). -/
def Reg8.bytes (r : Reg8) : Bytes :=
  wordBytes r.w0 ++ wordBytes r.w1 ++ wordBytes r.w2 ++ wordBytes r.w3
    ++ wordBytes r.w4 ++ wordBytes r.w5 ++ wordBytes r.w6 ++ wordBytes r.w7

/-! ### The ends of a command -/

/-- `raise X(info)`: the failing end of a command, the core's one exception (`60_exceptions.md` R300, R320). `isData` says
whether the command is a data command, whose failure also empties the output. Nothing is saved and control goes nowhere:
"There is no trap vector, no handler address, no saved program counter, no mode change and no stack". -/
def State.raise (s : State) (isData : Bool) (e : CoreError) : State :=
  { s with
    done := false
    err := true
    errcode := e.code
    errinfo := e.info
    olen := if isData then 0 else s.olen }

/-- `complete without error` (`60_exceptions.md` R321). It stands in the place of a return from an exception, which the
core does not have (R322): the next command's end replaces the report. -/
def State.complete (s : State) : State := { s with done := true, err := false, errcode := 0, errinfo := 0 }

/-- What an illegal command word does: `ILLEGAL_CMD(w)` and nothing else (`60_exceptions.md` R318). -/
def State.raiseIllegal (s : State) (w : Word) : State := s.raise false (.illegalCmd w)

/-! ### Key store and random source -/

/-- `STATUS.KEY_SET <- 0 ; STATUS.KCIPHER <- 0 ; RK_ENC, RK_DEC invalid` (`44_block_ciphers.md` R201). -/
def State.dropKey (s : State) : State := { s with keySet := false, kcipher := .base, rkEnc := none }

/-- `RK_ENC <- rk ; STATUS.KCIPHER <- v ; STATUS.KEY_SET <- 1` (`44_block_ciphers.md` R201). -/
def State.installKey (s : State) (v : Variant) (rk : List Bytes) : State :=
  { s with keySet := true, kcipher := v, rkEnc := some rk }

/-- `RK_DEC`, the round keys in decryption order (`10_state.md` R30). -/
def State.rkDec (s : State) : Option (List Bytes) := s.rkEnc.map List.reverse

/-- The `j`-th answer of the random source from here on (`00_scope.md` R15 `draw()`). [log 5] -/
def State.draw (s : State) (j : Nat) : Byte := Config.rnd (s.drawIndex + j)

/-- The random source has answered `n` more requests. -/
def State.drew (s : State) (n : Nat) : State := { s with drawIndex := s.drawIndex + n }

/-! ### Reset -/

/-- The reset signal: from any state to the reset state (`70_reset_and_hazards.md` R340, `93_implementation_defined.md`
U18). The contents of the memories are unspecified again (a new count selects new free contents); what the host has still
to issue and the random source are outside the core and go on. [log 14] -/
def State.hardReset (s : State) : State :=
  { State.reset with
    port := { pending := s.port.pending, response := .none }
    drawIndex := s.drawIndex
    resetCount := s.resetCount + 1 }

end Sys2Proof.Machine
end

