-- ==== Sys2Proof/Machine/Operands.lean ====
section
/-! DEFINITION. What a command reads: the fields of `CTRL` (`10_state.md` R22), the first bytes of `KEY`, `IV` and `DELTA`
(R28), the valid bytes of `DIN` (`20_memory.md` R66) and the entries of `TBL` (`10_state.md` R35). -/

namespace Sys2Proof.Machine

/-- The bits of `CTRL` that a write stores: [2:0], [6:4], [11:8] (`10_state.md` R22). -/
def ctrlMask : Word := 0x00000F77

/-- `CTRL.CIPHER`, bits [1:0]. -/
def State.ctrlCipher (s : State) : Variant := variantOfCode (s.ctrl.extractLsb' 0 2)

/-- `CTRL.KEYADJ`, bit [2]. -/
def State.ctrlKeyadj (s : State) : Bool := s.ctrl.getLsbD 2

/-- `CTRL.MODE`, bits [6:4], as a code. -/
def State.ctrlModeCode (s : State) : BitVec 3 := s.ctrl.extractLsb' 4 3

/-- `CTRL.PAD`, bits [9:8]. -/
def State.ctrlPad (s : State) : Padding := paddingOfCode (s.ctrl.extractLsb' 8 2)

/-- `CTRL.PORDER`, bit [10]: 0 `MSB_FIRST`, 1 `LSB_FIRST`. -/
def State.ctrlPorder (s : State) : BitOrder := if s.ctrl.getLsbD 10 then .lsbFirst else .msbFirst

/-- `CTRL.PBASE`, bit [11]: the index base, 0 or 1. -/
def State.ctrlPbase (s : State) : Nat := (s.ctrl.getLsbD 11).toNat

/-- `KEY[0 .. n)`. -/
def State.keyBytes (s : State) (n : Nat) : Bytes := s.key.bytes.take n

/-- `IVB = IV[0 .. BS)` (`45_mode_engine.md` R230). -/
def State.ivBlock (s : State) (bs : Nat) : Bytes := s.iv.bytes.take bs

/-- `DEL = DELTA[0 .. BS)` (`45_mode_engine.md` R230). -/
def State.deltaBlock (s : State) (bs : Nat) : Bytes := s.delta.bytes.take bs

/-- `DIN[0 .. n)`. -/
def State.din (s : State) (n : Nat) : Bytes := s.bytesAt dinBase n

/-- `TBL[j]`, the whole word the number (`20_memory.md` R62). -/
def State.tblEntry (s : State) (j : Nat) : Nat := (s.wordAt (tblBase + 4 * j)).toNat

/-- `TBL[0 .. m)`. -/
def State.tbl (s : State) (m : Nat) : List Nat := (List.range m).map s.tblEntry

/-- The visible byte `k` of `DOUT`: the stored byte below `OLEN`, `0x00` at or above it (`20_memory.md` R67). -/
def State.doutByte (s : State) (k : Nat) : Byte := if k < s.olen.toNat then s.byteAt (doutBase + k) else 0

/-- `DOUT[0 .. OLEN)`, the output of the last data command. -/
def State.output (s : State) : Bytes := s.bytesAt doutBase s.olen.toNat

end Sys2Proof.Machine
end

