-- ==== Sys2Proof/Machine/BlockCipher.lean ====
section
/-! DEFINITION. The four variants and the installed cipher (`00_scope.md` R8, `44_block_ciphers.md` R200, R207). -/

namespace Sys2Proof.Machine

/-- `BS(v)` in bytes (R8, R200). -/
def blockSize : Variant → Nat
  | .base => 8
  | .comp2 => 16
  | .comp3 => 16
  | .comp4 => 16

/-- `ROUNDS(v)` (R8, R200). -/
def roundCount : Variant → Nat
  | .base => 16
  | .comp2 => 6
  | .comp3 => 6
  | .comp4 => 8

/-- `KEYBYTES(v)` (R8, R200). -/
def keyLength : Variant → Nat
  | .base => 8
  | .comp2 => 16
  | .comp3 => 24
  | .comp4 => 32

/-- `PARTS(v)`, the source's `S` (R8, R200). The base cipher's key is one part. -/
def keyParts : Variant → Nat
  | .base => 1
  | .comp2 => 2
  | .comp3 => 3
  | .comp4 => 4

/-- The length of one round key in bytes (R8). -/
def roundKeyLength : Variant → Nat
  | .base => 6
  | .comp2 => 8
  | .comp3 => 8
  | .comp4 => 8

/-- The round keys of a master key (`44_block_ciphers.md` R201, R202): the base cipher's key is normalized first when
`adj` is set and then checked; a composite key is neither. -/
def expandKey (c : Byte) (v : Variant) (adj : Bool) (key : Bytes) : Except CoreError (List Bytes) :=
  match v with
  | .base => baseExpand (if adj then adjustParity key else key)
  | .comp2 => compExpand c key (keyParts .comp2) (roundCount .comp2)
  | .comp3 => compExpand c key (keyParts .comp3) (roundCount .comp3)
  | .comp4 => compExpand c key (keyParts .comp4) (roundCount .comp4)

/-- `E(b)` of the installed cipher (`44_block_ciphers.md` R207). -/
def encBlock (v : Variant) (rks : List Bytes) (b : Bytes) : Bytes :=
  match v with
  | .base => baseEnc rks b
  | .comp2 => compEnc rks (roundCount .comp2) b
  | .comp3 => compEnc rks (roundCount .comp3) b
  | .comp4 => compEnc rks (roundCount .comp4) b

/-- `D(b)` of the installed cipher (`44_block_ciphers.md` R207). -/
def decBlock (v : Variant) (rks : List Bytes) (b : Bytes) : Bytes :=
  match v with
  | .base => baseDec rks b
  | .comp2 => compDec rks (roundCount .comp2) b
  | .comp3 => compDec rks (roundCount .comp3) b
  | .comp4 => compDec rks (roundCount .comp4) b

/-- The installed key as every cipher command finds it: the variant and the round keys, or `STATE_NOKEY`, or, from a key
store that holds too few round keys, `STATE_RKCOUNT` (`43_feistel_engine.md` R191; dead in the core, R305).
[log 13] -/
def State.installed (s : State) : Except CoreError (Variant × List Bytes) :=
  match s.keySet, s.rkEnc with
  | true, some rks =>
    if rks.length < roundCount s.kcipher then .error (.stateRkcount rks.length) else .ok (s.kcipher, rks)
  | _, _ => .error .stateNokey

/-- The cache after `n` block operations of variant `v` with the round keys in the order used; only a composite
operation looks sub-keys up (`42_composite_schedule_and_adapter.md` R176, R177). [log 9] -/
def State.touchCache (s : State) (p : Params) (v : Variant) (rks : List Bytes) (n : Nat) : State :=
  { s with
    cache := if v = .base then s.cache
             else cacheAfterBlocks p.cacheEntries (rks.take (roundCount v)) n s.cache }

end Sys2Proof.Machine
end

