-- ==== Sys2Proof/Machine/Modes.lean ====
section
/-! DEFINITION. Padding and its removal (`45_mode_engine.md` R221 to R227), the step rules of the seven modes (R230 to
R238), the chunks (`46_chunked_and_parallel.md` R262) and the two ways a chunked command runs a mode (R264 to R266). -/

namespace Sys2Proof.Machine

/-! ### Padding -/

/-- `p = BS - (len mod BS)`, the bytes a length-byte scheme adds (R221). -/
def padLength (bs len : Nat) : Nat := bs - len % bs

/-- How many requests `Pad` makes of the random source: `p - 1` for `ISO_10126`, none otherwise (R225). -/
def drawCount (bs : Nat) (scheme : Padding) (len : Nat) : Nat :=
  match scheme with
  | .zeros => 0
  | .pkcs7 => 0
  | .ansiX923 => 0
  | .iso10126 => padLength bs len - 1

/-- `Pad(data, BS, scheme)` (R221 to R225); `draw j` is the answer to its `j`-th request, in order of increasing
position. -/
def pad (draw : Nat → Byte) (bs : Nat) (scheme : Padding) (data : Bytes) : Bytes :=
  let p := padLength bs data.length
  match scheme with
  | .zeros => if data.length % bs = 0 then data else data ++ zeroBytes (bs - data.length % bs)
  | .pkcs7 => data ++ rep (BitVec.ofNat 8 p) p
  | .ansiX923 => data ++ zeroBytes (p - 1) ++ [BitVec.ofNat 8 p]
  | .iso10126 => data ++ (List.range (p - 1)).map draw ++ [BitVec.ofNat 8 p]

/-- `Unpad(data, BS, ZEROS)`: every trailing zero byte goes (R227). -/
def unpadZeros (data : Bytes) : Bytes := (data.reverse.dropWhile fun b => b == 0).reverse

/-- `Unpad(data, BS, scheme)` of the three length-byte schemes: the last byte is the length, nothing else is examined
(R226). -/
def unpadLength (bs : Nat) (data : Bytes) : Except CoreError Bytes :=
  match data.getLast? with
  | none => .error (.rangePad 0)
  | some b =>
    if b.toNat = 0 ∨ bs < b.toNat ∨ data.length < b.toNat then .error (.rangePad b)
    else .ok (data.take (data.length - b.toNat))

/-- `Unpad(data, BS, scheme)` (R226, R227). -/
def unpad (bs : Nat) (scheme : Padding) (data : Bytes) : Except CoreError Bytes :=
  match scheme with
  | .zeros => .ok (unpadZeros data)
  | .pkcs7 => unpadLength bs data
  | .ansiX923 => unpadLength bs data
  | .iso10126 => unpadLength bs data

/-! ### Modes -/

/-- `Ctr(i) = BE((Int(IVB) + i) mod 2^(8·BS), BS)` (R230); the counter wraps (decision D15). -/
def ctrBlock (bs : Nat) (iv : Bytes) (i : Nat) : Bytes := beBytes ((intOf iv + i) % 2 ^ (8 * bs)) bs

/-- One encrypting step: output block and next feedback from block index `i`, feedback `F`, input block `X`
(R231 to R237). `E` is the installed cipher's block encryption. -/
def encStep (E : Bytes → Bytes) (bs : Nat) (m : Mode) (iv del : Bytes) (i : Nat) (F X : Bytes) : Bytes × Bytes :=
  match m with
  | .ecb => (E X, F)
  | .cbc => let Y := E (xorBytes X F); (Y, Y)
  | .pcbc => let Y := E (xorBytes X F); (Y, xorBytes Y X)
  | .cfb => let Y := xorBytes (E F) X; (Y, Y)
  | .ofb => let F' := E F; (xorBytes X F', F')
  | .ctr => (xorBytes (E (ctrBlock bs iv i)) X, F)
  | .randomDelta => let Y := E (xorBytes X F); (Y, xorBytes Y del)

/-- One decrypting step (R231 to R238): `CFB`, `OFB` and `CTR` use `E`, the others `D`. -/
def decStep (E D : Bytes → Bytes) (bs : Nat) (m : Mode) (iv del : Bytes) (i : Nat) (F X : Bytes) : Bytes × Bytes :=
  match m with
  | .ecb => (D X, F)
  | .cbc => (xorBytes (D X) F, X)
  | .pcbc => let Y := xorBytes (D X) F; (Y, xorBytes X Y)
  | .cfb => (xorBytes (E F) X, X)
  | .ofb => let F' := E F; (xorBytes X F', F')
  | .ctr => (xorBytes (E (ctrBlock bs iv i)) X, F)
  | .randomDelta => (xorBytes (D X) F, xorBytes X del)

/-- Run a step rule over the blocks in index order from index `i` and feedback `F`. -/
def runBlocks (step : Nat → Bytes → Bytes → Bytes × Bytes) (i : Nat) (F : Bytes) (xs : List Bytes) : List Bytes :=
  match xs with
  | [] => []
  | X :: rest =>
    let r := step i F X
    r.1 :: runBlocks step (i + 1) r.2 rest

/-- `ModeEnc`: the encrypting step rule over all blocks from `F_0 = IVB` and block index 0 (R220, R238). -/
def modeEnc (E : Bytes → Bytes) (bs : Nat) (m : Mode) (iv del x : Bytes) : Bytes :=
  (runBlocks (encStep E bs m iv del) 0 iv (blocksOf bs x)).flatten

/-- `ModeDec`: the decrypting step rule over all blocks from `F_0 = IVB` and block index 0 (R220, R238). -/
def modeDec (E D : Bytes → Bytes) (bs : Nat) (m : Mode) (iv del x : Bytes) : Bytes :=
  (runBlocks (decStep E D bs m iv del) 0 iv (blocksOf bs x)).flatten

/-- Whether decryption in a mode uses `D` (R238). -/
def usesDecrypt : Mode → Bool
  | .ecb => true
  | .cbc => true
  | .pcbc => true
  | .cfb => false
  | .ofb => false
  | .ctr => false
  | .randomDelta => true

/-! ### Chunks -/

/-- `ChunkSize(N, T, BS) = max(BS, ((N div T) div BS) · BS)` (`46_chunked_and_parallel.md` R262). -/
def chunkSize (N T bs : Nat) : Nat := max bs (N / T / bs * bs)

/-- `Chunks(N, T, BS)`: the slices `[k·c, min((k+1)·c, N))` for `k = 0, 1, …` while `k·c < N` (R262). -/
def chunks (N T bs : Nat) : List (Nat × Nat) :=
  let c := chunkSize N T bs
  (List.range ((N + c - 1) / c)).map fun k => (k * c, min ((k + 1) * c) N)

/-- What a chunked command runs instead of `run`: the same over the whole data, or, with `LEGACY_CHUNK_RESTART` in any
mode but `ECB`, each chunk as a buffer of its own (R264, R265, R266). -/
def runChunked (legacy : Bool) (T bs : Nat) (m : Mode) (run : Bytes → Bytes) (x : Bytes) : Bytes :=
  if legacy = false ∨ m = .ecb then run x
  else ((chunks x.length T bs).map fun ab => run (slice x ab.1 ab.2)).flatten

end Sys2Proof.Machine
end

