-- ==== Sys2Proof/Machine/Buffer.lean ====
section
/-! DEFINITION. The checks and the two shapes shared by the four mode commands, and the commands `ENCBUF` and `DECBUF`
(`45_mode_engine.md` R239 to R241). -/

namespace Sys2Proof.Machine

/-- What a mode command works with once its checks have passed. -/
structure ModeSetup where
  variant : Variant
  rks : List Bytes
  mode : Mode
  padding : Padding
  deriving DecidableEq, Repr

/-- `BS` of the installed cipher. -/
def ModeSetup.bs (c : ModeSetup) : Nat := blockSize c.variant

/-- `E` of the installed cipher. -/
def ModeSetup.enc (c : ModeSetup) (b : Bytes) : Bytes := encBlock c.variant c.rks b

/-- `D` of the installed cipher. -/
def ModeSetup.dec (c : ModeSetup) (b : Bytes) : Bytes := decBlock c.variant c.rks b

/-- `ModeChecks`, in its order: key, mode, buffer capacity, IV length, delta length (R239). -/
def modeChecks (p : Params) (s : State) : Except CoreError ModeSetup :=
  match s.installed with
  | .error e => .error e
  | .ok (v, rks) =>
    match modeOfCode s.ctrlModeCode with
    | none => .error (.stateUnsup s.ctrlModeCode)
    | some m =>
      if p.bufBytes < s.dlen.toNat then .error (.sizeBuf s.dlen)
      else if m ≠ .ecb ∧ s.ivlen.toNat ≠ blockSize v then .error (.sizeIv s.ivlen)
      else if m = .randomDelta ∧ s.deltalen.toNat ≠ blockSize v then .error (.sizeDelta s.deltalen)
      else .ok ⟨v, rks, m, s.ctrlPad⟩

/-- `ModeEnc(mode, x)` of the installed cipher, with `IV` and `DELTA` as the host left them. -/
def State.modeEnc (s : State) (c : ModeSetup) (x : Bytes) : Bytes :=
  Sys2Proof.Machine.modeEnc c.enc c.bs c.mode (s.ivBlock c.bs) (s.deltaBlock c.bs) x

/-- `ModeDec(mode, x)` of the installed cipher. -/
def State.modeDec (s : State) (c : ModeSetup) (x : Bytes) : Bytes :=
  Sys2Proof.Machine.modeDec c.enc c.dec c.bs c.mode (s.ivBlock c.bs) (s.deltaBlock c.bs) x

/-- The padded input of an encrypting mode command: `Pad(DIN[0 .. DLEN), BS, pad)`. -/
def State.paddedInput (s : State) (c : ModeSetup) : Bytes := pad s.draw c.bs c.padding (s.din s.dlen.toNat)

/-- The shape of the encrypting mode commands (R240): checks, padding of the whole input, the mode `run` over it,
output. -/
def encryptCommand (p : Params) (run : ModeSetup → Bytes → Bytes) (s : State) : State :=
  match modeChecks p s with
  | .error e => s.raise true e
  | .ok c =>
    let x := s.paddedInput c
    (((s.drew (drawCount c.bs c.padding s.dlen.toNat)).touchCache p c.variant c.rks (x.length / c.bs)).putOutput
      (run c x)).complete

/-- The shape of the decrypting mode commands (R241): checks, whole number of blocks, the mode `run` over the input,
removal of the padding, output. -/
def decryptCommand (p : Params) (run : ModeSetup → Bytes → Bytes) (s : State) : State :=
  match modeChecks p s with
  | .error e => s.raise true e
  | .ok c =>
    if s.dlen.toNat % c.bs ≠ 0 then s.raise true (.sizeBuf s.dlen)
    else
      let s₁ := s.touchCache p c.variant (if usesDecrypt c.mode then c.rks.reverse else c.rks) (s.dlen.toNat / c.bs)
      match unpad c.bs c.padding (run c (s.din s.dlen.toNat)) with
      | .error e => s₁.raise true e
      | .ok z => (s₁.putOutput z).complete

/-- `ENCBUF` (R240). -/
def execEncbuf (s : State) : Host.Outcome State Fault Refusal := .next (encryptCommand Config.params s.modeEnc s)

/-- `DECBUF` (R241). -/
def execDecbuf (s : State) : Host.Outcome State Fault Refusal := .next (decryptCommand Config.params s.modeDec s)

end Sys2Proof.Machine
end

