-- ==== Sys2Proof/Machine/Chunked.lean ====
section
/-! DEFINITION. The commands `ENCCHK` and `DECCHK` (`46_chunked_and_parallel.md` R264, R265, R266). -/

namespace Sys2Proof.Machine

/-- `ENCCHK T` in a build `p` (R264). -/
def encryptChunked (p : Params) (t : BitVec 16) (s : State) : State :=
  encryptCommand p (fun c x => runChunked p.legacyChunkRestart t.toNat c.bs c.mode (s.modeEnc c) x) s

/-- `DECCHK T` in a build `p` (R265): the padding is removed once, from the reassembled data. -/
def decryptChunked (p : Params) (t : BitVec 16) (s : State) : State :=
  decryptCommand p (fun c x => runChunked p.legacyChunkRestart t.toNat c.bs c.mode (s.modeDec c) x) s

/-- `ENCCHK T`. -/
def execEncchk (t : BitVec 16) (s : State) : Host.Outcome State Fault Refusal :=
  .next (encryptChunked Config.params t s)

/-- `DECCHK T`. -/
def execDecchk (t : BitVec 16) (s : State) : Host.Outcome State Fault Refusal :=
  .next (decryptChunked Config.params t s)

end Sys2Proof.Machine
end

