-- ==== Sys2Proof/Machine/Housekeeping.lean ====
section
/-! DEFINITION. The commands `NOP` and `CLR` (`47_housekeeping.md` R280, R281). -/

namespace Sys2Proof.Machine

/-- `NOP`: complete without error (R280). -/
def execNop (s : State) : Host.Outcome State Fault Refusal := .next s.complete

/-- Every register of `10_state.md` R22 to R28 and the key store at its reset value; the memories stay. The cache "may be
emptied" and is. [log 9] -/
def State.clear (s : State) : State :=
  { s with
    ctrl := 0
    done := false
    err := false
    keySet := false
    kcipher := .base
    errcode := 0
    errinfo := 0
    dlen := 0
    olen := 0
    ivlen := 0
    deltalen := 0
    key := Reg8.zero
    iv := Reg4.zero
    delta := Reg4.zero
    rkEnc := none
    cache := [] }

/-- `CLR`: the one command that does not end by the command-end rules; `DONE` and `ERR` are 0 afterwards (R281). -/
def execClr (s : State) : Host.Outcome State Fault Refusal := .next s.clear

end Sys2Proof.Machine
end

