-- ==== Sys2Proof/Machine/KeyAndBlock.lean ====
section
/-! DEFINITION. The commands `SETKEY`, `ENCBLK` and `DECBLK` (`44_block_ciphers.md` R201, R205, R206). -/

namespace Sys2Proof.Machine

/-- `SETKEY n` in a build `p` (R201): the old key goes before any check; then the length, then the expansion with its
parity check; `KEY`, `OLEN`, `DOUT` and `CTRL` are not written. -/
def setKey (p : Params) (n : BitVec 16) (s : State) : State :=
  let v := s.ctrlCipher
  let s₀ := s.dropKey
  if n.toNat ≠ keyLength v then s₀.raise false (.sizeKey n.toNat)
  else match expandKey p.compKsConstByte v s.ctrlKeyadj (s.keyBytes n.toNat) with
    | .error e => s₀.raise false e
    | .ok rk => (s₀.installKey v rk).complete

/-- `SETKEY n`. -/
def execSetkey (n : BitVec 16) (s : State) : Host.Outcome State Fault Refusal := .next (setKey Config.params n s)

/-- The shape of the two block commands (R205, R206): key, then block size, then one block operation with the round keys
`order` gives. -/
def blockCommand (p : Params) (op : Variant → List Bytes → Bytes → Bytes) (order : List Bytes → List Bytes)
    (s : State) : State :=
  match s.installed with
  | .error e => s.raise true e
  | .ok (v, rks) =>
    if s.dlen.toNat ≠ blockSize v then s.raise true (.sizeBlock s.dlen)
    else ((s.touchCache p v (order rks) 1).putOutput (op v rks (s.din (blockSize v)))).complete

/-- `ENCBLK` (R205). -/
def execEncblk (s : State) : Host.Outcome State Fault Refusal := .next (blockCommand Config.params encBlock id s)

/-- `DECBLK` (R206). -/
def execDecblk (s : State) : Host.Outcome State Fault Refusal :=
  .next (blockCommand Config.params decBlock List.reverse s)

end Sys2Proof.Machine
end

