-- ==== Sys2Proof/Machine/PermuteCommand.lean ====
section
/-! DEFINITION. The command `PERMUTE` (`40_bit_permutation.md` R127). -/

namespace Sys2Proof.Machine

/-- The checks of `PERMUTE m`, in its order (R127). -/
def permuteChecks (p : Params) (m : Nat) (s : State) : Option CoreError :=
  if s.dlen.toNat = 0 then some (.sizePerm 0)
  else if m = 0 then some (.sizePerm 0)
  else if p.bufBytes < s.dlen.toNat then some (.sizeBuf s.dlen)
  else if p.tblEntries < m then some (.sizePerm m)
  else if m % 8 ≠ 0 then some (.sizePerm m)
  else (firstOutOfRange (s.tbl m) s.ctrlPbase (8 * s.dlen.toNat)).map .rangePerm

/-- `PERMUTE m` in a build `p` (R127). It needs no key. -/
def permuteCommand (p : Params) (m : BitVec 16) (s : State) : State :=
  match permuteChecks p m.toNat s with
  | some e => s.raise true e
  | none => (s.putOutput (permute (s.din s.dlen.toNat) (s.tbl m.toNat) s.ctrlPorder s.ctrlPbase)).complete

/-- `PERMUTE m`. -/
def execPermute (m : BitVec 16) (s : State) : Host.Outcome State Fault Refusal :=
  .next (permuteCommand Config.params m s)

end Sys2Proof.Machine
end

