-- ==== Sys2Proof/Machine/Dispatch.lean ====
section
/-! DEFINITION. `exec`: one arm per command, each one call of its meaning. -/

namespace Sys2Proof.Machine

def exec (i : Instr) (s : State) : Host.Outcome State Fault Refusal :=
  match i with
  | .nop => Sys2Proof.Machine.execNop s
  | .setkey n => Sys2Proof.Machine.execSetkey n s
  | .encblk => Sys2Proof.Machine.execEncblk s
  | .decblk => Sys2Proof.Machine.execDecblk s
  | .encbuf => Sys2Proof.Machine.execEncbuf s
  | .decbuf => Sys2Proof.Machine.execDecbuf s
  | .encchk t => Sys2Proof.Machine.execEncchk t s
  | .decchk t => Sys2Proof.Machine.execDecchk t s
  | .permute m => Sys2Proof.Machine.execPermute m s
  | .clr => Sys2Proof.Machine.execClr s

end Sys2Proof.Machine
end

