-- ==== Sys2Proof/Machine/Port.lean ====
section
/-! DEFINITION. The host port: the address map and the 32-bit reads and writes (`20_memory.md` R60 to R68). A write to
`CMD` is the step's own business (`Sys2Proof/Machine/Step.lean`). -/

namespace Sys2Proof.Machine

/-- What a mapped offset names (`20_memory.md` R61). -/
inductive Location where
  | id | ctrl | status | errcode | errinfo | cmd | dlen | olen | ivlen | deltalen
  | key (j : Fin 8)
  | iv (j : Fin 4)
  | delta (j : Fin 4)
  | tbl (j : Nat)
  | din (j : Nat)
  | dout (j : Nat)
  deriving DecidableEq, Repr

/-- The read-only `ID` register (`10_state.md` R21). -/
def idWord : Word := 0x464E4301

/-- Offset of `CMD` (`10_state.md` R25). -/
def cmdOffset : Nat := 0x00014

/-- The registers of the address map (R61), all below `TBL`; the caller has checked that the offset is a multiple of 4. -/
def locateRegister (a : Nat) : Option Location :=
  if a = 0x00000 then some .id
  else if a = 0x00004 then some .ctrl
  else if a = 0x00008 then some .status
  else if a = 0x0000C then some .errcode
  else if a = 0x00010 then some .errinfo
  else if a = cmdOffset then some .cmd
  else if a = 0x00018 then some .dlen
  else if a = 0x0001C then some .olen
  else if a = 0x00020 then some .ivlen
  else if a = 0x00024 then some .deltalen
  else if 0x00040 ≤ a ∧ a ≤ 0x0005C then some (.key (Fin.ofNat 8 ((a - 0x00040) / 4)))
  else if 0x00060 ≤ a ∧ a ≤ 0x0006C then some (.iv (Fin.ofNat 4 ((a - 0x00060) / 4)))
  else if 0x00070 ≤ a ∧ a ≤ 0x0007C then some (.delta (Fin.ofNat 4 ((a - 0x00070) / 4)))
  else none

/-- The memories of the address map (R61), from `TBL` up; the caller has checked that the offset is a multiple of 4. -/
def locateMemory (p : Params) (a : Nat) : Option Location :=
  if tblBase ≤ a ∧ a < tblBase + 4 * p.tblEntries then some (.tbl ((a - tblBase) / 4))
  else if dinBase ≤ a ∧ a < dinBase + p.bufBytes then some (.din ((a - dinBase) / 4))
  else if doutBase ≤ a ∧ a < doutBase + p.bufBytes + 16 then some (.dout ((a - doutBase) / 4))
  else none

/-- The address map (R61): the location of an offset, nothing for an offset that is not a multiple of 4 or is
unmapped (R68). -/
def locate (p : Params) (a : Nat) : Option Location :=
  if a % 4 ≠ 0 then none else if a < tblBase then locateRegister a else locateMemory p a

/-- `HostRead` of a mapped location (R64, R67): reserved bits 0, write-only registers 0, `DOUT` gated by `OLEN`. -/
def readLocation (s : State) (l : Location) : Word :=
  match l with
  | .id => idWord
  | .ctrl => s.ctrl &&& ctrlMask
  | .status => statusWord s
  | .errcode => errcodeWord s
  | .errinfo => s.errinfo
  | .cmd => 0
  | .dlen => s.dlen
  | .olen => s.olen
  | .ivlen => s.ivlen.setWidth 32
  | .deltalen => s.deltalen.setWidth 32
  | .key _ => 0
  | .iv j => s.iv.get j
  | .delta j => s.delta.get j
  | .tbl j => s.wordAt (tblBase + 4 * j)
  | .din j => s.wordAt (dinBase + 4 * j)
  | .dout j =>
    wordOfBytes (s.doutByte (4 * j)) (s.doutByte (4 * j + 1)) (s.doutByte (4 * j + 2)) (s.doutByte (4 * j + 3))

/-- `HostWrite` of a mapped location other than `CMD` (R65): a read-only location changes nothing, `CTRL`, `IVLEN` and
`DELTALEN` store the bits the spec names, the others all 32 bits. -/
def writeLocation (s : State) (l : Location) (w : Word) : State :=
  match l with
  | .id => s
  | .ctrl => { s with ctrl := w &&& ctrlMask }
  | .status => s
  | .errcode => s
  | .errinfo => s
  | .cmd => s
  | .dlen => { s with dlen := w }
  | .olen => s
  | .ivlen => { s with ivlen := w.setWidth 5 }
  | .deltalen => { s with deltalen := w.setWidth 5 }
  | .key j => { s with key := s.key.set j w }
  | .iv j => { s with iv := s.iv.set j w }
  | .delta j => { s with delta := s.delta.set j w }
  | .tbl j => s.putBytes (tblBase + 4 * j) (wordBytes w)
  | .din j => s.putBytes (dinBase + 4 * j) (wordBytes w)
  | .dout _ => s

/-- Where an access goes: nowhere unless it is 32 bits wide at a mapped multiple of 4 (R63, R68). -/
def accessTarget (p : Params) (bits a : Nat) : Option Location := if bits = 32 then locate p a else none

/-- The event at the head of the host's list has been taken; the port's answer is `r`. -/
def State.answered (s : State) (rest : List HostEvent) (r : Response) : State :=
  { s with port := { pending := rest, response := r } }

/-- A host read: the word is answered and nothing else changes; a bad access is answered with an error (R64, R68). -/
def hostRead (p : Params) (bits a : Nat) (rest : List HostEvent) (s : State) : State :=
  match accessTarget p bits a with
  | some l => s.answered rest (.data (readLocation s l))
  | none => s.answered rest .busError

/-- The reset event: the reset state, with the rest of the host's list still to come. -/
def hostReset (rest : List HostEvent) (s : State) : State := (s.answered rest .none).hardReset

/-- The command word of a write to `CMD`, if the access is one. -/
def commandOf (p : Params) (bits a : Nat) (w : Word) : Option Word :=
  match accessTarget p bits a with
  | some .cmd => some w
  | _ => none

/-- A host write to anything but `CMD` (R65, R68). -/
def hostWrite (p : Params) (bits a : Nat) (w : Word) (rest : List HostEvent) (s : State) : State :=
  match accessTarget p bits a with
  | some l => writeLocation (s.answered rest .ack) l w
  | none => s.answered rest .busError

end Sys2Proof.Machine
end

