-- ==== Sys2Proof/Machine/Step.lean ====
section
/-! DEFINITION. The step: the core performs the oldest event the host has issued (`20_memory.md` R74, R75). A write to
`CMD` decodes the word and runs the command to its end in this one step. -/

namespace Sys2Proof.Machine

/-- Run a command word: the command it encodes, or `ILLEGAL_CMD` (`30_encoding.md` R91, `60_exceptions.md` R318). -/
def runCommand (w : Word) (s : State) : Host.Outcome State Fault Refusal :=
  match decode w with
  | .ok i => exec i s
  | .error _ => .next (s.raiseIllegal w)

/-- Perform one event; `rest` is what the host has issued after it. -/
def performEvent (ev : HostEvent) (rest : List HostEvent) (s : State) : Host.Outcome State Fault Refusal :=
  match ev with
  | .read bits a => .next (hostRead Config.params bits a rest s)
  | .reset => .next (hostReset rest s)
  | .write bits a w =>
    match commandOf Config.params bits a w with
    | some word => runCommand word (s.answered rest .ack)
    | none => .next (hostWrite Config.params bits a w rest s)

/-- One step. With no event issued the core is ready for an access and nothing changes (`60_exceptions.md` R330).
[log 1] -/
def step (s : State) : Host.Outcome State Fault Refusal :=
  match s.port.pending with
  | [] => .next s
  | ev :: rest => performEvent ev rest s

/-- The state whose next step is the write of this command word to `CMD`: the write stands at the head of the host's
events, before whatever it had issued. [log 2] -/
def State.withFetchWord (s : State) (nbits w : Nat) : State :=
  { s with port := { s.port with pending := .write 32 cmdOffset (tableWord nbits w) :: s.port.pending } }

end Sys2Proof.Machine
end

