-- ==== Sys2Proof/Laws/Decode.lean ====
section
/-! SUPPORT. Fields of an assembled command word, and what a decoded word must look like. -/

namespace Sys2Proof

@[simp] theorem opcField_commandWord (opc : BitVec 8) (arg : BitVec 16) : opcField (commandWord opc arg) = opc := by
  apply BitVec.eq_of_getLsbD_eq
  intro i hi
  simp only [opcField, commandWord, BitVec.getLsbD_extractLsb', BitVec.getLsbD_append]
  simp [hi]

@[simp] theorem argField_commandWord (opc : BitVec 8) (arg : BitVec 16) : argField (commandWord opc arg) = arg := by
  apply BitVec.eq_of_getLsbD_eq
  intro i hi
  simp only [argField, commandWord, BitVec.getLsbD_extractLsb', BitVec.getLsbD_append]
  simp [hi]

@[simp] theorem rsvField_commandWord (opc : BitVec 8) (arg : BitVec 16) : rsvField (commandWord opc arg) = 0 := by
  apply BitVec.eq_of_getLsbD_eq
  intro i hi
  simp only [rsvField, commandWord, BitVec.getLsbD_extractLsb', BitVec.getLsbD_append]
  have h1 : ¬ (24 + i < 8) := by omega
  have h2 : ¬ (24 + i - 8 < 16) := by omega
  simp [h1, h2]

/-- A word is assembled from its fields when the reserved field is 0. -/
theorem commandWord_fields (w : Word) (h : rsvField w = 0) : commandWord (opcField w) (argField w) = w := by
  apply BitVec.eq_of_getLsbD_eq
  intro i hi
  have hr : ∀ j, j < 8 → w.getLsbD (24 + j) = false := by
    intro j hj
    have := congrArg (fun v => v.getLsbD j) h
    simpa [rsvField, hj] using this
  simp only [opcField, argField, commandWord, BitVec.getLsbD_extractLsb', BitVec.getLsbD_append]
  split
  · simp [*]
  · split
    · rw [decide_eq_true (by omega), Bool.true_and]; congr 1; omega
    · have := hr (i - 24) (by omega)
      rw [show 24 + (i - 24) = i by omega] at this
      rw [this]; simp

end Sys2Proof
end

