-- ==== Sys2Proof/Laws/PerInstr.lean ====
section
/-! SUPPORT. A statement for all commands, one lemma per constructor: the encoder's word decodes back. -/

namespace Sys2Proof.Laws.DecodesBack

/-- Decoding the word of a well-formed command gives that command. -/
def Statement (i : Instr) : Prop := i.wellFormed = true → decode (encode i) = .ok i

theorem nop : Statement .nop := by intro; decide
theorem setkey (n : BitVec 16) : Statement (.setkey n) := by intro; simp [decode, encode]
theorem encblk : Statement .encblk := by intro; decide
theorem decblk : Statement .decblk := by intro; decide
theorem encbuf : Statement .encbuf := by intro; decide
theorem decbuf : Statement .decbuf := by intro; decide
theorem encchk (t : BitVec 16) : Statement (.encchk t) := by
  intro h
  have h : t ≠ 0 := by simpa [Instr.wellFormed] using h
  simp [decode, encode, decodeThreads]
  exact h
theorem decchk (t : BitVec 16) : Statement (.decchk t) := by
  intro h
  have h : t ≠ 0 := by simpa [Instr.wellFormed] using h
  simp [decode, encode, decodeThreads]
  exact h
theorem permute (m : BitVec 16) : Statement (.permute m) := by intro; simp [decode, encode]
theorem clr : Statement .clr := by intro; decide

end Sys2Proof.Laws.DecodesBack
end

