-- ==== Sys2Proof/Safety.lean ====
section
/-! DEFINITION. The terms statements are made in: the invariant of the machine, what a command keeps, and the bytes a
command reads. -/

namespace Sys2Proof.Safety

open Sys2Proof.Machine

/-! ### The invariant -/

/-- The error codes that can appear in `ERRCODE` (`60_exceptions.md` R301), 0 aside. -/
def errorCodes : List (BitVec 8) :=
  [0x10, 0x11, 0x12, 0x13, 0x14, 0x15, 0x16, 0x20, 0x30, 0x31, 0x40, 0x41, 0x42, 0x60]

/-- `STATUS.KEY_SET` says whether the key store is valid, and then it has the shape of variant `KCIPHER`
(`10_state.md` R23, R30). -/
structure KeyStoreOk (s : State) : Prop where
  /-- With `KEY_SET` clear there are no round keys and `KCIPHER` is 0. -/
  absent : s.keySet = false → s.rkEnc = none ∧ s.kcipher = .base
  /-- With `KEY_SET` set there are as many round keys as rounds, each of the variant's length. -/
  present : s.keySet = true → ∃ rks, s.rkEnc = some rks ∧ rks.length = roundCount s.kcipher
    ∧ ∀ k ∈ rks, k.length = roundKeyLength s.kcipher

/-- The report describes one end of a command (`10_state.md` R23, R24; `60_exceptions.md` R301, R320, R321). -/
structure ReportOk (s : State) : Prop where
  notBoth : ¬(s.done = true ∧ s.err = true)
  clean : s.err = false → s.errcode = 0 ∧ s.errinfo = 0
  coded : s.err = true → s.errcode ∈ errorCodes

/-- Every cache entry is the sub-key set of its own adjusted key, no key stands twice, the capacity holds
(`42_composite_schedule_and_adapter.md` R177 to R179). -/
structure CacheOk (p : Params) (cache : List CacheEntry) : Prop where
  fits : cache.length ≤ p.cacheEntries
  exact : ∀ e ∈ cache, e.subKeys = baseRoundKeys e.key
  adjusted : ∀ e ∈ cache, e.key.length = 8 ∧ parityOk e.key = true
  distinct : (cache.map CacheEntry.key).Nodup

/-- The memories are in canonical form, list only bytes that exist, and hold every byte of the output
(`10_state.md` R35, `20_memory.md` R61, R67). -/
structure MemoryOk (p : Params) (s : State) : Prop where
  canonical : Memory.wf s.mem
  mapped : ∀ c ∈ s.mem, Memory.mapped p c.1
  outputFits : s.olen.toNat ≤ p.bufBytes + 16
  outputWritten : ∀ k, k < s.olen.toNat → (Memory.find s.mem (doutBase + k)).isSome

/-- The invariant every step keeps. -/
structure Inv (p : Params) (s : State) : Prop where
  keyStore : KeyStoreOk s
  report : ReportOk s
  cache : CacheOk p s.cache
  memory : MemoryOk p s
  /-- Reserved bits of `CTRL` read 0 (`10_state.md` R22). -/
  ctrl : s.ctrl &&& ~~~0x00000F77#32 = 0

/-! ### What a command keeps -/

/-- The registers the host loads (`CTRL`, `DLEN`, `IVLEN`, `DELTALEN`, `KEY`, `IV`, `DELTA`) are unchanged. -/
structure KeepsHostRegisters (s t : State) : Prop where
  ctrl : t.ctrl = s.ctrl
  dlen : t.dlen = s.dlen
  ivlen : t.ivlen = s.ivlen
  deltalen : t.deltalen = s.deltalen
  key : t.key = s.key
  iv : t.iv = s.iv
  delta : t.delta = s.delta

/-- The key store, `KEY_SET` and `KCIPHER` are unchanged. -/
structure KeepsKeyStore (s t : State) : Prop where
  keySet : t.keySet = s.keySet
  kcipher : t.kcipher = s.kcipher
  rkEnc : t.rkEnc = s.rkEnc

/-- Every byte of memory outside `[a, a + n)` reads as before. -/
def KeepsMemoryOutside (s t : State) (a n : Nat) : Prop :=
  ∀ k, ¬(a ≤ k ∧ k < a + n) → t.byteAt k = s.byteAt k

/-- The model's environment other than the random source is unchanged. -/
structure KeepsPort (s t : State) : Prop where
  port : t.port = s.port
  resetCount : t.resetCount = s.resetCount

/-- The report of a command that ended without error (`60_exceptions.md` R321). -/
structure EndedWell (t : State) : Prop where
  done : t.done = true
  err : t.err = false
  errcode : t.errcode = 0
  errinfo : t.errinfo = 0

/-- The report of a command that ended with the given code and detail (`60_exceptions.md` R320). -/
structure EndedWith (t : State) (code : BitVec 8) (info : Word) : Prop where
  done : t.done = false
  err : t.err = true
  errcode : t.errcode = code
  errinfo : t.errinfo = info

/-! ### Commands by kind -/

/-- The data commands (`00_scope.md` R17). -/
def isDataCommand : Instr → Bool
  | .nop => false
  | .setkey _ => false
  | .encblk => true
  | .decblk => true
  | .encbuf => true
  | .decbuf => true
  | .encchk _ => true
  | .decchk _ => true
  | .permute _ => true
  | .clr => false

/-- The four mode commands (`45_mode_engine.md` R239). -/
def isModeCommand : Instr → Bool
  | .nop => false
  | .setkey _ => false
  | .encblk => false
  | .decblk => false
  | .encbuf => true
  | .decbuf => true
  | .encchk _ => true
  | .decchk _ => true
  | .permute _ => false
  | .clr => false

/-! ### The fields of `CTRL` and their codes, as the table of `10_state.md` R22 prints them

Statements name the fields by these definitions, on the number the word is, and not by what a command reads. -/

/-- `CIPHER`, bits [1:0]. -/
def cipherField (s : State) : Nat := s.ctrl.toNat % 4

/-- `KEYADJ`, bit [2]. -/
def keyadjField (s : State) : Nat := s.ctrl.toNat / 4 % 2

/-- `MODE`, bits [6:4]. -/
def modeField (s : State) : Nat := s.ctrl.toNat / 16 % 8

/-- `PAD`, bits [9:8]. -/
def padField (s : State) : Nat := s.ctrl.toNat / 256 % 4

/-- `PORDER`, bit [10]. -/
def porderField (s : State) : Nat := s.ctrl.toNat / 1024 % 2

/-- `PBASE`, bit [11]. -/
def pbaseField (s : State) : Nat := s.ctrl.toNat / 2048 % 2

/-- The values of `CIPHER`, and of `STATUS.KCIPHER` (R23). -/
def cipherCode : Variant → Nat
  | .base => 0
  | .comp2 => 1
  | .comp3 => 2
  | .comp4 => 3

/-- The values of `MODE`; 7 is reserved. -/
def modeCode : Mode → Nat
  | .ecb => 0
  | .cbc => 1
  | .pcbc => 2
  | .cfb => 3
  | .ofb => 4
  | .ctr => 5
  | .randomDelta => 6

/-- The values of `PAD`. -/
def padCode : Padding → Nat
  | .zeros => 0
  | .pkcs7 => 1
  | .ansiX923 => 2
  | .iso10126 => 3

/-- The values of `PORDER`. -/
def orderCode : BitOrder → Nat
  | .msbFirst => 0
  | .lsbFirst => 1

/-! ### Conditions on the state -/

/-- A key of variant `v` with round keys `rks` is installed (`10_state.md` R23, R30). -/
structure KeyInstalled (s : State) (v : Variant) (rks : List Bytes) : Prop where
  keySet : s.keySet = true
  kcipher : s.kcipher = v
  rkEnc : s.rkEnc = some rks
  enough : roundCount v ≤ rks.length

/-- The five checks of a mode command pass, with mode `m` and padding `pd` selected in `CTRL` (`10_state.md` R22,
`45_mode_engine.md` R239). -/
structure ModeReady (s : State) (v : Variant) (rks : List Bytes) (m : Mode) (pd : Padding) : Prop where
  key : KeyInstalled s v rks
  mode : modeField s = modeCode m
  pad : padField s = padCode pd
  capacity : s.dlen.toNat ≤ 4096
  iv : m ≠ .ecb → s.ivlen.toNat = blockSize v
  delta : m = .randomDelta → s.deltalen.toNat = blockSize v

/-! ### The host port -/

/-- The mapped offsets of the default build: multiples of 4 in the ranges of `20_memory.md` R61. -/
def MappedOffset (a : Nat) : Prop :=
  a % 4 = 0 ∧ (a ≤ 0x00024 ∨ (0x00040 ≤ a ∧ a ≤ 0x0007C) ∨ (0x00400 ≤ a ∧ a ≤ 0x007FC)
    ∨ (0x10000 ≤ a ∧ a ≤ 0x10FFC) ∨ (0x20000 ≤ a ∧ a ≤ 0x2100C))

/-- A host read of offset `a` in state `s` answers the word `w` and changes nothing else. -/
def Reads (s : State) (a : Nat) (w : Word) : Prop :=
  ∀ rest, s.port.pending = .read 32 a :: rest → step s = .next { s with port := ⟨rest, .data w⟩ }

/-- A host write of `w` at offset `a` in state `s` gives the state `t rest`, where `rest` is what the host has still to
issue. -/
def Writes (s : State) (a : Nat) (w : Word) (t : List HostEvent → State) : Prop :=
  ∀ rest, s.port.pending = .write 32 a w :: rest → step s = .next (t rest)

/-! ### The step rules of the modes, as equations between blocks -/

/-- Block `i` of a byte sequence (`20_memory.md` R70). -/
def blk (bs : Nat) (s : Bytes) (i : Nat) : Bytes := slice s (i * bs) ((i + 1) * bs)

/-- `y` is an encryption of `x` in mode `m`: the equations between input blocks, output blocks and the starting feedback
of `45_mode_engine.md` R231 to R237. -/
def EncryptsBy (E : Bytes → Bytes) (bs : Nat) (m : Mode) (iv del x y : Bytes) : Prop :=
  let X := blk bs x
  let Y := blk bs y
  let n := x.length / bs
  match m with
  | .ecb => ∀ i, i < n → Y i = E (X i)
  | .cbc => (0 < n → Y 0 = E (xorBytes (X 0) iv)) ∧ ∀ i, i + 1 < n → Y (i + 1) = E (xorBytes (X (i + 1)) (Y i))
  | .pcbc => (0 < n → Y 0 = E (xorBytes (X 0) iv))
      ∧ ∀ i, i + 1 < n → Y (i + 1) = E (xorBytes (X (i + 1)) (xorBytes (Y i) (X i)))
  | .cfb => (0 < n → Y 0 = xorBytes (E iv) (X 0)) ∧ ∀ i, i + 1 < n → Y (i + 1) = xorBytes (E (Y i)) (X (i + 1))
  | .ofb => ∀ i, i < n → Y i = xorBytes (X i) (E^[i + 1] iv)
  | .ctr => ∀ i, i < n → Y i = xorBytes (E (beBytes ((intOf iv + i) % 2 ^ (8 * bs)) bs)) (X i)
  | .randomDelta => (0 < n → Y 0 = E (xorBytes (X 0) iv))
      ∧ ∀ i, i + 1 < n → Y (i + 1) = E (xorBytes (X (i + 1)) (xorBytes (Y i) del))

/-- `y` is a decryption of `x` in mode `m` (`45_mode_engine.md` R231 to R238). -/
def DecryptsBy (E D : Bytes → Bytes) (bs : Nat) (m : Mode) (iv del x y : Bytes) : Prop :=
  let X := blk bs x
  let Y := blk bs y
  let n := x.length / bs
  match m with
  | .ecb => ∀ i, i < n → Y i = D (X i)
  | .cbc => (0 < n → Y 0 = xorBytes (D (X 0)) iv) ∧ ∀ i, i + 1 < n → Y (i + 1) = xorBytes (D (X (i + 1))) (X i)
  | .pcbc => (0 < n → Y 0 = xorBytes (D (X 0)) iv)
      ∧ ∀ i, i + 1 < n → Y (i + 1) = xorBytes (D (X (i + 1))) (xorBytes (X i) (Y i))
  | .cfb => (0 < n → Y 0 = xorBytes (E iv) (X 0)) ∧ ∀ i, i + 1 < n → Y (i + 1) = xorBytes (E (X i)) (X (i + 1))
  | .ofb => ∀ i, i < n → Y i = xorBytes (X i) (E^[i + 1] iv)
  | .ctr => ∀ i, i < n → Y i = xorBytes (E (beBytes ((intOf iv + i) % 2 ^ (8 * bs)) bs)) (X i)
  | .randomDelta => (0 < n → Y 0 = xorBytes (D (X 0)) iv)
      ∧ ∀ i, i + 1 < n → Y (i + 1) = xorBytes (D (X (i + 1))) (xorBytes (X i) del)

/-! ### The base cipher, bit by bit -/

/-- Where bit `t` of the 56 selected key bits stands after both 28-bit halves have been rotated left by `r` in all: the bit
of the selection that has come to place `t` (`41_base_cipher_round_and_schedule.md` R154). -/
def rotatedFrom (r t : Nat) : Nat := if t < 28 then (t + r) % 28 else 28 + (t - 28 + r) % 28

/-- Bit `m` of group `j` of the expanded half-block xor the round key, as a number
(`41_base_cipher_round_and_schedule.md` R152). -/
def groupBit (half rk : Bytes) (j m : Nat) : Nat :=
  (bitOf .msbFirst half (tables.e.getD (6 * j + m) 0 - 1) ^^ bitOf .msbFirst rk (6 * j + m)).toNat

/-- The entry of box `j` that group `j` selects: the outer two bits are the row, the inner four the column
(`41_base_cipher_round_and_schedule.md` R148, R152). -/
def groupValue (half rk : Bytes) (j : Nat) : Nat :=
  let g := groupBit half rk j
  ((tables.sbox.getD j []).getD (2 * g 0 + g 5) []).getD (8 * g 1 + 4 * g 2 + 2 * g 3 + g 4) 0

/-! ### What a command may depend on -/

/-- The same input: `DLEN`, and `DIN[0 .. DLEN)` where that fits `DIN` (`20_memory.md` R66). -/
structure SameInput (s s' : State) : Prop where
  dlen : s'.dlen = s.dlen
  din : s.dlen.toNat ≤ 4096 → ∀ k, k < s.dlen.toNat → s'.byteAt (dinBase + k) = s.byteAt (dinBase + k)

/-- The operands of `SETKEY n`: `CTRL.CIPHER`, `CTRL.KEYADJ`, and `KEY[0 .. n)` where `n` is the variant's key length
(`44_block_ciphers.md` R201). -/
structure SameKeyOperands (n : Nat) (s s' : State) : Prop where
  cipher : cipherField s' = cipherField s
  keyadj : keyadjField s' = keyadjField s
  key : ∀ v, cipherField s = cipherCode v → n = keyLength v → s'.keyBytes n = s.keyBytes n

/-- The operands of the block commands (`44_block_ciphers.md` R205, R206). -/
structure SameBlockOperands (s s' : State) : Prop where
  key : KeepsKeyStore s s'
  input : SameInput s s'

/-- The operands of the mode commands, without the draws: `IV` only where the mode is not `ECB`, `DELTA` only where it is
`RANDOM_DELTA`, and of both the first `BS` bytes (`10_state.md` R28, `45_mode_engine.md` R239 to R241). -/
structure SameModeOperands (s s' : State) : Prop where
  key : KeepsKeyStore s s'
  input : SameInput s s'
  mode : modeField s' = modeField s
  pad : padField s' = padField s
  ivlen : modeField s ≠ modeCode .ecb → s'.ivlen = s.ivlen
  iv : modeField s ≠ modeCode .ecb → s'.ivBlock (blockSize s.kcipher) = s.ivBlock (blockSize s.kcipher)
  deltalen : modeField s = modeCode .randomDelta → s'.deltalen = s.deltalen
  delta : modeField s = modeCode .randomDelta → s'.deltaBlock (blockSize s.kcipher) = s.deltaBlock (blockSize s.kcipher)

/-- The draws of the encrypting mode commands: the position of the random source, where the padding is `ISO_10126`
(`45_mode_engine.md` R225, R240). -/
def SameDraws (s s' : State) : Prop := padField s = padCode .iso10126 → s'.drawIndex = s.drawIndex

/-- The operands of `PERMUTE m`: no key, and `TBL[0 .. m)` where that fits `TBL` (`40_bit_permutation.md` R127). -/
structure SamePermuteOperands (m : Nat) (s s' : State) : Prop where
  input : SameInput s s'
  porder : porderField s' = porderField s
  pbase : pbaseField s' = pbaseField s
  tbl : m ≤ 256 → ∀ k, k < 4 * m → s'.byteAt (tblBase + k) = s.byteAt (tblBase + k)

/-- Two states give a command the same operands, each command's as its rule lists them; all else may differ
(`93_implementation_defined.md` U13). -/
def SameOperands (i : Instr) (s s' : State) : Prop :=
  match i with
  | .nop => True
  | .setkey n => SameKeyOperands n.toNat s s'
  | .encblk => SameBlockOperands s s'
  | .decblk => SameBlockOperands s s'
  | .encbuf => SameModeOperands s s' ∧ SameDraws s s'
  | .decbuf => SameModeOperands s s'
  | .encchk _ => SameModeOperands s s' ∧ SameDraws s s'
  | .decchk _ => SameModeOperands s s'
  | .permute m => SamePermuteOperands m.toNat s s'
  | .clr => True

/-- The same report of the last command. -/
structure SameReport (t t' : State) : Prop where
  done : t'.done = t.done
  err : t'.err = t.err
  errcode : t'.errcode = t.errcode
  errinfo : t'.errinfo = t.errinfo

end Sys2Proof.Safety
end

