-- ==== Sys2Proof/Certificates/Slice0/Obligations.lean ====
section
/-! DEFINITION. The statements about the core, each from the numbered rules of the spec. -/

open Sys2Proof Sys2Proof.Machine Sys2Proof.Safety

/-! ### Encoding (`30_encoding.md`) -/

/-- Decoding and encoding agree on every command and every word: the word of a well-formed command decodes to it, with every
operand at every value, and what a word decodes to is well-formed and has that word (R90, R91, R95). -/
def Obligations.EncodeAndDecodeAgree : Prop :=
  (∀ i : Instr, i.wellFormed = true → decode (encode i) = .ok i)
    ∧ ∀ (w : Word) (i : Instr), decode w = .ok i → i.wellFormed = true ∧ encode i = w

/-- The illegal words are exactly those of the four steps of R91, said on the number the word is. -/
def Obligations.IllegalWordsAreExactlyTheFourSteps : Prop :=
  ∀ w : Word, (∃ r, decode w = .error r) ↔
    (w.toNat / 2 ^ 24 ≠ 0
      ∨ w.toNat % 256 ∉ [0x00, 0x01, 0x02, 0x03, 0x04, 0x05, 0x06, 0x07, 0x08, 0x0F]
      ∨ (w.toNat % 256 ∈ [0x00, 0x02, 0x03, 0x04, 0x05, 0x0F] ∧ w.toNat / 256 % 65536 ≠ 0)
      ∨ (w.toNat % 256 ∈ [0x06, 0x07] ∧ w.toNat / 256 % 65536 = 0))

/-- The match and mask columns of R95 select the commands, and the operand of those that take one is bits [23:8]; the
chunked ones need `ARG ≠ 0` beside (R91 step 4, R92). -/
def Obligations.MatchAndMaskSelectTheCommand : Prop :=
  ∀ w : Word,
    (decode w = .ok .nop ↔ w &&& 0xFFFFFFFF#32 = 0x00000000#32)
    ∧ (∀ n : BitVec 16, decode w = .ok (.setkey n) ↔
        w &&& 0xFF0000FF#32 = 0x00000001#32 ∧ n.toNat = w.toNat / 256 % 65536)
    ∧ (decode w = .ok .encblk ↔ w &&& 0xFFFFFFFF#32 = 0x00000002#32)
    ∧ (decode w = .ok .decblk ↔ w &&& 0xFFFFFFFF#32 = 0x00000003#32)
    ∧ (decode w = .ok .encbuf ↔ w &&& 0xFFFFFFFF#32 = 0x00000004#32)
    ∧ (decode w = .ok .decbuf ↔ w &&& 0xFFFFFFFF#32 = 0x00000005#32)
    ∧ (∀ t : BitVec 16, decode w = .ok (.encchk t) ↔
        w &&& 0xFF0000FF#32 = 0x00000006#32 ∧ t.toNat = w.toNat / 256 % 65536 ∧ t ≠ 0)
    ∧ (∀ t : BitVec 16, decode w = .ok (.decchk t) ↔
        w &&& 0xFF0000FF#32 = 0x00000007#32 ∧ t.toNat = w.toNat / 256 % 65536 ∧ t ≠ 0)
    ∧ (∀ m : BitVec 16, decode w = .ok (.permute m) ↔
        w &&& 0xFF0000FF#32 = 0x00000008#32 ∧ m.toNat = w.toNat / 256 % 65536)
    ∧ (decode w = .ok .clr ↔ w &&& 0xFFFFFFFF#32 = 0x0000000F#32)

/-- The command words the spec writes out decode to the commands they are written for (`INDEX.md`, V70, V71). -/
def Obligations.WrittenOutWordsDecode : Prop :=
  decode 0x00000000 = .ok .nop ∧ decode 0x00000801 = .ok (.setkey 8) ∧ decode 0x00002001 = .ok (.setkey 32)
    ∧ decode 0x00000002 = .ok .encblk ∧ decode 0x00000003 = .ok .decblk ∧ decode 0x00000004 = .ok .encbuf
    ∧ decode 0x00000005 = .ok .decbuf ∧ decode 0x00000306 = .ok (.encchk 3) ∧ decode 0x00FFFF07 = .ok (.decchk 65535)
    ∧ decode 0x00004008 = .ok (.permute 64) ∧ decode 0x0000000F = .ok .clr
    ∧ decode 0x01000000 = .error .reservedBits ∧ decode 0x00000009 = .error .unknownOpcode
    ∧ decode 0x00000102 = .error .unexpectedArg ∧ decode 0x00000006 = .error .zeroThreads

/-! ### The step and the host port (`20_memory.md`). The list of pending host events and the port's last answer, which these
statements mention, are the model's own record of the host (log 1). -/

/-- A write of a command word to `CMD` runs the command it decodes to, in one step; around it the step only takes the
event off the host's list and answers it (R25, R65, R74). The list and the answer are the model's (log 1). -/
def Obligations.StepRunsTheDecodedCommand : Prop :=
  ∀ (s : State) (w : Word) (i : Instr) (rest : List HostEvent),
    s.port.pending = .write 32 0x00014 w :: rest → decode w = .ok i →
    step s = exec i { s with port := ⟨rest, .ack⟩ }

/-- An illegal word reports `ILLEGAL_CMD` with the word and changes nothing else of the core (`60_exceptions.md` R318). That
the event leaves the list and is answered is the model's (log 1). -/
def Obligations.IllegalWordOnlyReports : Prop :=
  ∀ (s : State) (w : Word) (r : IllegalReason) (rest : List HostEvent),
    s.port.pending = .write 32 0x00014 w :: rest → decode w = .error r →
    step s = .next { s with port := ⟨rest, .ack⟩, done := false, err := true, errcode := 0x60, errinfo := w }

/-- A read of any mapped offset returns the register or memory word there, with the reserved bits of `CTRL`, `STATUS`,
`ERRCODE`, `IVLEN` and `DELTALEN` as 0, 0 for a write-only register, for a `DOUT` word the four bytes as gated by `OLEN`, and
changes no state of the core (R64, R67; `10_state.md` R21 to R28). The list of events and the answer are the model's
(log 1). -/
def Obligations.HostReadReturnsTheWord : Prop :=
  ∀ s : State,
    Reads s 0x00000 0x464E4301 ∧ Reads s 0x00004 (s.ctrl &&& 0x00000F77)
    ∧ Reads s 0x00008 (BitVec.ofNat 32 (s.done.toNat + 2 * s.err.toNat + 4 * s.keySet.toNat
        + 16 * cipherCode s.kcipher))
    ∧ Reads s 0x0000C (BitVec.ofNat 32 s.errcode.toNat) ∧ Reads s 0x00010 s.errinfo ∧ Reads s 0x00014 0
    ∧ Reads s 0x00018 s.dlen ∧ Reads s 0x0001C s.olen
    ∧ Reads s 0x00020 (BitVec.ofNat 32 s.ivlen.toNat) ∧ Reads s 0x00024 (BitVec.ofNat 32 s.deltalen.toNat)
    ∧ (∀ j : Fin 8, Reads s (0x00040 + 4 * j) 0)
    ∧ (∀ j : Fin 4, Reads s (0x00060 + 4 * j) (s.iv.get j)) ∧ (∀ j : Fin 4, Reads s (0x00070 + 4 * j) (s.delta.get j))
    ∧ (∀ j, j < 256 → Reads s (0x00400 + 4 * j) (s.wordAt (0x00400 + 4 * j)))
    ∧ (∀ j, j < 1024 → Reads s (0x10000 + 4 * j) (s.wordAt (0x10000 + 4 * j)))
    ∧ (∀ j, j < 1028 → Reads s (0x20000 + 4 * j) (wordOfBytes (s.doutByte (4 * j)) (s.doutByte (4 * j + 1))
        (s.doutByte (4 * j + 2)) (s.doutByte (4 * j + 3))))

/-- A read of a `DOUT` word returns each stored byte whose index is below `OLEN` and `0x00` for the others, byte 0 in the
most significant place (R62, R67). The list of events and the answer are the model's (log 1). -/
def Obligations.DoutReadIsGatedByOlen : Prop :=
  ∀ (s : State) (j : Nat), j < 1028 →
    ∃ w : Word, Reads s (0x20000 + 4 * j) w ∧ ∀ i, i < 4 →
      w.toNat / 2 ^ (24 - 8 * i) % 256
        = if 4 * j + i < s.olen.toNat then (s.byteAt (0x20000 + (4 * j + i))).toNat else 0

/-- An access is answered when it is 32 bits wide at a mapped multiple of 4; any other gets an error response and changes
no state of the core (R63, R68). That a bad access is answered and not refused is the model's choice between the two R68
allows (log 3); the list of events and the acknowledgement of a write are the model's (log 1). -/
def Obligations.AccessAnsweredExactlyWhenMapped : Prop :=
  ∀ (s : State) (bits a : Nat) (rest : List HostEvent),
    (s.port.pending = .read bits a :: rest →
      (¬(bits = 32 ∧ MappedOffset a) → step s = .next { s with port := ⟨rest, .busError⟩ })
      ∧ (bits = 32 ∧ MappedOffset a → ∃ w, step s = .next { s with port := ⟨rest, .data w⟩ }))
    ∧ ∀ w : Word, s.port.pending = .write bits a w :: rest →
      (¬(bits = 32 ∧ MappedOffset a) → step s = .next { s with port := ⟨rest, .busError⟩ })
      ∧ (bits = 32 ∧ MappedOffset a → ∃ t, step s = .next t ∧ t.port = ⟨rest, .ack⟩)

/-- What is read back after a write: for `CTRL` the bits [2:0], [6:4], [11:8], for `IVLEN` and `DELTALEN` the bits [4:0],
for `DLEN`, `IV`, `DELTA`, `TBL` and `DIN` words the whole word (`10_state.md` R22, R26, R27; R64, R65). The list of
events and the answers are the model's (log 1). -/
def Obligations.WriteThenReadReturnsStoredBits : Prop :=
  ∀ (s : State) (a : Nat) (w : Word) (rest : List HostEvent),
    s.port.pending = .write 32 a w :: .read 32 a :: rest →
    ∀ v : Word,
      ((a = 0x00004 ∧ v = w &&& 0x00000F77) ∨ (a = 0x00018 ∧ v = w)
        ∨ ((a = 0x00020 ∨ a = 0x00024) ∧ v = w &&& 0x0000001F)
        ∨ (a % 4 = 0 ∧ v = w ∧ ((0x00060 ≤ a ∧ a ≤ 0x0007C) ∨ (0x00400 ≤ a ∧ a ≤ 0x007FC)
            ∨ (0x10000 ≤ a ∧ a ≤ 0x10FFC)))) →
      ∃ t, step s = .next t ∧ step t = .next { t with port := ⟨rest, .data v⟩ }

/-- A host write changes only what it addresses: a read-only register or a `DOUT` word nothing, a register that register, a
memory word its four bytes, most significant first (R62, R65). The list of events and the answer are the model's (log 1). -/
def Obligations.HostWriteChangesOnlyItsWord : Prop :=
  ∀ (s : State) (w : Word),
    (∀ a, (a = 0x00000 ∨ a = 0x00008 ∨ a = 0x0000C ∨ a = 0x00010 ∨ a = 0x0001C
        ∨ (a % 4 = 0 ∧ 0x20000 ≤ a ∧ a ≤ 0x2100C)) → Writes s a w fun r => { s with port := ⟨r, .ack⟩ })
    ∧ Writes s 0x00004 w (fun r => { s with port := ⟨r, .ack⟩, ctrl := w &&& 0x00000F77 })
    ∧ Writes s 0x00018 w (fun r => { s with port := ⟨r, .ack⟩, dlen := w })
    ∧ Writes s 0x00020 w (fun r => { s with port := ⟨r, .ack⟩, ivlen := BitVec.ofNat 5 w.toNat })
    ∧ Writes s 0x00024 w (fun r => { s with port := ⟨r, .ack⟩, deltalen := BitVec.ofNat 5 w.toNat })
    ∧ (∀ a, a % 4 = 0 → ((0x00400 ≤ a ∧ a ≤ 0x007FC) ∨ (0x10000 ≤ a ∧ a ≤ 0x10FFC)) →
        ∃ m, Writes s a w (fun r => { s with port := ⟨r, .ack⟩, mem := m })
          ∧ KeepsMemoryOutside s { s with mem := m } a 4
          ∧ ∀ i, i < 4 → ({ s with mem := m } : State).byteAt (a + i)
              = BitVec.ofNat 8 (w.toNat / 2 ^ (24 - 8 * i)))

/-- The words of `KEY`, `IV` and `DELTA` are packed big-endian: after a write of word `j`, byte `i` of the sequence is byte
`i mod 4` of the word, most significant first, when `i div 4 = j`, and unchanged otherwise (`10_state.md` R28; R62). The list
of events and the answer are the model's (log 1). -/
def Obligations.ByteRegistersPackBigEndian : Prop :=
  ∀ (s : State) (w : Word),
    (∀ j : Fin 8, ∃ k, Writes s (0x00040 + 4 * j) w (fun r => { s with port := ⟨r, .ack⟩, key := k })
      ∧ k.bytes.length = 32 ∧ ∀ i, i < 32 → (k.bytes.getD i 0).toNat
          = if i / 4 = j then w.toNat / 2 ^ (24 - 8 * (i % 4)) % 256 else (s.key.bytes.getD i 0).toNat)
    ∧ (∀ j : Fin 4, ∃ k, Writes s (0x00060 + 4 * j) w (fun r => { s with port := ⟨r, .ack⟩, iv := k })
      ∧ k.bytes.length = 16 ∧ ∀ i, i < 16 → (k.bytes.getD i 0).toNat
          = if i / 4 = j then w.toNat / 2 ^ (24 - 8 * (i % 4)) % 256 else (s.iv.bytes.getD i 0).toNat)
    ∧ (∀ j : Fin 4, ∃ k, Writes s (0x00070 + 4 * j) w (fun r => { s with port := ⟨r, .ack⟩, delta := k })
      ∧ k.bytes.length = 16 ∧ ∀ i, i < 16 → (k.bytes.getD i 0).toNat
          = if i / 4 = j then w.toNat / 2 ^ (24 - 8 * (i % 4)) % 256 else (s.delta.bytes.getD i 0).toNat)

/-- After the reset signal every register has its reset value, `ID` reads its constant, no key is installed, the cache is
empty, and every byte of `DOUT` reads 0, whatever the state was (`10_state.md` R36, `70_reset_and_hazards.md` R340). Nothing
is said of the contents of `TBL` and `DIN`, which are unspecified; that the host's further events survive is the model's
choice (logs 1, 14). -/
def Obligations.ResetSignalGivesResetState : Prop :=
  ∀ (s : State) (rest : List HostEvent), s.port.pending = .reset :: rest →
    ∃ t, step s = .next t ∧ t.ctrl = 0 ∧ statusWord t = 0 ∧ t.errcode = 0 ∧ t.errinfo = 0 ∧ t.dlen = 0 ∧ t.olen = 0
      ∧ t.ivlen = 0 ∧ t.deltalen = 0 ∧ (∀ k, t.key.bytes.getD k 0 = 0) ∧ (∀ k, t.iv.bytes.getD k 0 = 0)
      ∧ (∀ k, t.delta.bytes.getD k 0 = 0) ∧ t.rkEnc = none ∧ t.cache = [] ∧ (∀ k, t.doutByte k = 0)
      ∧ Reads t 0x00000 0x464E4301 ∧ t.port.pending = rest

/-! ### The ends of a command (`60_exceptions.md`) -/

/-- Every command runs to its end from every state and reports it: `CLR` leaves `DONE` and `ERR` 0, any other command
sets exactly one of them, and the code is 0 or one of the table's (`10_state.md` R23, R24; R301, R320, R321). -/
def Obligations.EveryCommandEndsWithOneReport : Prop :=
  ∀ (i : Instr) (s : State), ∃ t, exec i s = .next t
    ∧ (i = .clr → t.done = false ∧ t.err = false)
    ∧ (i ≠ .clr → t.done = !t.err)
    ∧ (t.err = false → t.errcode = 0 ∧ t.errinfo = 0)
    ∧ (t.err = true → t.errcode ∈ errorCodes)

/-- A command that fails reports the failure and has no partial effect: a data command also sets `OLEN` to 0, so that all of
`DOUT` reads 0, and a `SETKEY` leaves no key; everything else but the unobservable cache is as it was, and no draw is made
(R320, `20_memory.md` R67). The other two commands never fail. -/
def Obligations.FailedCommandsHaveNoPartialEffect : Prop :=
  ∀ (i : Instr) (s t : State), exec i s = .next t → t.err = true →
    t.done = false
    ∧ (isDataCommand i = true → (∀ k, t.doutByte k = 0)
        ∧ ∃ c, t = { s with
            done := false, err := true, errcode := t.errcode, errinfo := t.errinfo, olen := 0, cache := c })
    ∧ (∀ n, i = .setkey n → ∃ c, t = { s with
        done := false, err := true, errcode := t.errcode, errinfo := t.errinfo, keySet := false, kcipher := .base,
        rkEnc := none, cache := c })
    ∧ i ≠ .nop ∧ i ≠ .clr

/-- Only `SETKEY` and `CLR` change the key store, `KEY_SET` or `KCIPHER` (`10_state.md` R30, `44_block_ciphers.md`
R210). -/
def Obligations.OnlySetkeyAndClrChangeTheKey : Prop :=
  ∀ (i : Instr) (s t : State), (∀ n, i ≠ .setkey n) → i ≠ .clr → exec i s = .next t → KeepsKeyStore s t

/-- No command but `CLR` writes `CTRL`, `DLEN`, `IVLEN`, `DELTALEN`, `KEY`, `IV` or `DELTA`, and no command writes `TBL` or
`DIN` (`10_state.md` R22, R26 to R28; `20_memory.md` R66). -/
def Obligations.CommandsLeaveTheHostsRegisters : Prop :=
  ∀ (i : Instr) (s t : State), exec i s = .next t →
    (i ≠ .clr → KeepsHostRegisters s t) ∧ (∀ a, a < 0x20000 → t.byteAt a = s.byteAt a)

/-- The frame of the data commands: the host's registers, the key store and the port are unchanged, and so is every byte
of memory outside `DOUT[0 .. OLEN)` of the state after (`20_memory.md` R66, R72; R320). Of the bytes of `DOUT` at or above
`OLEN`, which nothing can see and U12 leaves at any value, that they keep theirs is the model's choice (log 12). -/
def Obligations.DataCommandWritesOnlyItsOutput : Prop :=
  ∀ (i : Instr) (s t : State), isDataCommand i = true → exec i s = .next t →
    KeepsHostRegisters s t ∧ KeepsKeyStore s t ∧ KeepsPort s t ∧ KeepsMemoryOutside s t 0x20000 t.olen.toNat

/-- An encrypting mode command that ends well with `ISO_10126` makes exactly `p - 1` draws, `p` the bytes of padding
added; nothing else draws (`45_mode_engine.md` R225). The counter of draws is the model's (log 5). -/
def Obligations.OnlyIsoPaddingDraws : Prop :=
  ∀ (i : Instr) (s t : State), exec i s = .next t →
    t.drawIndex = s.drawIndex
      + if (i = .encbuf ∨ ∃ n, i = .encchk n) ∧ t.err = false ∧ padField s = padCode .iso10126
        then blockSize s.kcipher - s.dlen.toNat % blockSize s.kcipher - 1 else 0

/-! ### Housekeeping (`47_housekeeping.md`) -/

/-- `NOP` ends without error and changes nothing else (R280). -/
def Obligations.NopOnlyReports : Prop :=
  ∀ s : State, exec .nop s = .next { s with done := true, err := false, errcode := 0, errinfo := 0 }

/-- `CLR` returns every register and the key store to the reset value and leaves the memories and the environment; of the
cache, which it may empty, nothing is said (R281). -/
def Obligations.ClrReturnsRegistersToReset : Prop :=
  ∀ s : State, ∃ c, exec .clr s = .next
    { State.reset with
      mem := s.mem, cache := c, port := s.port, drawIndex := s.drawIndex, resetCount := s.resetCount }

/-! ### Keys and blocks (`44_block_ciphers.md`) -/

/-- `SETKEY 8` with `CTRL.CIPHER = BASE` installs the round keys of the key: normalized first, and then whatever its parity,
when `CTRL.KEYADJ` is set, as it stands when every byte is of right parity otherwise. It changes nothing else but the report
(R201, R202; `10_state.md` R22). What the round keys are is `BaseRoundAndScheduleFollowTheTables`. -/
def Obligations.SetkeyInstallsBaseKey : Prop :=
  ∀ s : State, cipherField s = cipherCode .base →
    (keyadjField s = 1 ∨ ∀ b ∈ s.keyBytes 8, adjustParityByte b = b) →
    ∃ c, exec (.setkey 8) s = .next
      { s with
        keySet := true, kcipher := .base, cache := c,
        rkEnc := some (baseRoundKeys (if keyadjField s = 1 then adjustParity (s.keyBytes 8) else s.keyBytes 8)),
        done := true, err := false, errcode := 0, errinfo := 0 }

/-- `SETKEY n` with a composite variant and its key length installs the variant's round keys, by its number of parts and
rounds, under the build's schedule constant, checks no parity, and changes nothing else but the report (R200, R201;
`10_state.md` R22). What the round keys are is `CompositeScheduleRecurrence`. -/
def Obligations.SetkeyInstallsCompositeKey : Prop :=
  ∀ (s : State) (v : Variant) (n : BitVec 16) (S R : Nat), cipherField s = cipherCode v →
    ((v = .comp2 ∧ n = 16 ∧ S = 2 ∧ R = 6) ∨ (v = .comp3 ∧ n = 24 ∧ S = 3 ∧ R = 6)
      ∨ (v = .comp4 ∧ n = 32 ∧ S = 4 ∧ R = 8)) →
    ∃ c, exec (.setkey n) s = .next
      { s with
        keySet := true, kcipher := v, cache := c,
        rkEnc := some (compRoundKeys Config.compKsConstByte (s.keyBytes n.toNat) S R),
        done := true, err := false, errcode := 0, errinfo := 0 }

/-- A `SETKEY` that fails leaves no key installed: a wrong length reports `SIZE_KEY(n)`, a base key with a wrong parity bit
and `KEYADJ = 0` reports `PARITY` with the index of its first wrong byte; nothing else changes (R201, R310, R320). -/
def Obligations.FailedSetkeyRemovesTheKey : Prop :=
  ∀ (s : State) (n : BitVec 16),
    (((cipherField s = cipherCode .base ∧ n ≠ 8) ∨ (cipherField s = cipherCode .comp2 ∧ n ≠ 16)
        ∨ (cipherField s = cipherCode .comp3 ∧ n ≠ 24) ∨ (cipherField s = cipherCode .comp4 ∧ n ≠ 32)) →
      ∃ c, exec (.setkey n) s = .next
        { s with
          keySet := false, kcipher := .base, rkEnc := none, cache := c,
          done := false, err := true, errcode := 0x10, errinfo := BitVec.ofNat 32 n.toNat })
    ∧ (∀ i, cipherField s = cipherCode .base → n = 8 → keyadjField s = 0 → i < 8 →
        (∀ j, j < i → adjustParityByte ((s.keyBytes 8).getD j 0) = (s.keyBytes 8).getD j 0) →
        adjustParityByte ((s.keyBytes 8).getD i 0) ≠ (s.keyBytes 8).getD i 0 →
      ∃ c, exec (.setkey n) s = .next
        { s with
          keySet := false, kcipher := .base, rkEnc := none, cache := c,
          done := false, err := true, errcode := 0x20, errinfo := BitVec.ofNat 32 i })

/-- With a key installed and `DLEN` the block size, `ENCBLK` and `DECBLK` end without error with `E` and `D` of the
installed cipher of `DIN[0 .. BS)` in `DOUT` (R205, R206, R207). -/
def Obligations.BlockCommandsGiveEAndD : Prop :=
  ∀ (s : State) (v : Variant) (rks : List Bytes), KeyInstalled s v rks → s.dlen.toNat = blockSize v →
    (∃ t, exec .encblk s = .next t ∧ EndedWell t ∧ t.olen.toNat = blockSize v
      ∧ t.output = encBlock v rks (s.din (blockSize v)))
    ∧ (∃ t, exec .decblk s = .next t ∧ EndedWell t ∧ t.olen.toNat = blockSize v
      ∧ t.output = decBlock v rks (s.din (blockSize v)))

/-- `ENCBLK` and `DECBLK` fail with `STATE_NOKEY` without a key, whatever `DLEN` holds, and with `SIZE_BLOCK(DLEN)` when
`DLEN` is not the block size; the output is then empty (R205, R206, R310). -/
def Obligations.BlockCommandErrorsInOrder : Prop :=
  ∀ (s : State) (i : Instr), i = .encblk ∨ i = .decblk →
    (s.keySet = false → ∃ t, exec i s = .next t ∧ EndedWith t 0x40 0 ∧ t.olen = 0)
    ∧ (∀ v rks, KeyInstalled s v rks → s.dlen.toNat ≠ blockSize v →
        ∃ t, exec i s = .next t ∧ EndedWith t 0x11 s.dlen ∧ t.olen = 0)

/-! ### Mode commands (`45_mode_engine.md`, `46_chunked_and_parallel.md`) -/

/-- When the checks pass, `ENCBUF` ends without error with the mode's encryption of the padded input in `DOUT`; `OLEN` is
`DLEN` rounded up to a block for `ZEROS` and up to the next block for the others (R240). -/
def Obligations.EncbufEncryptsThePaddedInput : Prop :=
  ∀ (s : State) (v : Variant) (rks : List Bytes) (m : Mode) (pd : Padding), ModeReady s v rks m pd →
    ∃ t, exec .encbuf s = .next t ∧ EndedWell t
      ∧ t.output = modeEnc (encBlock v rks) (blockSize v) m (s.ivBlock (blockSize v)) (s.deltaBlock (blockSize v))
          (pad s.draw (blockSize v) pd (s.din s.dlen.toNat))
      ∧ t.olen.toNat = (if pd = .zeros then (s.dlen.toNat + blockSize v - 1) / blockSize v
          else s.dlen.toNat / blockSize v + 1) * blockSize v

/-- When the checks pass, the input is a whole number of blocks and its decryption unpads, `DECBUF` ends without error with
the unpadded decryption in `DOUT` (R241). -/
def Obligations.DecbufDecryptsAndUnpads : Prop :=
  ∀ (s : State) (v : Variant) (rks : List Bytes) (m : Mode) (pd : Padding) (z : Bytes), ModeReady s v rks m pd →
    s.dlen.toNat % blockSize v = 0 →
    unpad (blockSize v) pd (modeDec (encBlock v rks) (decBlock v rks) (blockSize v) m
      (s.ivBlock (blockSize v)) (s.deltaBlock (blockSize v)) (s.din s.dlen.toNat)) = .ok z →
    ∃ t, exec .decbuf s = .next t ∧ EndedWell t ∧ t.output = z ∧ t.olen.toNat = z.length

/-- In the default build the chunked commands end as the buffer commands do for every thread count, and so complete where
those complete, with the same output (R264, R265). That the build has `LEGACY_CHUNK_RESTART` false is the spec's default
(log 8); that the count 0, which no word carries, behaves alike is the model's (log 16). -/
def Obligations.ChunkedCommandsEqualBufferCommands : Prop :=
  ∀ (s : State) (n : BitVec 16),
    exec (.encchk n) s = exec .encbuf s ∧ exec (.decchk n) s = exec .decbuf s
    ∧ (∀ (v : Variant) (rks : List Bytes) (m : Mode) (pd : Padding), ModeReady s v rks m pd →
        ∃ t, exec (.encchk n) s = .next t ∧ EndedWell t
          ∧ t.output = modeEnc (encBlock v rks) (blockSize v) m (s.ivBlock (blockSize v)) (s.deltaBlock (blockSize v))
              (pad s.draw (blockSize v) pd (s.din s.dlen.toNat)))
    ∧ (∀ (v : Variant) (rks : List Bytes) (m : Mode) (pd : Padding) (z : Bytes), ModeReady s v rks m pd →
        s.dlen.toNat % blockSize v = 0 →
        unpad (blockSize v) pd (modeDec (encBlock v rks) (decBlock v rks) (blockSize v) m
          (s.ivBlock (blockSize v)) (s.deltaBlock (blockSize v)) (s.din s.dlen.toNat)) = .ok z →
        ∃ t, exec (.decchk n) s = .next t ∧ EndedWell t ∧ t.output = z)

/-- The four mode commands make their five checks in order and report the first that fails (R239, R310; `60_exceptions.md`
R315, R316). -/
def Obligations.ModeChecksFailInOrder : Prop :=
  ∀ (i : Instr) (s : State), isModeCommand i = true →
    (s.keySet = false → ∃ t, exec i s = .next t ∧ EndedWith t 0x40 0 ∧ t.olen = 0)
    ∧ ∀ v rks, KeyInstalled s v rks →
      (modeField s = 7 → ∃ t, exec i s = .next t ∧ EndedWith t 0x41 7 ∧ t.olen = 0)
      ∧ (modeField s ≠ 7 → 4096 < s.dlen.toNat → ∃ t, exec i s = .next t ∧ EndedWith t 0x15 s.dlen ∧ t.olen = 0)
      ∧ (modeField s ≠ 7 → s.dlen.toNat ≤ 4096 → modeField s ≠ modeCode .ecb → s.ivlen.toNat ≠ blockSize v →
          ∃ t, exec i s = .next t ∧ EndedWith t 0x12 (BitVec.ofNat 32 s.ivlen.toNat) ∧ t.olen = 0)
      ∧ (modeField s = modeCode .randomDelta → s.dlen.toNat ≤ 4096 → s.ivlen.toNat = blockSize v → s.deltalen.toNat ≠ blockSize v →
          ∃ t, exec i s = .next t ∧ EndedWith t 0x13 (BitVec.ofNat 32 s.deltalen.toNat) ∧ t.olen = 0)

/-- After the five checks the decrypting commands fail with `SIZE_BUF(DLEN)` on a partial block, and with `RANGE_PAD` and
the last decrypted byte on a bad length byte, 0 for empty data (R226, R241; `60_exceptions.md` R317). -/
def Obligations.DecryptingErrorsInOrder : Prop :=
  ∀ (i : Instr) (s : State) (v : Variant) (rks : List Bytes) (m : Mode) (pd : Padding),
    i = .decbuf ∨ (∃ n, i = .decchk n) → ModeReady s v rks m pd →
    (s.dlen.toNat % blockSize v ≠ 0 → ∃ t, exec i s = .next t ∧ EndedWith t 0x15 s.dlen ∧ t.olen = 0)
    ∧ (pd ≠ .zeros → s.dlen = 0 → ∃ t, exec i s = .next t ∧ EndedWith t 0x31 0 ∧ t.olen = 0)
    ∧ ∀ y p, pd ≠ .zeros → s.dlen.toNat % blockSize v = 0 → s.dlen.toNat ≠ 0 →
        y = modeDec (encBlock v rks) (decBlock v rks) (blockSize v) m (s.ivBlock (blockSize v))
          (s.deltaBlock (blockSize v)) (s.din s.dlen.toNat) →
        p = y.getD (y.length - 1) 0 → (p = 0 ∨ blockSize v < p.toNat ∨ y.length < p.toNat) →
        ∃ t, exec i s = .next t ∧ EndedWith t 0x31 (BitVec.ofNat 32 p.toNat) ∧ t.olen = 0

/-! ### The permutation unit (`40_bit_permutation.md`) -/

/-- When its checks pass, `PERMUTE m` ends without error with `m / 8` output bytes whose bit `i` is input bit
`TBL[i] - PBASE`, both numbered by `PORDER`; it needs no key (R121, R127; `10_state.md` R22). -/
def Obligations.PermuteMovesTheSelectedBits : Prop :=
  ∀ (s : State) (m : BitVec 16) (o : BitOrder), porderField s = orderCode o →
    s.dlen.toNat ≠ 0 → m.toNat ≠ 0 → s.dlen.toNat ≤ 4096 → m.toNat ≤ 256 →
    m.toNat % 8 = 0 →
    (∀ i, i < m.toNat → pbaseField s ≤ s.tblEntry i ∧ s.tblEntry i - pbaseField s < 8 * s.dlen.toNat) →
    ∃ t, exec (.permute m) s = .next t ∧ EndedWell t ∧ t.olen.toNat = m.toNat / 8
      ∧ ∀ i, i < m.toNat →
        bitOf o t.output i = bitOf o (s.din s.dlen.toNat) (s.tblEntry i - pbaseField s)

/-- `PERMUTE m` makes its six checks in order and reports the first that fails; an entry is out of range by its resolved
index computed on integers, and the least such entry is named (R122, R127, R310). -/
def Obligations.PermuteErrorsInOrder : Prop :=
  ∀ (s : State) (m : BitVec 16),
    (s.dlen.toNat = 0 → ∃ t, exec (.permute m) s = .next t ∧ EndedWith t 0x16 0 ∧ t.olen = 0)
    ∧ (m = 0 → ∃ t, exec (.permute m) s = .next t ∧ EndedWith t 0x16 0 ∧ t.olen = 0)
    ∧ (s.dlen.toNat ≠ 0 → m ≠ 0 →
        (4096 < s.dlen.toNat → ∃ t, exec (.permute m) s = .next t ∧ EndedWith t 0x15 s.dlen ∧ t.olen = 0)
        ∧ (s.dlen.toNat ≤ 4096 → (256 < m.toNat ∨ m.toNat % 8 ≠ 0) →
            ∃ t, exec (.permute m) s = .next t ∧ EndedWith t 0x16 (BitVec.ofNat 32 m.toNat) ∧ t.olen = 0)
        ∧ (∀ i, s.dlen.toNat ≤ 4096 → m.toNat ≤ 256 → m.toNat % 8 = 0 → i < m.toNat →
            (∀ j, j < i → (0 : Int) ≤ s.tblEntry j - pbaseField s
              ∧ (s.tblEntry j : Int) - pbaseField s < 8 * s.dlen.toNat) →
            ((s.tblEntry i : Int) - pbaseField s < 0 ∨ (8 * s.dlen.toNat : Int) ≤ s.tblEntry i - pbaseField s) →
            ∃ t, exec (.permute m) s = .next t ∧ EndedWith t 0x30 (BitVec.ofNat 32 i) ∧ t.olen = 0))

/-- The contract of `Permute`: its failures in order, and otherwise `m / 8` bytes whose bit `i` is input bit
`T[i] - base` (R120, R121, R122). -/
def Obligations.PermuteContract : Prop :=
  ∀ (inp : Bytes) (T : List Nat) (o : BitOrder) (base : Nat),
    (inp.length = 0 ∨ T.length = 0 → permuteChecked inp T o base = .error (.sizePerm 0))
    ∧ (inp.length ≠ 0 → T.length ≠ 0 → T.length % 8 ≠ 0 → permuteChecked inp T o base = .error (.sizePerm T.length))
    ∧ (∀ i, inp.length ≠ 0 → T.length % 8 = 0 → i < T.length →
        (∀ j, j < i → (0 : Int) ≤ (T.getD j 0 : Int) - base ∧ (T.getD j 0 : Int) - base < 8 * inp.length) →
        ((T.getD i 0 : Int) - base < 0 ∨ (8 * inp.length : Int) ≤ (T.getD i 0 : Int) - base) →
        permuteChecked inp T o base = .error (.rangePerm i))
    ∧ (inp.length ≠ 0 → T.length ≠ 0 → T.length % 8 = 0 →
        (∀ j, j < T.length → (0 : Int) ≤ (T.getD j 0 : Int) - base ∧ (T.getD j 0 : Int) - base < 8 * inp.length) →
        ∃ out, permuteChecked inp T o base = .ok out ∧ out.length = T.length / 8
          ∧ ∀ i, i < T.length → bitOf o out i = bitOf o inp (T.getD i 0 - base))

/-- `Permute` distributes over exclusive or, and inverse 1-based permutation tables undo each other (R123 (c), (d),
an inference the spec draws from R121). -/
def Obligations.PermuteLaws : Prop :=
  (∀ (a b : Bytes) (T : List Nat) (o : BitOrder) (base : Nat), a.length = b.length →
    permute (xorBytes a b) T o base = xorBytes (permute a T o base) (permute b T o base))
  ∧ (∀ (x : Bytes) (T U : List Nat) (o : BitOrder), T.length = 8 * x.length → U.length = 8 * x.length →
    (∀ i, i < 8 * x.length → 1 ≤ U.getD i 0 ∧ U.getD i 0 ≤ 8 * x.length ∧ T.getD (U.getD i 0 - 1) 0 = i + 1) →
    permute (permute x T o 1) U o 1 = x)

/-! ### The base cipher (`41_base_cipher_round_and_schedule.md`) -/

/-- The tables as transcribed: lengths, the check sums of R149 (which the spec marks as derived), `FP` the inverse of `IP`
(R142), no multiple of 8 in `PC1` (R145), every row of every box a permutation of 0 to 15 (R148). -/
def Obligations.FixedTablesAsSpecified : Prop :=
  tables.ip.length = 64 ∧ tables.fp.length = 64 ∧ tables.e.length = 48 ∧ tables.p.length = 32
    ∧ tables.pc1.length = 56 ∧ tables.pc2.length = 48 ∧ tables.rot.length = 16
    ∧ tables.ip.sum = 2080 ∧ tables.fp.sum = 2080 ∧ tables.e.sum = 792 ∧ tables.p.sum = 528 ∧ tables.pc1.sum = 1792
    ∧ tables.pc2.sum = 1352 ∧ tables.rot.sum = 28 ∧ (∀ b ∈ tables.sbox, b.flatten.sum = 480)
    ∧ (∀ i, i < 64 → tables.fp.getD (tables.ip.getD i 0 - 1) 0 = i + 1) ∧ (∀ e ∈ tables.pc1, e % 8 ≠ 0)
    ∧ tables.sbox.length = 8
    ∧ (∀ b ∈ tables.sbox, b.length = 4 ∧ ∀ r ∈ b, r.length = 16 ∧ ∀ v, v < 16 → v ∈ r)

/-- `AdjustParityByte` keeps the seven high bits and makes the number of set bits odd; a byte passes the parity check
exactly when adjusting leaves it; the schedule constant's low bit does not matter (R150, R151; R171). -/
def Obligations.ParityAdjustmentMakesBytesOdd : Prop :=
  ∀ b : Byte, (adjustParityByte b) >>> 1 = b >>> 1 ∧ popcount (adjustParityByte b) % 2 = 1
    ∧ (parityOkByte b = true ↔ adjustParityByte b = b) ∧ schedKey b = schedKey (b ^^^ 1)

/-- What the base cipher is built from, bit by bit. The round: bit `i` of the result is bit `P[i]` of the eight 4-bit S-box
values, where group `j` of the expanded half-block xor the round key selects the row by its outer two bits and the column by
its inner four (R152). The schedule: a wrong length, then the first byte of wrong parity fails; otherwise bit `j` of round
key `i` is the key bit that `PC1` selects at the place that has come to `PC2[j]` after both halves were rotated left by
`ROT[0] + … + ROT[i]` (R154). So the round keys do not depend on the parity bits (R155 (a), an inference the spec draws from
R145 and R154). The tables and the order of bits in groups and halves are the spec's from general knowledge (log 15). -/
def Obligations.BaseRoundAndScheduleFollowTheTables : Prop :=
  (∀ half rk : Bytes,
    (half.length ≠ 4 ∨ rk.length ≠ 6 → baseRoundChecked half rk = .error (.sizeHalf half.length))
    ∧ (half.length = 4 → rk.length = 6 →
        baseRoundChecked half rk = .ok (baseRound half rk) ∧ (baseRound half rk).length = 4
        ∧ ∀ i, i < 32 → bitOf .msbFirst (baseRound half rk) i
            = (groupValue half rk ((tables.p.getD i 0 - 1) / 4)).testBit (3 - (tables.p.getD i 0 - 1) % 4)))
  ∧ (∀ key : Bytes,
    (key.length ≠ 8 → baseExpand key = .error (.sizeKey key.length))
    ∧ (∀ i, key.length = 8 → i < 8 → (∀ j, j < i → adjustParityByte (key.getD j 0) = key.getD j 0) →
        adjustParityByte (key.getD i 0) ≠ key.getD i 0 → baseExpand key = .error (.parity i))
    ∧ (key.length = 8 → (∀ b ∈ key, adjustParityByte b = b) → baseExpand key = .ok (baseRoundKeys key))
    ∧ (key.length = 8 → (baseRoundKeys key).length = 16
        ∧ ∀ i, i < 16 → ((baseRoundKeys key).getD i []).length = 6
          ∧ ∀ j, j < 48 → bitOf .msbFirst ((baseRoundKeys key).getD i []) j
              = bitOf .msbFirst key
                  (tables.pc1.getD (rotatedFrom (tables.rot.take (i + 1)).sum (tables.pc2.getD j 0 - 1)) 0 - 1)))
  ∧ (∀ k k' : Bytes, k.length = 8 → k'.length = 8 → adjustParity k = adjustParity k' →
      baseRoundKeys k = baseRoundKeys k')

/-- The known answer, both ways (`44_block_ciphers.md` R209; the blocks are the spec's from general knowledge). -/
def Obligations.BaseCipherKnownAnswer : Prop :=
  encBlock .base (baseRoundKeys [0x13, 0x34, 0x57, 0x79, 0x9B, 0xBC, 0xDF, 0xF1])
      [0x01, 0x23, 0x45, 0x67, 0x89, 0xAB, 0xCD, 0xEF] = [0x85, 0xE8, 0x13, 0x54, 0x0F, 0x0A, 0xB4, 0x05]
  ∧ decBlock .base (baseRoundKeys [0x13, 0x34, 0x57, 0x79, 0x9B, 0xBC, 0xDF, 0xF1])
      [0x85, 0xE8, 0x13, 0x54, 0x0F, 0x0A, 0xB4, 0x05] = [0x01, 0x23, 0x45, 0x67, 0x89, 0xAB, 0xCD, 0xEF]

/-! ### The composite cipher (`42_composite_schedule_and_adapter.md`) -/

/-- The composite key schedule is the recurrence of R172, R173: round key 0 encrypts part 0, the next `S - 1` chain the
other parts, the rest chain part `i mod S` and the constant `2^(i-S)`; there are exactly `R` of them. A key of another length
fails with `SIZE_KEY`. The schedule encrypts with the base cipher under the round keys of the adjusted repeated constant
(R171). -/
def Obligations.CompositeScheduleRecurrence : Prop :=
  ∀ (c : Byte) (key : Bytes) (S R : Nat), (S = 2 ∧ R = 6) ∨ (S = 3 ∧ R = 6) ∨ (S = 4 ∧ R = 8) →
    (key.length ≠ 8 * S → compExpand c key S R = .error (.sizeKey key.length))
    ∧ (key.length = 8 * S → ∃ sk rk, baseExpand (adjustParity (List.replicate 8 c)) = .ok sk
      ∧ compExpand c key S R = .ok rk ∧ rk = compRoundKeys c key S R ∧ rk.length = R
      ∧ rk.getD 0 [] = encBlock .base sk (slice key 0 8)
      ∧ (∀ i, 0 < i → i < S → rk.getD i [] = encBlock .base sk (xorBytes (slice key (8 * i) (8 * i + 8)) (rk.getD (i - 1) [])))
      ∧ (∀ i, S ≤ i → i < R → rk.getD i [] = encBlock .base sk (xorBytes (xorBytes
          (slice key (8 * (i % S)) (8 * (i % S) + 8)) (rk.getD (i - 1) []))
          [0, 0, 0, 0, 0, 0, 0, BitVec.ofNat 8 (2 ^ (i - S))])))

/-- Distinct master keys of one length give distinct round-key sequences, so that changing any one byte of the master key
changes some round key; and two master keys with equal first two parts give equal first two round keys, also when their
variants differ (R175 (c), (d), an inference the spec draws from R172). -/
def Obligations.CompositeRoundKeysDetermineTheMasterKey : Prop :=
  (∀ (c : Byte) (key key' : Bytes) (S R : Nat), (S = 2 ∧ R = 6) ∨ (S = 3 ∧ R = 6) ∨ (S = 4 ∧ R = 8) →
    key.length = 8 * S → key'.length = 8 * S → key ≠ key' → compRoundKeys c key S R ≠ compRoundKeys c key' S R)
  ∧ (∀ (c : Byte) (key key' : Bytes) (v v' : Variant), v ≠ .base → v' ≠ .base → key.take 16 = key'.take 16 →
    (compRoundKeys c key (keyParts v) (roundCount v)).take 2
      = (compRoundKeys c key' (keyParts v') (roundCount v')).take 2)

/-- `Lookup` returns `BaseExpand` of the key on a hit and on a miss, so that the adapter through the cache is the adapter
without it, and it keeps the cache exact (R177, R178; R179 is an inference the spec draws from R177). Which entry is dropped
is the model's choice (log 9). -/
def Obligations.CacheLookupEqualsExpansion : Prop :=
  ∀ (p : Params) (cache : List CacheEntry) (half rk : Bytes), p.Legal → CacheOk p cache → rk.length = 8 →
    (cacheLookup p.cacheEntries cache (adjustParity rk)).1 = baseRoundKeys (adjustParity rk)
    ∧ CacheOk p (cacheLookup p.cacheEntries cache (adjustParity rk)).2
    ∧ (compRoundCached p.cacheEntries cache half rk).1 = compRound half rk
    ∧ baseExpand (adjustParity rk) = .ok (baseRoundKeys (adjustParity rk))

/-- Nothing but the cache depends on the cache: a step from a state with any other cache gives the same state but for the
cache (R179, an inference the spec draws from R177). -/
def Obligations.CacheIsNotObservable : Prop :=
  ∀ (s t : State) (c : List CacheEntry), step s = .next t → ∃ c', step { s with cache := c } = .next { t with cache := c' }

/-! ### The engine and the round trips (`43_feistel_engine.md`, `44_block_ciphers.md`, `45_mode_engine.md`) -/

/-- The engine: `STATE_NOKEY` without round keys, else `STATE_RKCOUNT` with too few, else `SIZE_BLOCK` on a wrong length, else
the rounds `L_new = R_old`, `R_new = F(R_old, K_i) xor L_old` from the two halves of the block, and the final `R` followed by
the final `L`; only the first `N` round keys are used (R191). -/
def Obligations.FeistelFollowsItsRecurrence : Prop :=
  ∀ (F : Bytes → Bytes → Bytes) (rks : List Bytes) (N BS : Nat) (b : Bytes),
    let engine := fun keys => feistelChecked b keys N BS fun r k => .ok (F r k)
    engine none = .error .stateNokey
    ∧ (rks.length < N → engine (some rks) = .error (.stateRkcount rks.length))
    ∧ (N ≤ rks.length → b.length ≠ BS → engine (some rks) = .error (.sizeBlock (BitVec.ofNat 32 b.length)))
    ∧ (N ≤ rks.length → b.length = BS → ∃ L R : Nat → Bytes,
        L 0 = b.take (BS / 2) ∧ R 0 = b.drop (BS / 2)
        ∧ (∀ i, i < N → L (i + 1) = R i ∧ R (i + 1) = xorBytes (F (R i) (rks.getD i [])) (L i))
        ∧ engine (some rks) = .ok (R N ++ L N))

/-- The inverse law: for every round function on half-blocks, the engine with the round keys reversed undoes the engine
(R193, an inference the spec draws from R191). -/
def Obligations.FeistelWithReversedKeysInverts : Prop :=
  ∀ (F : Bytes → Bytes → Bytes) (h N : Nat) (rks : List Bytes) (b : Bytes),
    (∀ r k, r.length = h → (F r k).length = h) → rks.length = N → b.length = 2 * h →
    feistel (feistel b rks N (2 * h) F) rks.reverse N (2 * h) F = b

/-- Decryption undoes encryption and encryption undoes decryption, for every variant, round keys and block (R208, an
inference the spec draws from R203 and R204). -/
def Obligations.BlockDecryptionInvertsEncryption : Prop :=
  ∀ (v : Variant) (rks : List Bytes) (b : Bytes), rks.length = roundCount v → b.length = blockSize v →
    decBlock v rks (encBlock v rks b) = b ∧ encBlock v rks (decBlock v rks b) = b

/-- `E` and `D` of the four variants are the general engine with all its checks, which never fail in the core (R200, R203,
R204, R207; `43_feistel_engine.md` R190, R192; `60_exceptions.md` R305). For `BASE`: `IP`, the engine with 16 rounds on 8-byte
blocks, `FP`, with the round keys reversed for `D`. For the composite variants: the engine with 6, 6 and 8 rounds on 16-byte
blocks and no permutation, and the round function is the base cipher's encryption of the half-block under the round keys of
the adjusted composite round key (`42_composite_schedule_and_adapter.md` R176). That no check fails is an inference the spec
draws from R190. -/
def Obligations.EAndDAreTheCheckedEngine : Prop :=
  (blockSize .base = 8 ∧ roundCount .base = 16
    ∧ ∀ (rks : List Bytes) (b : Bytes), rks.length = 16 → (∀ k ∈ rks, k.length = 6) → b.length = 8 →
      ∃ x y, feistelChecked (permute b tables.ip .msbFirst 1) (some rks) 16 8 baseRoundChecked = .ok x
        ∧ feistelChecked (permute b tables.ip .msbFirst 1) (some rks.reverse) 16 8 baseRoundChecked = .ok y
        ∧ encBlock .base rks b = permute x tables.fp .msbFirst 1 ∧ decBlock .base rks b = permute y tables.fp .msbFirst 1)
  ∧ (∀ (v : Variant) (N : Nat), (v = .comp2 ∧ N = 6) ∨ (v = .comp3 ∧ N = 6) ∨ (v = .comp4 ∧ N = 8) →
    blockSize v = 16 ∧ roundCount v = N
    ∧ ∀ (rks : List Bytes) (b : Bytes), rks.length = N → (∀ k ∈ rks, k.length = 8) → b.length = 16 →
      feistelChecked b (some rks) N 16 compRoundChecked = .ok (encBlock v rks b)
      ∧ feistelChecked b (some rks.reverse) N 16 compRoundChecked = .ok (decBlock v rks b))
  ∧ (∀ half rk : Bytes,
    (half.length ≠ 8 ∨ rk.length ≠ 8 → compRoundChecked half rk = .error (.sizeHalf half.length))
    ∧ (half.length = 8 → rk.length = 8 → ∃ sk, baseExpand (adjustParity rk) = .ok sk
        ∧ compRoundChecked half rk = .ok (encBlock .base sk half)))

/-- The seven modes follow their step rules, encrypting and decrypting, as equations between the blocks (R231 to R237). -/
def Obligations.ModesFollowTheirStepRules : Prop :=
  ∀ (E D : Bytes → Bytes) (bs : Nat) (m : Mode) (iv del x : Bytes), 0 < bs →
    (∀ b, b.length = bs → (E b).length = bs) → (∀ b, b.length = bs → (D b).length = bs) →
    iv.length = bs → del.length = bs → x.length % bs = 0 →
    (modeEnc E bs m iv del x).length = x.length ∧ (modeDec E D bs m iv del x).length = x.length
    ∧ EncryptsBy E bs m iv del x (modeEnc E bs m iv del x) ∧ DecryptsBy E D bs m iv del x (modeDec E D bs m iv del x)

/-- `ModeDec(ModeEnc(x)) = x` for every mode and every whole number of blocks (R238, an inference the spec
draws from R231 to R237). -/
def Obligations.ModeDecryptionInvertsEncryption : Prop :=
  ∀ (v : Variant) (rks : List Bytes) (m : Mode) (iv del x : Bytes), rks.length = roundCount v →
    iv.length = blockSize v → del.length = blockSize v → x.length % blockSize v = 0 →
    modeDec (encBlock v rks) (decBlock v rks) (blockSize v) m iv del
      (modeEnc (encBlock v rks) (blockSize v) m iv del x) = x

/-- The counter block of index `i` is the big-endian `BS`-byte sequence of `Int(IVB) + i` modulo `2^(8·BS)` (R230). -/
def Obligations.CounterBlockIsTheWrappedSum : Prop :=
  ∀ (bs : Nat) (iv : Bytes) (i : Nat),
    (ctrBlock bs iv i).length = bs ∧ intOf (ctrBlock bs iv i) = (intOf iv + i) % 2 ^ (8 * bs)

/-- Removing padding: the length-byte schemes read the last byte only, `ZEROS` strips every trailing zero byte (R226,
R227). -/
def Obligations.UnpadReadsOnlyTheLastByte : Prop :=
  ∀ (bs : Nat) (d : Bytes),
    (∀ scheme, scheme ≠ .zeros →
      (d = [] → unpad bs scheme d = .error (.rangePad 0))
      ∧ ∀ e p, d = e ++ [p] →
        (p.toNat = 0 ∨ bs < p.toNat ∨ d.length < p.toNat → unpad bs scheme d = .error (.rangePad p))
        ∧ (0 < p.toNat → p.toNat ≤ bs → p.toNat ≤ d.length →
            unpad bs scheme d = .ok (d.take (d.length - p.toNat))))
    ∧ ∃ k, unpad bs .zeros d = .ok (d.take k) ∧ k ≤ d.length ∧ (∀ j, k ≤ j → d.getD j 0 = 0)
        ∧ (0 < k → d.getD (k - 1) 0 ≠ 0)

/-- What padding appends, with `r = len mod BS` and `p = BS - r`: zero bytes up to the boundary and none on aligned data;
`p` bytes equal to `p`; `p - 1` zero bytes and `p`; `p - 1` drawn bytes in order of position and `p` (R221 to R225). -/
def Obligations.PadAppendsWhatTheSchemeSays : Prop :=
  ∀ (draw : Nat → Byte) (bs : Nat) (d : Bytes), 0 < bs → bs < 256 →
    (d.length % bs = 0 → pad draw bs .zeros d = d)
    ∧ ∀ r p, r = d.length % bs → p = bs - r →
      (0 < r → ∃ e, pad draw bs .zeros d = d ++ e ∧ e.length = p ∧ ∀ k, k < p → e.getD k 1 = 0)
      ∧ (∃ e, pad draw bs .pkcs7 d = d ++ e ∧ e.length = p ∧ ∀ k, k < p → (e.getD k 0).toNat = p)
      ∧ (∃ e, pad draw bs .ansiX923 d = d ++ e ∧ e.length = p ∧ (e.getD (p - 1) 0).toNat = p
          ∧ ∀ k, k + 1 < p → e.getD k 1 = 0)
      ∧ (∃ e, pad draw bs .iso10126 d = d ++ e ∧ e.length = p ∧ (e.getD (p - 1) 0).toNat = p
          ∧ ∀ k, k + 1 < p → e.getD k 0 = draw k)

/-- Padding gives a whole number of blocks that begin with the data, and removing it gives the data back: always for the
three length-byte schemes, whatever the draws, and for `ZEROS` exactly when the data are empty or do not end in a zero byte
(R228, an inference the spec draws from R221 to R227). -/
def Obligations.UnpadInvertsPad : Prop :=
  ∀ (draw : Nat → Byte) (bs : Nat) (scheme : Padding) (d : Bytes), 0 < bs → bs < 256 →
    (pad draw bs scheme d).length % bs = 0 ∧ (pad draw bs scheme d).take d.length = d
    ∧ (scheme ≠ .zeros → unpad bs scheme (pad draw bs scheme d) = .ok d)
    ∧ (unpad bs .zeros (pad draw bs .zeros d) = .ok d ↔ d = [] ∨ d.getD (d.length - 1) 0 ≠ 0)

/-! ### Chunks (`46_chunked_and_parallel.md`) -/

/-- The chunks of `N` bytes are contiguous, cover them, and are `ChunkSize` bytes each except a last one that holds what
remains; the chunk size is a multiple of the block size, at least one block (R262). -/
def Obligations.ChunksCutTheBufferInOrder : Prop :=
  ∀ (N T bs : Nat), 0 < bs → 0 < T → N % bs = 0 →
    chunkSize N T bs = max bs ((N / T) / bs * bs) ∧ chunkSize N T bs % bs = 0
    ∧ (∀ k ab, (chunks N T bs)[k]? = some ab →
        ab.1 = k * chunkSize N T bs ∧ ab.1 < N ∧ ab.2 = min ((k + 1) * chunkSize N T bs) N)
    ∧ (∀ k, k * chunkSize N T bs < N → k < (chunks N T bs).length)
    ∧ ((chunks N T bs).map fun ab => ab.2 - ab.1).sum = N

/-- With `LEGACY_CHUNK_RESTART` too, the chunked commands equal the buffer commands in `ECB` and when there is at most one
chunk (R267 (b), an inference the spec draws from R262 to R266). That the count 0, which no word carries, behaves so too is
the model's (log 16). -/
def Obligations.LegacyChunkingAgreesOnOneChunk : Prop :=
  ∀ (p : Params) (n : BitVec 16) (s : State) (c : ModeSetup), modeChecks p s = .ok c →
    (modeField s = modeCode .ecb ∨ (chunks (s.paddedInput c).length n.toNat c.bs).length ≤ 1 →
      encryptChunked p n s = encryptCommand p s.modeEnc s)
    ∧ (modeField s = modeCode .ecb ∨ (chunks s.dlen.toNat n.toNat c.bs).length ≤ 1 →
      decryptChunked p n s = decryptCommand p s.modeDec s)

/-- With `LEGACY_CHUNK_RESTART` too, chunked decryption undoes chunked encryption with the same thread count (R266). That the
count 0, which no word carries, behaves so too is the model's (log 16). -/
def Obligations.LegacyChunkedRoundTrip : Prop :=
  ∀ (legacy : Bool) (T : Nat) (v : Variant) (rks : List Bytes) (m : Mode) (iv del x : Bytes),
    rks.length = roundCount v → iv.length = blockSize v → del.length = blockSize v → x.length % blockSize v = 0 →
    runChunked legacy T (blockSize v) m
      (modeDec (encBlock v rks) (decBlock v rks) (blockSize v) m iv del)
      (runChunked legacy T (blockSize v) m (modeEnc (encBlock v rks) (blockSize v) m iv del) x) = x

/-! ### Whole-machine statements -/

/-- `DECBUF` of the output of `ENCBUF` under the same key, mode, padding, IV and delta returns the data, for every mode and
every length-byte padding, whatever the draws, and for `ZEROS` on data that are empty or do not end in a zero byte
(`45_mode_engine.md` R242, an inference the spec draws from R228, R238, R240, R241). -/
def Obligations.DecbufReturnsWhatEncbufTook : Prop :=
  ∀ (s t u : State) (v : Variant) (rks : List Bytes) (m : Mode) (pd : Padding), ModeReady s v rks m pd →
    rks.length = roundCount v →
    s.dlen.toNat ≤ 4096 - blockSize v →
    (pd ≠ .zeros ∨ s.dlen.toNat = 0 ∨ (s.din s.dlen.toNat).getD (s.dlen.toNat - 1) 0 ≠ 0) →
    exec .encbuf s = .next t →
    u.ctrl = s.ctrl → u.iv = s.iv → u.ivlen = s.ivlen → u.delta = s.delta → u.deltalen = s.deltalen →
    KeepsKeyStore s u → u.dlen = t.olen → u.din t.olen.toNat = t.output →
    ∃ w, exec .decbuf u = .next w ∧ EndedWell w ∧ w.output = s.din s.dlen.toNat

/-- A command depends on its operands only, each command on those its rule lists: two states that agree on them give the same
report, a data command also the same output and length, `SETKEY` also the same key store, whatever else they hold: other
registers, other bytes of the memories, for the block commands all of `CTRL`, `IV` and `DELTA`, for `PERMUTE` the key
(`10_state.md` R28, `20_memory.md` R66, `44_block_ciphers.md` R201, R205, R206, `45_mode_engine.md` R240, R241,
`40_bit_permutation.md` R127; `93_implementation_defined.md` U13). The position of the random source is the model's (log 5). -/
def Obligations.CommandsReadOnlyTheirOperands : Prop :=
  ∀ (i : Instr) (s s' : State), SameOperands i s s' →
    ∃ t t', exec i s = .next t ∧ exec i s' = .next t' ∧ SameReport t t'
      ∧ (isDataCommand i = true → t'.output = t.output ∧ t'.olen = t.olen)
      ∧ (∀ n, i = .setkey n → KeepsKeyStore t t')

/-- The invariant holds after reset (`10_state.md` R36). -/
def Obligations.InvariantHoldsAtReset : Prop := Inv Config.params State.reset

/-- Every step keeps the invariant: the memories stay canonical and inside the address map with every output byte written,
reserved bits of `CTRL` stay 0, the key store keeps the shape of its variant, the report describes one end of a command,
and the cache stays exact. -/
def Obligations.EveryStepKeepsTheInvariant : Prop :=
  ∀ s t : State, Inv Config.params s → step s = .next t → Inv Config.params t
end

