-- ==== Sys2Proof/Laws/Bytes.lean ====
section
/-! SUPPORT. Lemmas about byte sequences: exclusive or, slices, big-endian numbers, bits, blocks, words. -/

namespace Sys2Proof.Machine

/-! ### Exclusive or -/

@[simp] theorem length_xorBytes (s t : Bytes) : (xorBytes s t).length = min s.length t.length := by
  simp [xorBytes]

theorem xorBytes_comm (s t : Bytes) : xorBytes s t = xorBytes t s := by
  simp only [xorBytes]
  exact List.zipWith_comm_of_comm (fun a b => BitVec.xor_comm a b)

theorem xorBytes_self_cancel (s t : Bytes) (h : s.length ≤ t.length) : xorBytes (xorBytes s t) t = s := by
  induction s generalizing t with
  | nil => simp [xorBytes]
  | cons a s ih =>
    cases t with
    | nil => simp at h
    | cons b t =>
      simp only [List.length_cons, Nat.add_le_add_iff_right] at h
      simpa [xorBytes, BitVec.xor_assoc] using ih t h

theorem xorBytes_cancel_left (s t : Bytes) (h : s.length ≤ t.length) : xorBytes t (xorBytes t s) = s := by
  rw [xorBytes_comm t (xorBytes t s), xorBytes_comm t s]
  exact xorBytes_self_cancel s t h

theorem xorBytes_cancel_right (s t : Bytes) (h : s.length ≤ t.length) : xorBytes (xorBytes t s) t = s := by
  rw [xorBytes_comm t s]
  exact xorBytes_self_cancel s t h

/-! ### Slices and repetition -/

@[simp] theorem length_rep (b : Byte) (n : Nat) : (rep b n).length = n := by simp [rep]

@[simp] theorem length_zeroBytes (n : Nat) : (zeroBytes n).length = n := by simp [zeroBytes]

@[simp] theorem length_slice (s : Bytes) (a b : Nat) : (slice s a b).length = min (b - a) (s.length - a) := by
  simp [slice]

theorem slice_append_slice (s : Bytes) (a b c : Nat) (hab : a ≤ b) (hbc : b ≤ c) :
    slice s a b ++ slice s b c = slice s a c := by
  have hb : s.drop b = (s.drop a).drop (b - a) := by rw [List.drop_drop]; congr 1; omega
  rw [slice, slice, slice, hb, show c - a = (b - a) + (c - b) by omega]
  rw [← List.take_add]

theorem slice_zero_length (s : Bytes) (n : Nat) (h : s.length ≤ n) : slice s 0 n = s := by
  simp [slice, List.take_of_length_le h]

/-! ### Big-endian numbers -/

@[simp] theorem length_beBytes (v n : Nat) : (beBytes v n).length = n := by simp [beBytes]

/-! ### Words -/

@[simp] theorem length_wordBytes (w : Word) : (wordBytes w).length = 4 := by simp [wordBytes]

/-- A word is the word of its four bytes. -/
theorem wordOfBytes_bytes (w : Word) :
    wordOfBytes (w.extractLsb' 24 8) (w.extractLsb' 16 8) (w.extractLsb' 8 8) (w.extractLsb' 0 8) = w := by
  apply BitVec.eq_of_getLsbD_eq
  intro i hi
  simp only [wordOfBytes, BitVec.getLsbD_append, BitVec.getLsbD_extractLsb']
  split
  · simp [*]
  · split
    · rw [decide_eq_true (by omega), Bool.true_and]; congr 1; omega
    · split
      · rw [decide_eq_true (by omega), Bool.true_and]; congr 1; omega
      · rw [decide_eq_true (by omega), Bool.true_and]; congr 1; omega

/-! ### Bits -/

theorem bitPlace_lt (order : BitOrder) (j : Nat) : bitPlace order j < 8 := by
  cases order <;> simp only [bitPlace] <;> omega

/-- `bitPlace` is its own inverse on the places of a byte. -/
theorem bitPlace_bitPlace (order : BitOrder) (j : Nat) : bitPlace order (bitPlace order j) = j % 8 := by
  cases order <;> simp only [bitPlace] <;> omega

/-- The byte whose place values are `f` has bit `q` equal to `f q`: the eight values read off the byte are `f` mapped over the
places 0 to 7. -/
theorem getLsbD_byteOfPlaces (f : Nat → Bool) (q : Nat) (hq : q < 8) : (byteOfPlaces f).getLsbD q = f q := by
  have places : ∀ b0 b1 b2 b3 b4 b5 b6 b7 : Bool, ∀ q : Fin 8,
      (BitVec.ofNat 8 (b0.toNat + 2 * b1.toNat + 4 * b2.toNat + 8 * b3.toNat + 16 * b4.toNat + 32 * b5.toNat
        + 64 * b6.toNat + 128 * b7.toNat)).getLsbD q = [b0, b1, b2, b3, b4, b5, b6, b7].getD q false := by
    decide
  have read : (byteOfPlaces f).getLsbD q = ((List.range 8).map f).getD q false :=
    places (f 0) (f 1) (f 2) (f 3) (f 4) (f 5) (f 6) (f 7) ⟨q, hq⟩
  rw [read]
  simp [hq]

@[simp] theorem length_bytesOfBits (order : BitOrder) (bits : List Bool) :
    (bytesOfBits order bits).length = bits.length / 8 := by
  simp [bytesOfBits]

/-- Bit `k` of the bytes of a bit list is the list's element `k`. -/
theorem bitOf_bytesOfBits (order : BitOrder) (bits : List Bool) (k : Nat) (hk : k < 8 * (bits.length / 8)) :
    bitOf order (bytesOfBits order bits) k = bits.getD k false := by
  have hi : k / 8 < bits.length / 8 := by omega
  have hget : (bytesOfBits order bits).getD (k / 8) 0
      = byteOfPlaces fun q => bits.getD (8 * (k / 8) + bitPlace order q) false := by
    rw [List.getD_eq_getElem _ _ (by simpa using hi)]
    simp [bytesOfBits]
  rw [bitOf, hget, getLsbD_byteOfPlaces _ _ (bitPlace_lt order k), bitPlace_bitPlace]
  congr 1
  omega

/-- Two byte sequences of one length with the same bits are the same. -/
theorem bytes_ext (order : BitOrder) (s t : Bytes) (hl : s.length = t.length)
    (h : ∀ k, k < 8 * s.length → bitOf order s k = bitOf order t k) : s = t := by
  apply List.ext_getElem hl
  intro i hs ht
  apply BitVec.eq_of_getLsbD_eq
  intro q hq
  have hp := bitPlace_lt order q
  have := h (8 * i + bitPlace order q) (by omega)
  have hdiv : (8 * i + bitPlace order q) / 8 = i := by omega
  have hplace : bitPlace order (8 * i + bitPlace order q) = q := by
    have h2 := bitPlace_bitPlace order q
    have : bitPlace order (8 * i + bitPlace order q) = bitPlace order (bitPlace order q) := by
      cases order <;> simp only [bitPlace] <;> omega
    rw [this, h2]; omega
  simp only [bitOf, hdiv, hplace] at this
  rwa [List.getD_eq_getElem _ _ hs, List.getD_eq_getElem _ _ ht] at this

/-- A bit of an exclusive or of sequences of one length is the exclusive or of the bits. -/
theorem bitOf_xorBytes (order : BitOrder) (s t : Bytes) (hl : s.length = t.length) (k : Nat) :
    bitOf order (xorBytes s t) k = (bitOf order s k ^^ bitOf order t k) := by
  have hget : (xorBytes s t).getD (k / 8) 0 = s.getD (k / 8) 0 ^^^ t.getD (k / 8) 0 := by
    by_cases h : k / 8 < s.length
    · rw [List.getD_eq_getElem _ _ (by simp [xorBytes]; omega), List.getD_eq_getElem _ _ h,
        List.getD_eq_getElem _ _ (by omega)]
      simp [xorBytes]
    · rw [List.getD_eq_default _ _ (by simp [xorBytes]; omega), List.getD_eq_default _ _ (by omega),
        List.getD_eq_default _ _ (by omega)]
      rfl
  rw [bitOf, hget, BitVec.getLsbD_xor]; rfl

/-! ### Blocks -/

@[simp] theorem length_blocksOf (bs : Nat) (s : Bytes) : (blocksOf bs s).length = s.length / bs := by simp [blocksOf]

theorem length_of_mem_blocksOf {bs : Nat} {s X : Bytes} (h : X ∈ blocksOf bs s) : X.length = bs := by
  simp only [blocksOf, List.mem_map, List.mem_range] at h
  obtain ⟨i, hi, rfl⟩ := h
  have h1 : (i + 1) * bs ≤ s.length := by
    have := Nat.div_mul_le_self s.length bs
    calc (i + 1) * bs ≤ s.length / bs * bs := Nat.mul_le_mul_right _ hi
      _ ≤ s.length := this
  rw [length_slice]
  have : (i + 1) * bs - i * bs = bs := by rw [Nat.add_mul]; omega
  rw [this]
  have : (i + 1) * bs = i * bs + bs := by rw [Nat.add_mul]; omega
  omega

/-- The blocks of a whole number of blocks are those blocks. -/
theorem blocksOf_flatten (bs : Nat) (hb : 0 < bs) (xs : List Bytes) (h : ∀ X ∈ xs, X.length = bs) :
    blocksOf bs xs.flatten = xs := by
  have hlen : xs.flatten.length = xs.length * bs := by
    clear hb
    induction xs with
    | nil => simp
    | cons X xs ih =>
      simp only [List.mem_cons, forall_eq_or_imp] at h
      simp only [List.flatten_cons, List.length_append, ih h.2, h.1, List.length_cons]
      rw [Nat.add_mul]; omega
  apply List.ext_getElem
  · rw [length_blocksOf, hlen, Nat.mul_div_cancel _ hb]
  intro i hi hi'
  simp only [blocksOf, List.getElem_map, List.getElem_range]
  have hsub : (i + 1) * bs - i * bs = bs := by rw [Nat.add_mul]; omega
  rw [slice, hsub]
  clear hi hlen
  induction xs generalizing i with
  | nil => simp at hi'
  | cons X xs ih =>
    simp only [List.mem_cons, forall_eq_or_imp] at h
    cases i with
    | zero => simp [← h.1]
    | succ i =>
      simp only [List.flatten_cons, List.getElem_cons_succ]
      have hd : (i + 1) * bs = X.length + i * bs := by rw [h.1, Nat.add_mul]; omega
      rw [hd, List.drop_append]
      simp only [List.length_cons] at hi'
      have := ih h.2 i (by omega) (by rw [Nat.add_mul]; omega)
      simpa [List.drop_eq_nil_of_le] using this

/-- A whole number of blocks is the concatenation of its blocks. -/
theorem flatten_blocksOf (bs : Nat) (s : Bytes) (h : s.length % bs = 0) : (blocksOf bs s).flatten = s := by
  have key : ∀ n, ((List.range n).map fun i => slice s (i * bs) ((i + 1) * bs)).flatten = slice s 0 (n * bs) := by
    intro n
    induction n with
    | zero => simp [slice]
    | succ n ih =>
      rw [List.range_succ, List.map_append, List.flatten_append, ih]
      simp only [List.map_cons, List.map_nil, List.flatten_cons, List.flatten_nil, List.append_nil]
      rw [slice_append_slice s 0 (n * bs) _ (by omega) (by rw [Nat.add_mul]; omega)]
  rw [blocksOf, key]
  apply slice_zero_length
  rw [Nat.div_mul_cancel (Nat.dvd_of_mod_eq_zero h)]

end Sys2Proof.Machine
end

