-- ==== Sys2Proof/Laws/Ciphers.lean ====
section
/-! SUPPORT. Laws of the permutation primitive, the Feistel engine and the two ciphers: the bits of a permutation, and the
lengths of everything the ciphers produce. -/

namespace Sys2Proof.Machine

/-! ### Permutation -/

@[simp] theorem length_permute (inp : Bytes) (T : List Nat) (o : BitOrder) (b : Nat) :
    (permute inp T o b).length = T.length / 8 := by
  simp [permute]

/-- Output bit `k` is input bit `T[k] - base`. -/
theorem bitOf_permute (inp : Bytes) (T : List Nat) (o : BitOrder) (b k : Nat) (hk : k < 8 * (T.length / 8)) :
    bitOf o (permute inp T o b) k = bitOf o inp (T.getD k 0 - b) := by
  have hk' : k < T.length := by omega
  rw [permute, bitOf_bytesOfBits _ _ _ (by simpa using hk), List.getD_eq_getElem _ _ (by simpa using hk'),
    List.getElem_map, List.getD_eq_getElem _ _ hk']

@[simp] theorem length_permuteFixed (inp : Bytes) (T : List Nat) : (permuteFixed inp T).length = T.length / 8 := by
  simp [permuteFixed]

theorem length_tables : tables.ip.length = 64 ∧ tables.fp.length = 64 ∧ tables.e.length = 48 ∧ tables.p.length = 32
    ∧ tables.pc1.length = 56 ∧ tables.pc2.length = 48 ∧ tables.rot.length = 16 := by
  decide

/-! ### Feistel engine -/

/-- One more round at the end. -/
theorem feistelRounds_append_singleton (F : Bytes → Bytes → Bytes) (rks : List Bytes) (rk L R : Bytes) :
    feistelRounds F (rks ++ [rk]) L R
      = ((feistelRounds F rks L R).2,
         xorBytes (F (feistelRounds F rks L R).2 rk) (feistelRounds F rks L R).1) := by
  induction rks generalizing L R with
  | nil => simp [feistelRounds]
  | cons k rks ih => simp only [List.cons_append, feistelRounds, ih]

/-- The rounds keep both halves at their length when the round function does. -/
theorem length_feistelRounds (F : Bytes → Bytes → Bytes) (h : Nat) (hF : ∀ r k, r.length = h → (F r k).length = h)
    (rks : List Bytes) (L R : Bytes) (hL : L.length = h) (hR : R.length = h) :
    (feistelRounds F rks L R).1.length = h ∧ (feistelRounds F rks L R).2.length = h := by
  induction rks generalizing L R with
  | nil => exact ⟨hL, hR⟩
  | cons rk rks ih => exact ih R _ hR (by simp [hF R rk hR, hL])

/-- The engine's output has the block size. -/
theorem length_feistel (F : Bytes → Bytes → Bytes) (h : Nat) (hF : ∀ r k, r.length = h → (F r k).length = h)
    (rks : List Bytes) (N : Nat) (b : Bytes) (hb : b.length = 2 * h) : (feistel b rks N (2 * h) F).length = 2 * h := by
  have hl := length_feistelRounds F h hF (rks.take N) (slice b 0 (2 * h / 2)) (slice b (2 * h / 2) (2 * h))
    (by simp; omega) (by simp; omega)
  simp only [feistel, List.length_append]
  omega

/-! ### Base cipher -/

@[simp] theorem length_adjustParity (k : Bytes) : (adjustParity k).length = k.length := by simp [adjustParity]

@[simp] theorem length_baseRound (half rk : Bytes) : (baseRound half rk).length = 4 := by
  simp only [baseRound, length_permuteFixed, length_tables]

@[simp] theorem length_baseBlock (rks : List Bytes) (b : Bytes) : (baseBlock rks b).length = 8 := by
  simp only [baseBlock, length_permuteFixed, length_tables]

@[simp] theorem length_baseEnc (rks : List Bytes) (b : Bytes) : (baseEnc rks b).length = 8 := length_baseBlock rks b

@[simp] theorem length_baseDec (rks : List Bytes) (b : Bytes) : (baseDec rks b).length = 8 :=
  length_baseBlock rks.reverse b

theorem length_baseSchedule (rot : List Nat) (C D : Nat) : (baseSchedule rot C D).length = rot.length := by
  induction rot generalizing C D with
  | nil => rfl
  | cons n rot ih => simp [baseSchedule, ih]

theorem length_of_mem_baseSchedule (rot : List Nat) (C D : Nat) {k : Bytes} (h : k ∈ baseSchedule rot C D) :
    k.length = 6 := by
  induction rot generalizing C D with
  | nil => simp [baseSchedule] at h
  | cons n rot ih =>
    simp only [baseSchedule, List.mem_cons] at h
    rcases h with rfl | h
    · simp only [length_permuteFixed, length_tables]
    · exact ih _ _ h

@[simp] theorem length_baseRoundKeys (key : Bytes) : (baseRoundKeys key).length = 16 := by
  simp only [baseRoundKeys, length_baseSchedule, length_tables]

theorem length_of_mem_baseRoundKeys {key k : Bytes} (h : k ∈ baseRoundKeys key) : k.length = 6 :=
  length_of_mem_baseSchedule _ _ _ h

/-! ### Composite cipher -/

@[simp] theorem length_schedEnc (c : Byte) (x : Bytes) : (schedEnc c x).length = 8 := by simp [schedEnc]

theorem length_compSchedule (c : Byte) (key : Bytes) (S n i : Nat) (prev : Bytes) :
    (compSchedule c key S n i prev).length = n := by
  induction n generalizing i prev with
  | zero => rfl
  | succ n ih => simp [compSchedule, ih]

theorem length_of_mem_compSchedule (c : Byte) (key : Bytes) (S n i : Nat) (prev : Bytes) {k : Bytes}
    (h : k ∈ compSchedule c key S n i prev) : k.length = 8 := by
  induction n generalizing i prev with
  | zero => simp [compSchedule] at h
  | succ n ih =>
    simp only [compSchedule, List.mem_cons] at h
    rcases h with rfl | h
    · simp
    · exact ih _ _ h

@[simp] theorem length_compRound (half rk : Bytes) : (compRound half rk).length = 8 := by simp [compRound]

theorem length_compEnc (rk : List Bytes) (N : Nat) (b : Bytes) (hb : b.length = 16) : (compEnc rk N b).length = 16 :=
  length_feistel compRound 8 (fun _ _ _ => length_compRound _ _) rk N b hb

theorem length_compDec (rk : List Bytes) (N : Nat) (b : Bytes) (hb : b.length = 16) : (compDec rk N b).length = 16 :=
  length_feistel compRound 8 (fun _ _ _ => length_compRound _ _) rk.reverse N b hb

/-! ### The installed cipher -/

theorem blockSize_pos (v : Variant) : 0 < blockSize v := by cases v <;> decide

/-- `E` keeps the block size. -/
theorem length_encBlock (v : Variant) (rks : List Bytes) (b : Bytes) (hb : b.length = blockSize v) :
    (encBlock v rks b).length = blockSize v := by
  cases v
  · exact length_baseEnc rks b
  · exact length_compEnc rks _ b hb
  · exact length_compEnc rks _ b hb
  · exact length_compEnc rks _ b hb

/-- `D` keeps the block size. -/
theorem length_decBlock (v : Variant) (rks : List Bytes) (b : Bytes) (hb : b.length = blockSize v) :
    (decBlock v rks b).length = blockSize v := by
  cases v
  · exact length_baseDec rks b
  · exact length_compDec rks _ b hb
  · exact length_compDec rks _ b hb
  · exact length_compDec rks _ b hb

/-- What `expandKey` makes of a key of the right length: as many round keys as rounds, each of the right length, or a
parity error of the base cipher. -/
theorem expandKey_ok {c : Byte} {v : Variant} {adj : Bool} {key : Bytes} {rk : List Bytes}
    (h : expandKey c v adj key = .ok rk) : rk.length = roundCount v ∧ ∀ k ∈ rk, k.length = roundKeyLength v := by
  cases v with
  | base =>
    simp only [expandKey] at h
    generalize (if adj = true then adjustParity key else key) = k at h
    simp only [baseExpand] at h
    split at h
    · cases h
    · split at h
      · cases h
      · cases h
        exact ⟨length_baseRoundKeys _, fun k hk => length_of_mem_baseRoundKeys hk⟩
  | comp2 =>
    simp only [expandKey, compExpand] at h
    split at h
    · cases h
    · cases h
      exact ⟨length_compSchedule _ _ _ _ _ _, fun k hk => length_of_mem_compSchedule _ _ _ _ _ _ hk⟩
  | comp3 =>
    simp only [expandKey, compExpand] at h
    split at h
    · cases h
    · cases h
      exact ⟨length_compSchedule _ _ _ _ _ _, fun k hk => length_of_mem_compSchedule _ _ _ _ _ _ hk⟩
  | comp4 =>
    simp only [expandKey, compExpand] at h
    split at h
    · cases h
    · cases h
      exact ⟨length_compSchedule _ _ _ _ _ _, fun k hk => length_of_mem_compSchedule _ _ _ _ _ _ hk⟩

/-- The installed key, read out of the state. -/
theorem State.installed_ok {s : State} {v : Variant} {rks : List Bytes} :
    s.installed = .ok (v, rks)
      ↔ s.keySet = true ∧ s.rkEnc = some rks ∧ s.kcipher = v ∧ roundCount v ≤ rks.length := by
  simp only [State.installed]
  split
  · rename_i ks h1 h2
    rw [h1, h2]
    split
    · simp only [reduceCtorEq, Option.some.injEq, true_and, false_iff]
      rintro ⟨rfl, rfl, h⟩
      omega
    · simp only [Except.ok.injEq, Prod.mk.injEq, Option.some.injEq, true_and]
      constructor
      · rintro ⟨rfl, rfl⟩
        exact ⟨rfl, rfl, by omega⟩
      · rintro ⟨rfl, rfl, _⟩
        exact ⟨rfl, rfl⟩
  · rename_i hno
    simp only [reduceCtorEq, false_iff]
    rintro ⟨h1, h2, _⟩
    exact hno _ h1 h2

/-- Without a key every cipher command finds `STATE_NOKEY`. -/
theorem State.installed_nokey {s : State} (h : s.keySet = false) : s.installed = .error .stateNokey := by
  simp [State.installed, h]

end Sys2Proof.Machine
end

