-- ==== Sys2Proof/Laws/State.lean ====
section
/-! SUPPORT. One lemma per field per update of the state, so that no proof unfolds a record update. -/

namespace Sys2Proof.Machine

/-! ### raise -/

@[simp] theorem State.raise_ctrl (s : State) (d : Bool) (e : CoreError) : (s.raise d e).ctrl = s.ctrl := rfl
@[simp] theorem State.raise_done (s : State) (d : Bool) (e : CoreError) : (s.raise d e).done = false := rfl
@[simp] theorem State.raise_err (s : State) (d : Bool) (e : CoreError) : (s.raise d e).err = true := rfl
@[simp] theorem State.raise_keySet (s : State) (d : Bool) (e : CoreError) : (s.raise d e).keySet = s.keySet := rfl
@[simp] theorem State.raise_kcipher (s : State) (d : Bool) (e : CoreError) : (s.raise d e).kcipher = s.kcipher := rfl
@[simp] theorem State.raise_errcode (s : State) (d : Bool) (e : CoreError) : (s.raise d e).errcode = e.code := rfl
@[simp] theorem State.raise_errinfo (s : State) (d : Bool) (e : CoreError) : (s.raise d e).errinfo = e.info := rfl
@[simp] theorem State.raise_dlen (s : State) (d : Bool) (e : CoreError) : (s.raise d e).dlen = s.dlen := rfl
@[simp] theorem State.raise_olen (s : State) (d : Bool) (e : CoreError) : (s.raise d e).olen = if d then 0 else s.olen := rfl
@[simp] theorem State.raise_ivlen (s : State) (d : Bool) (e : CoreError) : (s.raise d e).ivlen = s.ivlen := rfl
@[simp] theorem State.raise_deltalen (s : State) (d : Bool) (e : CoreError) : (s.raise d e).deltalen = s.deltalen := rfl
@[simp] theorem State.raise_key (s : State) (d : Bool) (e : CoreError) : (s.raise d e).key = s.key := rfl
@[simp] theorem State.raise_iv (s : State) (d : Bool) (e : CoreError) : (s.raise d e).iv = s.iv := rfl
@[simp] theorem State.raise_delta (s : State) (d : Bool) (e : CoreError) : (s.raise d e).delta = s.delta := rfl
@[simp] theorem State.raise_mem (s : State) (d : Bool) (e : CoreError) : (s.raise d e).mem = s.mem := rfl
@[simp] theorem State.raise_rkEnc (s : State) (d : Bool) (e : CoreError) : (s.raise d e).rkEnc = s.rkEnc := rfl
@[simp] theorem State.raise_cache (s : State) (d : Bool) (e : CoreError) : (s.raise d e).cache = s.cache := rfl
@[simp] theorem State.raise_port (s : State) (d : Bool) (e : CoreError) : (s.raise d e).port = s.port := rfl
@[simp] theorem State.raise_drawIndex (s : State) (d : Bool) (e : CoreError) : (s.raise d e).drawIndex = s.drawIndex := rfl
@[simp] theorem State.raise_resetCount (s : State) (d : Bool) (e : CoreError) : (s.raise d e).resetCount = s.resetCount := rfl

/-! ### complete -/

@[simp] theorem State.complete_ctrl (s : State) : (s.complete).ctrl = s.ctrl := rfl
@[simp] theorem State.complete_done (s : State) : (s.complete).done = true := rfl
@[simp] theorem State.complete_err (s : State) : (s.complete).err = false := rfl
@[simp] theorem State.complete_keySet (s : State) : (s.complete).keySet = s.keySet := rfl
@[simp] theorem State.complete_kcipher (s : State) : (s.complete).kcipher = s.kcipher := rfl
@[simp] theorem State.complete_errcode (s : State) : (s.complete).errcode = 0 := rfl
@[simp] theorem State.complete_errinfo (s : State) : (s.complete).errinfo = 0 := rfl
@[simp] theorem State.complete_dlen (s : State) : (s.complete).dlen = s.dlen := rfl
@[simp] theorem State.complete_olen (s : State) : (s.complete).olen = s.olen := rfl
@[simp] theorem State.complete_ivlen (s : State) : (s.complete).ivlen = s.ivlen := rfl
@[simp] theorem State.complete_deltalen (s : State) : (s.complete).deltalen = s.deltalen := rfl
@[simp] theorem State.complete_key (s : State) : (s.complete).key = s.key := rfl
@[simp] theorem State.complete_iv (s : State) : (s.complete).iv = s.iv := rfl
@[simp] theorem State.complete_delta (s : State) : (s.complete).delta = s.delta := rfl
@[simp] theorem State.complete_mem (s : State) : (s.complete).mem = s.mem := rfl
@[simp] theorem State.complete_rkEnc (s : State) : (s.complete).rkEnc = s.rkEnc := rfl
@[simp] theorem State.complete_cache (s : State) : (s.complete).cache = s.cache := rfl
@[simp] theorem State.complete_port (s : State) : (s.complete).port = s.port := rfl
@[simp] theorem State.complete_drawIndex (s : State) : (s.complete).drawIndex = s.drawIndex := rfl
@[simp] theorem State.complete_resetCount (s : State) : (s.complete).resetCount = s.resetCount := rfl

/-! ### putOutput -/

@[simp] theorem State.putOutput_ctrl (s : State) (o : Bytes) : (s.putOutput o).ctrl = s.ctrl := rfl
@[simp] theorem State.putOutput_done (s : State) (o : Bytes) : (s.putOutput o).done = s.done := rfl
@[simp] theorem State.putOutput_err (s : State) (o : Bytes) : (s.putOutput o).err = s.err := rfl
@[simp] theorem State.putOutput_keySet (s : State) (o : Bytes) : (s.putOutput o).keySet = s.keySet := rfl
@[simp] theorem State.putOutput_kcipher (s : State) (o : Bytes) : (s.putOutput o).kcipher = s.kcipher := rfl
@[simp] theorem State.putOutput_errcode (s : State) (o : Bytes) : (s.putOutput o).errcode = s.errcode := rfl
@[simp] theorem State.putOutput_errinfo (s : State) (o : Bytes) : (s.putOutput o).errinfo = s.errinfo := rfl
@[simp] theorem State.putOutput_dlen (s : State) (o : Bytes) : (s.putOutput o).dlen = s.dlen := rfl
@[simp] theorem State.putOutput_olen (s : State) (o : Bytes) : (s.putOutput o).olen = BitVec.ofNat 32 o.length := rfl
@[simp] theorem State.putOutput_ivlen (s : State) (o : Bytes) : (s.putOutput o).ivlen = s.ivlen := rfl
@[simp] theorem State.putOutput_deltalen (s : State) (o : Bytes) : (s.putOutput o).deltalen = s.deltalen := rfl
@[simp] theorem State.putOutput_key (s : State) (o : Bytes) : (s.putOutput o).key = s.key := rfl
@[simp] theorem State.putOutput_iv (s : State) (o : Bytes) : (s.putOutput o).iv = s.iv := rfl
@[simp] theorem State.putOutput_delta (s : State) (o : Bytes) : (s.putOutput o).delta = s.delta := rfl
@[simp] theorem State.putOutput_mem (s : State) (o : Bytes) : (s.putOutput o).mem = Memory.writeBytes s.mem doutBase o := rfl
@[simp] theorem State.putOutput_rkEnc (s : State) (o : Bytes) : (s.putOutput o).rkEnc = s.rkEnc := rfl
@[simp] theorem State.putOutput_cache (s : State) (o : Bytes) : (s.putOutput o).cache = s.cache := rfl
@[simp] theorem State.putOutput_port (s : State) (o : Bytes) : (s.putOutput o).port = s.port := rfl
@[simp] theorem State.putOutput_drawIndex (s : State) (o : Bytes) : (s.putOutput o).drawIndex = s.drawIndex := rfl
@[simp] theorem State.putOutput_resetCount (s : State) (o : Bytes) : (s.putOutput o).resetCount = s.resetCount := rfl

/-! ### putBytes -/

@[simp] theorem State.putBytes_ctrl (s : State) (a : Nat) (o : Bytes) : (s.putBytes a o).ctrl = s.ctrl := rfl
@[simp] theorem State.putBytes_done (s : State) (a : Nat) (o : Bytes) : (s.putBytes a o).done = s.done := rfl
@[simp] theorem State.putBytes_err (s : State) (a : Nat) (o : Bytes) : (s.putBytes a o).err = s.err := rfl
@[simp] theorem State.putBytes_keySet (s : State) (a : Nat) (o : Bytes) : (s.putBytes a o).keySet = s.keySet := rfl
@[simp] theorem State.putBytes_kcipher (s : State) (a : Nat) (o : Bytes) : (s.putBytes a o).kcipher = s.kcipher := rfl
@[simp] theorem State.putBytes_errcode (s : State) (a : Nat) (o : Bytes) : (s.putBytes a o).errcode = s.errcode := rfl
@[simp] theorem State.putBytes_errinfo (s : State) (a : Nat) (o : Bytes) : (s.putBytes a o).errinfo = s.errinfo := rfl
@[simp] theorem State.putBytes_dlen (s : State) (a : Nat) (o : Bytes) : (s.putBytes a o).dlen = s.dlen := rfl
@[simp] theorem State.putBytes_olen (s : State) (a : Nat) (o : Bytes) : (s.putBytes a o).olen = s.olen := rfl
@[simp] theorem State.putBytes_ivlen (s : State) (a : Nat) (o : Bytes) : (s.putBytes a o).ivlen = s.ivlen := rfl
@[simp] theorem State.putBytes_deltalen (s : State) (a : Nat) (o : Bytes) : (s.putBytes a o).deltalen = s.deltalen := rfl
@[simp] theorem State.putBytes_key (s : State) (a : Nat) (o : Bytes) : (s.putBytes a o).key = s.key := rfl
@[simp] theorem State.putBytes_iv (s : State) (a : Nat) (o : Bytes) : (s.putBytes a o).iv = s.iv := rfl
@[simp] theorem State.putBytes_delta (s : State) (a : Nat) (o : Bytes) : (s.putBytes a o).delta = s.delta := rfl
@[simp] theorem State.putBytes_mem (s : State) (a : Nat) (o : Bytes) : (s.putBytes a o).mem = Memory.writeBytes s.mem a o := rfl
@[simp] theorem State.putBytes_rkEnc (s : State) (a : Nat) (o : Bytes) : (s.putBytes a o).rkEnc = s.rkEnc := rfl
@[simp] theorem State.putBytes_cache (s : State) (a : Nat) (o : Bytes) : (s.putBytes a o).cache = s.cache := rfl
@[simp] theorem State.putBytes_port (s : State) (a : Nat) (o : Bytes) : (s.putBytes a o).port = s.port := rfl
@[simp] theorem State.putBytes_drawIndex (s : State) (a : Nat) (o : Bytes) : (s.putBytes a o).drawIndex = s.drawIndex := rfl
@[simp] theorem State.putBytes_resetCount (s : State) (a : Nat) (o : Bytes) : (s.putBytes a o).resetCount = s.resetCount := rfl

/-! ### dropKey -/

@[simp] theorem State.dropKey_ctrl (s : State) : (s.dropKey).ctrl = s.ctrl := rfl
@[simp] theorem State.dropKey_done (s : State) : (s.dropKey).done = s.done := rfl
@[simp] theorem State.dropKey_err (s : State) : (s.dropKey).err = s.err := rfl
@[simp] theorem State.dropKey_keySet (s : State) : (s.dropKey).keySet = false := rfl
@[simp] theorem State.dropKey_kcipher (s : State) : (s.dropKey).kcipher = .base := rfl
@[simp] theorem State.dropKey_errcode (s : State) : (s.dropKey).errcode = s.errcode := rfl
@[simp] theorem State.dropKey_errinfo (s : State) : (s.dropKey).errinfo = s.errinfo := rfl
@[simp] theorem State.dropKey_dlen (s : State) : (s.dropKey).dlen = s.dlen := rfl
@[simp] theorem State.dropKey_olen (s : State) : (s.dropKey).olen = s.olen := rfl
@[simp] theorem State.dropKey_ivlen (s : State) : (s.dropKey).ivlen = s.ivlen := rfl
@[simp] theorem State.dropKey_deltalen (s : State) : (s.dropKey).deltalen = s.deltalen := rfl
@[simp] theorem State.dropKey_key (s : State) : (s.dropKey).key = s.key := rfl
@[simp] theorem State.dropKey_iv (s : State) : (s.dropKey).iv = s.iv := rfl
@[simp] theorem State.dropKey_delta (s : State) : (s.dropKey).delta = s.delta := rfl
@[simp] theorem State.dropKey_mem (s : State) : (s.dropKey).mem = s.mem := rfl
@[simp] theorem State.dropKey_rkEnc (s : State) : (s.dropKey).rkEnc = none := rfl
@[simp] theorem State.dropKey_cache (s : State) : (s.dropKey).cache = s.cache := rfl
@[simp] theorem State.dropKey_port (s : State) : (s.dropKey).port = s.port := rfl
@[simp] theorem State.dropKey_drawIndex (s : State) : (s.dropKey).drawIndex = s.drawIndex := rfl
@[simp] theorem State.dropKey_resetCount (s : State) : (s.dropKey).resetCount = s.resetCount := rfl

/-! ### installKey -/

@[simp] theorem State.installKey_ctrl (s : State) (v : Variant) (rk : List Bytes) : (s.installKey v rk).ctrl = s.ctrl := rfl
@[simp] theorem State.installKey_done (s : State) (v : Variant) (rk : List Bytes) : (s.installKey v rk).done = s.done := rfl
@[simp] theorem State.installKey_err (s : State) (v : Variant) (rk : List Bytes) : (s.installKey v rk).err = s.err := rfl
@[simp] theorem State.installKey_keySet (s : State) (v : Variant) (rk : List Bytes) : (s.installKey v rk).keySet = true := rfl
@[simp] theorem State.installKey_kcipher (s : State) (v : Variant) (rk : List Bytes) : (s.installKey v rk).kcipher = v := rfl
@[simp] theorem State.installKey_errcode (s : State) (v : Variant) (rk : List Bytes) : (s.installKey v rk).errcode = s.errcode := rfl
@[simp] theorem State.installKey_errinfo (s : State) (v : Variant) (rk : List Bytes) : (s.installKey v rk).errinfo = s.errinfo := rfl
@[simp] theorem State.installKey_dlen (s : State) (v : Variant) (rk : List Bytes) : (s.installKey v rk).dlen = s.dlen := rfl
@[simp] theorem State.installKey_olen (s : State) (v : Variant) (rk : List Bytes) : (s.installKey v rk).olen = s.olen := rfl
@[simp] theorem State.installKey_ivlen (s : State) (v : Variant) (rk : List Bytes) : (s.installKey v rk).ivlen = s.ivlen := rfl
@[simp] theorem State.installKey_deltalen (s : State) (v : Variant) (rk : List Bytes) : (s.installKey v rk).deltalen = s.deltalen := rfl
@[simp] theorem State.installKey_key (s : State) (v : Variant) (rk : List Bytes) : (s.installKey v rk).key = s.key := rfl
@[simp] theorem State.installKey_iv (s : State) (v : Variant) (rk : List Bytes) : (s.installKey v rk).iv = s.iv := rfl
@[simp] theorem State.installKey_delta (s : State) (v : Variant) (rk : List Bytes) : (s.installKey v rk).delta = s.delta := rfl
@[simp] theorem State.installKey_mem (s : State) (v : Variant) (rk : List Bytes) : (s.installKey v rk).mem = s.mem := rfl
@[simp] theorem State.installKey_rkEnc (s : State) (v : Variant) (rk : List Bytes) : (s.installKey v rk).rkEnc = some rk := rfl
@[simp] theorem State.installKey_cache (s : State) (v : Variant) (rk : List Bytes) : (s.installKey v rk).cache = s.cache := rfl
@[simp] theorem State.installKey_port (s : State) (v : Variant) (rk : List Bytes) : (s.installKey v rk).port = s.port := rfl
@[simp] theorem State.installKey_drawIndex (s : State) (v : Variant) (rk : List Bytes) : (s.installKey v rk).drawIndex = s.drawIndex := rfl
@[simp] theorem State.installKey_resetCount (s : State) (v : Variant) (rk : List Bytes) : (s.installKey v rk).resetCount = s.resetCount := rfl

/-! ### drew -/

@[simp] theorem State.drew_ctrl (s : State) (n : Nat) : (s.drew n).ctrl = s.ctrl := rfl
@[simp] theorem State.drew_done (s : State) (n : Nat) : (s.drew n).done = s.done := rfl
@[simp] theorem State.drew_err (s : State) (n : Nat) : (s.drew n).err = s.err := rfl
@[simp] theorem State.drew_keySet (s : State) (n : Nat) : (s.drew n).keySet = s.keySet := rfl
@[simp] theorem State.drew_kcipher (s : State) (n : Nat) : (s.drew n).kcipher = s.kcipher := rfl
@[simp] theorem State.drew_errcode (s : State) (n : Nat) : (s.drew n).errcode = s.errcode := rfl
@[simp] theorem State.drew_errinfo (s : State) (n : Nat) : (s.drew n).errinfo = s.errinfo := rfl
@[simp] theorem State.drew_dlen (s : State) (n : Nat) : (s.drew n).dlen = s.dlen := rfl
@[simp] theorem State.drew_olen (s : State) (n : Nat) : (s.drew n).olen = s.olen := rfl
@[simp] theorem State.drew_ivlen (s : State) (n : Nat) : (s.drew n).ivlen = s.ivlen := rfl
@[simp] theorem State.drew_deltalen (s : State) (n : Nat) : (s.drew n).deltalen = s.deltalen := rfl
@[simp] theorem State.drew_key (s : State) (n : Nat) : (s.drew n).key = s.key := rfl
@[simp] theorem State.drew_iv (s : State) (n : Nat) : (s.drew n).iv = s.iv := rfl
@[simp] theorem State.drew_delta (s : State) (n : Nat) : (s.drew n).delta = s.delta := rfl
@[simp] theorem State.drew_mem (s : State) (n : Nat) : (s.drew n).mem = s.mem := rfl
@[simp] theorem State.drew_rkEnc (s : State) (n : Nat) : (s.drew n).rkEnc = s.rkEnc := rfl
@[simp] theorem State.drew_cache (s : State) (n : Nat) : (s.drew n).cache = s.cache := rfl
@[simp] theorem State.drew_port (s : State) (n : Nat) : (s.drew n).port = s.port := rfl
@[simp] theorem State.drew_drawIndex (s : State) (n : Nat) : (s.drew n).drawIndex = s.drawIndex + n := rfl
@[simp] theorem State.drew_resetCount (s : State) (n : Nat) : (s.drew n).resetCount = s.resetCount := rfl

/-! ### touchCache -/

@[simp] theorem State.touchCache_ctrl (s : State) (p : Params) (v : Variant) (rks : List Bytes) (n : Nat) : (s.touchCache p v rks n).ctrl = s.ctrl := rfl
@[simp] theorem State.touchCache_done (s : State) (p : Params) (v : Variant) (rks : List Bytes) (n : Nat) : (s.touchCache p v rks n).done = s.done := rfl
@[simp] theorem State.touchCache_err (s : State) (p : Params) (v : Variant) (rks : List Bytes) (n : Nat) : (s.touchCache p v rks n).err = s.err := rfl
@[simp] theorem State.touchCache_keySet (s : State) (p : Params) (v : Variant) (rks : List Bytes) (n : Nat) : (s.touchCache p v rks n).keySet = s.keySet := rfl
@[simp] theorem State.touchCache_kcipher (s : State) (p : Params) (v : Variant) (rks : List Bytes) (n : Nat) : (s.touchCache p v rks n).kcipher = s.kcipher := rfl
@[simp] theorem State.touchCache_errcode (s : State) (p : Params) (v : Variant) (rks : List Bytes) (n : Nat) : (s.touchCache p v rks n).errcode = s.errcode := rfl
@[simp] theorem State.touchCache_errinfo (s : State) (p : Params) (v : Variant) (rks : List Bytes) (n : Nat) : (s.touchCache p v rks n).errinfo = s.errinfo := rfl
@[simp] theorem State.touchCache_dlen (s : State) (p : Params) (v : Variant) (rks : List Bytes) (n : Nat) : (s.touchCache p v rks n).dlen = s.dlen := rfl
@[simp] theorem State.touchCache_olen (s : State) (p : Params) (v : Variant) (rks : List Bytes) (n : Nat) : (s.touchCache p v rks n).olen = s.olen := rfl
@[simp] theorem State.touchCache_ivlen (s : State) (p : Params) (v : Variant) (rks : List Bytes) (n : Nat) : (s.touchCache p v rks n).ivlen = s.ivlen := rfl
@[simp] theorem State.touchCache_deltalen (s : State) (p : Params) (v : Variant) (rks : List Bytes) (n : Nat) : (s.touchCache p v rks n).deltalen = s.deltalen := rfl
@[simp] theorem State.touchCache_key (s : State) (p : Params) (v : Variant) (rks : List Bytes) (n : Nat) : (s.touchCache p v rks n).key = s.key := rfl
@[simp] theorem State.touchCache_iv (s : State) (p : Params) (v : Variant) (rks : List Bytes) (n : Nat) : (s.touchCache p v rks n).iv = s.iv := rfl
@[simp] theorem State.touchCache_delta (s : State) (p : Params) (v : Variant) (rks : List Bytes) (n : Nat) : (s.touchCache p v rks n).delta = s.delta := rfl
@[simp] theorem State.touchCache_mem (s : State) (p : Params) (v : Variant) (rks : List Bytes) (n : Nat) : (s.touchCache p v rks n).mem = s.mem := rfl
@[simp] theorem State.touchCache_rkEnc (s : State) (p : Params) (v : Variant) (rks : List Bytes) (n : Nat) : (s.touchCache p v rks n).rkEnc = s.rkEnc := rfl
@[simp] theorem State.touchCache_cache (s : State) (p : Params) (v : Variant) (rks : List Bytes) (n : Nat) : (s.touchCache p v rks n).cache = if v = .base then s.cache else cacheAfterBlocks p.cacheEntries (rks.take (roundCount v)) n s.cache := rfl
@[simp] theorem State.touchCache_port (s : State) (p : Params) (v : Variant) (rks : List Bytes) (n : Nat) : (s.touchCache p v rks n).port = s.port := rfl
@[simp] theorem State.touchCache_drawIndex (s : State) (p : Params) (v : Variant) (rks : List Bytes) (n : Nat) : (s.touchCache p v rks n).drawIndex = s.drawIndex := rfl
@[simp] theorem State.touchCache_resetCount (s : State) (p : Params) (v : Variant) (rks : List Bytes) (n : Nat) : (s.touchCache p v rks n).resetCount = s.resetCount := rfl

/-! ### answered -/

@[simp] theorem State.answered_ctrl (s : State) (r : List HostEvent) (a : Response) : (s.answered r a).ctrl = s.ctrl := rfl
@[simp] theorem State.answered_done (s : State) (r : List HostEvent) (a : Response) : (s.answered r a).done = s.done := rfl
@[simp] theorem State.answered_err (s : State) (r : List HostEvent) (a : Response) : (s.answered r a).err = s.err := rfl
@[simp] theorem State.answered_keySet (s : State) (r : List HostEvent) (a : Response) : (s.answered r a).keySet = s.keySet := rfl
@[simp] theorem State.answered_kcipher (s : State) (r : List HostEvent) (a : Response) : (s.answered r a).kcipher = s.kcipher := rfl
@[simp] theorem State.answered_errcode (s : State) (r : List HostEvent) (a : Response) : (s.answered r a).errcode = s.errcode := rfl
@[simp] theorem State.answered_errinfo (s : State) (r : List HostEvent) (a : Response) : (s.answered r a).errinfo = s.errinfo := rfl
@[simp] theorem State.answered_dlen (s : State) (r : List HostEvent) (a : Response) : (s.answered r a).dlen = s.dlen := rfl
@[simp] theorem State.answered_olen (s : State) (r : List HostEvent) (a : Response) : (s.answered r a).olen = s.olen := rfl
@[simp] theorem State.answered_ivlen (s : State) (r : List HostEvent) (a : Response) : (s.answered r a).ivlen = s.ivlen := rfl
@[simp] theorem State.answered_deltalen (s : State) (r : List HostEvent) (a : Response) : (s.answered r a).deltalen = s.deltalen := rfl
@[simp] theorem State.answered_key (s : State) (r : List HostEvent) (a : Response) : (s.answered r a).key = s.key := rfl
@[simp] theorem State.answered_iv (s : State) (r : List HostEvent) (a : Response) : (s.answered r a).iv = s.iv := rfl
@[simp] theorem State.answered_delta (s : State) (r : List HostEvent) (a : Response) : (s.answered r a).delta = s.delta := rfl
@[simp] theorem State.answered_mem (s : State) (r : List HostEvent) (a : Response) : (s.answered r a).mem = s.mem := rfl
@[simp] theorem State.answered_rkEnc (s : State) (r : List HostEvent) (a : Response) : (s.answered r a).rkEnc = s.rkEnc := rfl
@[simp] theorem State.answered_cache (s : State) (r : List HostEvent) (a : Response) : (s.answered r a).cache = s.cache := rfl
@[simp] theorem State.answered_port (s : State) (r : List HostEvent) (a : Response) : (s.answered r a).port = ⟨r, a⟩ := rfl
@[simp] theorem State.answered_drawIndex (s : State) (r : List HostEvent) (a : Response) : (s.answered r a).drawIndex = s.drawIndex := rfl
@[simp] theorem State.answered_resetCount (s : State) (r : List HostEvent) (a : Response) : (s.answered r a).resetCount = s.resetCount := rfl

/-! ### clear -/

@[simp] theorem State.clear_ctrl (s : State) : (s.clear).ctrl = 0 := rfl
@[simp] theorem State.clear_done (s : State) : (s.clear).done = false := rfl
@[simp] theorem State.clear_err (s : State) : (s.clear).err = false := rfl
@[simp] theorem State.clear_keySet (s : State) : (s.clear).keySet = false := rfl
@[simp] theorem State.clear_kcipher (s : State) : (s.clear).kcipher = .base := rfl
@[simp] theorem State.clear_errcode (s : State) : (s.clear).errcode = 0 := rfl
@[simp] theorem State.clear_errinfo (s : State) : (s.clear).errinfo = 0 := rfl
@[simp] theorem State.clear_dlen (s : State) : (s.clear).dlen = 0 := rfl
@[simp] theorem State.clear_olen (s : State) : (s.clear).olen = 0 := rfl
@[simp] theorem State.clear_ivlen (s : State) : (s.clear).ivlen = 0 := rfl
@[simp] theorem State.clear_deltalen (s : State) : (s.clear).deltalen = 0 := rfl
@[simp] theorem State.clear_key (s : State) : (s.clear).key = Reg8.zero := rfl
@[simp] theorem State.clear_iv (s : State) : (s.clear).iv = Reg4.zero := rfl
@[simp] theorem State.clear_delta (s : State) : (s.clear).delta = Reg4.zero := rfl
@[simp] theorem State.clear_mem (s : State) : (s.clear).mem = s.mem := rfl
@[simp] theorem State.clear_rkEnc (s : State) : (s.clear).rkEnc = none := rfl
@[simp] theorem State.clear_cache (s : State) : (s.clear).cache = [] := rfl
@[simp] theorem State.clear_port (s : State) : (s.clear).port = s.port := rfl
@[simp] theorem State.clear_drawIndex (s : State) : (s.clear).drawIndex = s.drawIndex := rfl
@[simp] theorem State.clear_resetCount (s : State) : (s.clear).resetCount = s.resetCount := rfl

/-! ### hardReset -/

@[simp] theorem State.hardReset_ctrl (s : State) : (s.hardReset).ctrl = 0 := rfl
@[simp] theorem State.hardReset_done (s : State) : (s.hardReset).done = false := rfl
@[simp] theorem State.hardReset_err (s : State) : (s.hardReset).err = false := rfl
@[simp] theorem State.hardReset_keySet (s : State) : (s.hardReset).keySet = false := rfl
@[simp] theorem State.hardReset_kcipher (s : State) : (s.hardReset).kcipher = .base := rfl
@[simp] theorem State.hardReset_errcode (s : State) : (s.hardReset).errcode = 0 := rfl
@[simp] theorem State.hardReset_errinfo (s : State) : (s.hardReset).errinfo = 0 := rfl
@[simp] theorem State.hardReset_dlen (s : State) : (s.hardReset).dlen = 0 := rfl
@[simp] theorem State.hardReset_olen (s : State) : (s.hardReset).olen = 0 := rfl
@[simp] theorem State.hardReset_ivlen (s : State) : (s.hardReset).ivlen = 0 := rfl
@[simp] theorem State.hardReset_deltalen (s : State) : (s.hardReset).deltalen = 0 := rfl
@[simp] theorem State.hardReset_key (s : State) : (s.hardReset).key = Reg8.zero := rfl
@[simp] theorem State.hardReset_iv (s : State) : (s.hardReset).iv = Reg4.zero := rfl
@[simp] theorem State.hardReset_delta (s : State) : (s.hardReset).delta = Reg4.zero := rfl
@[simp] theorem State.hardReset_mem (s : State) : (s.hardReset).mem = [] := rfl
@[simp] theorem State.hardReset_rkEnc (s : State) : (s.hardReset).rkEnc = none := rfl
@[simp] theorem State.hardReset_cache (s : State) : (s.hardReset).cache = [] := rfl
@[simp] theorem State.hardReset_port (s : State) : (s.hardReset).port = ⟨s.port.pending, .none⟩ := rfl
@[simp] theorem State.hardReset_drawIndex (s : State) : (s.hardReset).drawIndex = s.drawIndex := rfl
@[simp] theorem State.hardReset_resetCount (s : State) : (s.hardReset).resetCount = s.resetCount + 1 := rfl

end Sys2Proof.Machine
end

