-- ==== Sys2Proof/Laws/Memory.lean ====
section
/-! SUPPORT. Laws of the memories: read after write, other bytes untouched, the canonical form kept. -/

namespace Sys2Proof.Machine

/-! ### One byte -/

@[simp] theorem Memory.find_write_self (m : List Host.Cell) (a : Nat) (b : Byte) :
    Memory.find (Memory.write m a b) a = some b := by
  induction m with
  | nil => simp [Memory.write, Memory.find]
  | cons c rest ih =>
    obtain ⟨k, v⟩ := c
    simp only [Memory.write]
    split
    · simp [Memory.find]
    · split
      · simp [Memory.find]
      · rename_i h1 h2
        have h3 : ¬k = a := fun h => h2 h.symm
        simp [Memory.find, ih, h3]

theorem Memory.find_write_ne (m : List Host.Cell) (a k : Nat) (b : Byte) (h : k ≠ a) :
    Memory.find (Memory.write m a b) k = Memory.find m k := by
  induction m with
  | nil => simp [Memory.write, Memory.find, Ne.symm h]
  | cons c rest ih =>
    obtain ⟨j, v⟩ := c
    simp only [Memory.write]
    split
    · simp [Memory.find, Ne.symm h]
    · split
      · rename_i h2
        simp [Memory.find, Ne.symm h, ← h2]
      · simp only [Memory.find, ih]

/-- What a write leaves listed. -/
theorem Memory.mem_write {m : List Host.Cell} {a : Nat} {b : Byte} {c : Host.Cell} (h : c ∈ Memory.write m a b) :
    c.1 = a ∨ c ∈ m := by
  induction m with
  | nil => simp only [Memory.write, List.mem_singleton] at h; exact .inl (by rw [h])
  | cons d rest ih =>
    obtain ⟨k, v⟩ := d
    simp only [Memory.write] at h
    split at h
    · rcases List.mem_cons.1 h with rfl | h
      · exact .inl rfl
      · exact .inr h
    · split at h
      · rcases List.mem_cons.1 h with rfl | h
        · exact .inl rfl
        · exact .inr (List.mem_cons_of_mem _ h)
      · rcases List.mem_cons.1 h with rfl | h
        · exact .inr List.mem_cons_self
        · exact (ih h).imp_right (List.mem_cons_of_mem _)

/-- A write keeps the canonical form. -/
theorem Memory.wf_write {m : List Host.Cell} (a : Nat) (b : Byte) (h : Memory.wf m) :
    Memory.wf (Memory.write m a b) := by
  induction m with
  | nil => simp [Memory.write, Memory.wf]
  | cons d rest ih =>
    obtain ⟨k, v⟩ := d
    have hr := List.pairwise_cons.1 h
    simp only [Memory.write]
    split
    · rename_i hak
      refine List.pairwise_cons.2 ⟨fun c hc => ?_, h⟩
      rcases List.mem_cons.1 hc with rfl | hc
      · exact hak
      · exact Nat.lt_trans hak (hr.1 c hc)
    · split
      · rename_i hak
        subst hak
        exact List.pairwise_cons.2 ⟨hr.1, hr.2⟩
      · rename_i h1 h2
        refine List.pairwise_cons.2 ⟨fun c hc => ?_, ih hr.2⟩
        rcases Memory.mem_write hc with hc | hc
        · show k < c.1
          omega
        · exact hr.1 c hc

/-- In the canonical form equal contents are equal data. -/
theorem Memory.ext_of_wf {m n : List Host.Cell} (hm : Memory.wf m) (hn : Memory.wf n)
    (h : ∀ a, Memory.find m a = Memory.find n a) : m = n := by
  have notIn : ∀ (l : List Host.Cell) (k : Nat), (∀ c ∈ l, k < c.1) → Memory.find l k = none := by
    intro l k hl
    induction l with
    | nil => rfl
    | cons d l ih =>
      obtain ⟨j, v⟩ := d
      have := hl (j, v) List.mem_cons_self
      have hj : j ≠ k := Nat.ne_of_gt this
      simp only [Memory.find, hj, if_false]
      exact ih fun c hc => hl c (List.mem_cons_of_mem _ hc)
  induction m generalizing n with
  | nil =>
    cases n with
    | nil => rfl
    | cons d n =>
      have := h d.1
      simp [Memory.find] at this
  | cons c m ih =>
    cases n with
    | nil =>
      have := h c.1
      simp [Memory.find] at this
    | cons d n =>
      have hc := List.pairwise_cons.1 hm
      have hd := List.pairwise_cons.1 hn
      have hk : c.1 = d.1 := by
        rcases Nat.lt_trichotomy c.1 d.1 with hlt | heq | hgt
        · have h1 := h c.1
          rw [notIn (d :: n) c.1 fun x hx => by
            rcases List.mem_cons.1 hx with rfl | hx
            · exact hlt
            · exact Nat.lt_trans hlt (hd.1 x hx)] at h1
          simp [Memory.find] at h1
        · exact heq
        · have h1 := h d.1
          rw [notIn (c :: m) d.1 fun x hx => by
            rcases List.mem_cons.1 hx with rfl | hx
            · exact hgt
            · exact Nat.lt_trans hgt (hc.1 x hx)] at h1
          simp [Memory.find] at h1
      have hv : c.2 = d.2 := by
        have h1 := h c.1
        simpa [Memory.find, hk] using h1
      have hcd : c = d := Prod.ext hk hv
      subst hcd
      congr 1
      apply ih hc.2 hd.2
      intro a
      by_cases ha : c.1 = a
      · subst ha
        rw [notIn m c.1 hc.1, notIn n c.1 hd.1]
      · have h1 := h a
        simpa [Memory.find, ha] using h1

/-! ### Byte sequences -/

theorem Memory.find_writeBytes (m : List Host.Cell) (a k : Nat) (bs : Bytes) :
    Memory.find (Memory.writeBytes m a bs) k
      = if a ≤ k ∧ k < a + bs.length then bs[k - a]? else Memory.find m k := by
  induction bs generalizing m a with
  | nil => simp [Memory.writeBytes]
  | cons b bs ih =>
    rw [Memory.writeBytes, ih]
    by_cases h1 : a + 1 ≤ k ∧ k < a + 1 + bs.length
    · rw [if_pos h1, if_pos (by simp only [List.length_cons]; omega)]
      have : k - a = (k - (a + 1)) + 1 := by omega
      rw [this, List.getElem?_cons_succ]
    · rw [if_neg h1]
      by_cases h2 : k = a
      · subst h2
        rw [if_pos (by simp only [List.length_cons]; omega)]
        simp
      · rw [Memory.find_write_ne _ _ _ _ h2, if_neg (by simp only [List.length_cons]; omega)]

theorem Memory.wf_writeBytes {m : List Host.Cell} (a : Nat) (bs : Bytes) (h : Memory.wf m) :
    Memory.wf (Memory.writeBytes m a bs) := by
  induction bs generalizing m a with
  | nil => exact h
  | cons b bs ih => exact ih (a + 1) (Memory.wf_write a b h)

theorem Memory.mem_writeBytes {m : List Host.Cell} {a : Nat} {bs : Bytes} {c : Host.Cell}
    (h : c ∈ Memory.writeBytes m a bs) : (a ≤ c.1 ∧ c.1 < a + bs.length) ∨ c ∈ m := by
  induction bs generalizing m a with
  | nil => exact .inr h
  | cons b bs ih =>
    simp only [List.length_cons]
    rcases ih h with h | h
    · exact .inl (by omega)
    · rcases Memory.mem_write h with h | h
      · exact .inl (by omega)
      · exact .inr h

/-! ### The state's memories -/

/-- A byte read depends on the written bytes and the reset count only. -/
theorem State.byteAt_congr {s t : State} (hm : t.mem = s.mem) (hr : t.resetCount = s.resetCount) (a : Nat) :
    t.byteAt a = s.byteAt a := by
  simp only [State.byteAt, hm, hr]

@[simp] theorem State.length_bytesAt (s : State) (a n : Nat) : (s.bytesAt a n).length = n := by simp [State.bytesAt]

@[simp] theorem State.length_din (s : State) (n : Nat) : (s.din n).length = n := by simp [State.din]

@[simp] theorem State.length_tbl (s : State) (m : Nat) : (s.tbl m).length = m := by simp [State.tbl]

/-- Reading a byte after a byte sequence was written. -/
theorem State.byteAt_putBytes (s : State) (a k : Nat) (bs : Bytes) :
    (s.putBytes a bs).byteAt k
      = if h : a ≤ k ∧ k < a + bs.length then bs[k - a]'(by omega) else s.byteAt k := by
  simp only [State.byteAt, State.putBytes_mem, State.putBytes_resetCount, Memory.find_writeBytes]
  by_cases h : a ≤ k ∧ k < a + bs.length
  · rw [if_pos h, dif_pos h, List.getElem?_eq_getElem (by omega)]
  · rw [if_neg h, dif_neg h]

/-- Reading a byte after an output was written. -/
theorem State.byteAt_putOutput (s : State) (k : Nat) (out : Bytes) :
    (s.putOutput out).byteAt k
      = if h : doutBase ≤ k ∧ k < doutBase + out.length then out[k - doutBase]'(by omega) else s.byteAt k :=
  State.byteAt_putBytes s doutBase k out

/-- Bytes read back are the bytes written. -/
theorem State.bytesAt_putBytes (s : State) (a : Nat) (bs : Bytes) : (s.putBytes a bs).bytesAt a bs.length = bs := by
  apply List.ext_getElem
  · simp
  intro i h1 h2
  simp only [State.bytesAt, List.getElem_map, List.getElem_range, State.byteAt_putBytes]
  rw [dif_pos (by omega)]
  congr 1
  omega

/-- The output read back is the output written (it fits the 32-bit `OLEN`). -/
theorem State.output_putOutput (s : State) (out : Bytes) (h : out.length < 2 ^ 32) :
    (s.putOutput out).output = out := by
  have hl : (s.putOutput out).olen.toNat = out.length := by
    simp only [State.putOutput_olen, BitVec.toNat_ofNat]
    omega
  rw [State.output, hl]
  exact State.bytesAt_putBytes s doutBase out

/-- The end of a command leaves the memories and the output as they are. -/
theorem State.output_complete (s : State) : s.complete.output = s.output := rfl

@[simp] theorem State.byteAt_complete (s : State) (k : Nat) : s.complete.byteAt k = s.byteAt k := rfl

@[simp] theorem State.byteAt_raise (s : State) (d : Bool) (e : CoreError) (k : Nat) :
    (s.raise d e).byteAt k = s.byteAt k := rfl

@[simp] theorem State.byteAt_drew (s : State) (n k : Nat) : (s.drew n).byteAt k = s.byteAt k := rfl

@[simp] theorem State.byteAt_touchCache (s : State) (p : Params) (v : Variant) (rks : List Bytes) (n k : Nat) :
    (s.touchCache p v rks n).byteAt k = s.byteAt k := rfl

@[simp] theorem State.byteAt_answered (s : State) (r : List HostEvent) (a : Response) (k : Nat) :
    (s.answered r a).byteAt k = s.byteAt k := rfl

/-- The word read back is the word written. -/
theorem State.wordAt_putBytes_wordBytes (s : State) (a : Nat) (w : Word) : (s.putBytes a (wordBytes w)).wordAt a = w := by
  simp only [State.wordAt, State.byteAt_putBytes, length_wordBytes]
  rw [dif_pos (by omega), dif_pos (by omega), dif_pos (by omega), dif_pos (by omega)]
  have e1 : a + 1 - a = 1 := by omega
  have e2 : a + 2 - a = 2 := by omega
  have e3 : a + 3 - a = 3 := by omega
  simp only [Nat.sub_self, e1, e2, e3]
  exact wordOfBytes_bytes w

end Sys2Proof.Machine
end

