-- ==== Sys2Proof/Laws/Modes.lean ====
section
/-! SUPPORT. Laws of padding, modes and chunks: lengths, and one unfolding lemma per function. -/

namespace Sys2Proof.Machine

/-! ### Padding -/

theorem padLength_pos (bs len : Nat) (hb : 0 < bs) : 1 ≤ padLength bs len ∧ padLength bs len ≤ bs := by
  have := Nat.mod_lt len hb
  simp only [padLength]
  omega

/-- The length of a padded buffer: rounded up for `ZEROS`, up to the next whole block for the others. -/
theorem length_pad (draw : Nat → Byte) (bs : Nat) (hb : 0 < bs) (scheme : Padding) (d : Bytes) :
    (pad draw bs scheme d).length
      = match scheme with
        | .zeros => if d.length % bs = 0 then d.length else d.length + padLength bs d.length
        | _ => d.length + padLength bs d.length := by
  have hp := padLength_pos bs d.length hb
  cases scheme with
  | zeros => simp only [pad]; split <;> simp [padLength]
  | pkcs7 => simp [pad]
  | ansiX923 => simp only [pad, List.length_append, length_zeroBytes, List.length_singleton]; omega
  | iso10126 =>
    simp only [pad, List.length_append, List.length_map, List.length_range, List.length_singleton]; omega

/-- A padded buffer is a whole number of blocks. -/
theorem length_pad_mod (draw : Nat → Byte) (bs : Nat) (hb : 0 < bs) (scheme : Padding) (d : Bytes) :
    (pad draw bs scheme d).length % bs = 0 := by
  have hm := Nat.mod_lt d.length hb
  have key : (d.length + padLength bs d.length) % bs = 0 := by
    have h1 : d.length + padLength bs d.length = d.length / bs * bs + bs := by
      have := Nat.div_add_mod' d.length bs
      simp only [padLength]
      omega
    rw [h1, ← Nat.succ_mul]
    exact Nat.mul_mod_left _ _
  rw [length_pad draw bs hb]
  cases scheme with
  | zeros => simp only; split <;> assumption
  | pkcs7 => exact key
  | ansiX923 => exact key
  | iso10126 => exact key

/-- Padding adds at most one block. -/
theorem length_pad_le (draw : Nat → Byte) (bs : Nat) (hb : 0 < bs) (scheme : Padding) (d : Bytes) :
    (pad draw bs scheme d).length ≤ d.length + bs := by
  have hp := padLength_pos bs d.length hb
  rw [length_pad draw bs hb]
  cases scheme with
  | zeros => simp only; split <;> omega
  | pkcs7 => simp only; omega
  | ansiX923 => simp only; omega
  | iso10126 => simp only; omega

/-- Removing padding never lengthens. -/
theorem length_unpad_le {bs : Nat} {scheme : Padding} {d z : Bytes} (h : unpad bs scheme d = .ok z) :
    z.length ≤ d.length := by
  have hz : (unpadZeros d).length ≤ d.length := by
    simp only [unpadZeros, List.length_reverse]
    have := (List.dropWhile_sublist (fun b : Byte => b == 0) (l := d.reverse)).length_le
    simpa using this
  have hl : ∀ z, unpadLength bs d = .ok z → z.length ≤ d.length := by
    intro z h
    simp only [unpadLength] at h
    split at h
    · cases h
    · split at h
      · cases h
      · cases h
        simp
  cases scheme with
  | zeros => simp only [unpad] at h; cases h; exact hz
  | pkcs7 => exact hl z h
  | ansiX923 => exact hl z h
  | iso10126 => exact hl z h

/-! ### Modes -/

/-- Running a step rule gives one output block per input block. -/
@[simp] theorem length_runBlocks (step : Nat → Bytes → Bytes → Bytes × Bytes) (i : Nat) (F : Bytes) (xs : List Bytes) :
    (runBlocks step i F xs).length = xs.length := by
  induction xs generalizing i F with
  | nil => rfl
  | cons X xs ih => simp [runBlocks, ih]

/-- Output blocks have the block size when the step rule keeps block and feedback at it. -/
theorem length_of_mem_runBlocks {step : Nat → Bytes → Bytes → Bytes × Bytes} {bs : Nat}
    (hstep : ∀ i F X, F.length = bs → X.length = bs → (step i F X).1.length = bs ∧ (step i F X).2.length = bs)
    {i : Nat} {F : Bytes} {xs : List Bytes} (hF : F.length = bs) (hxs : ∀ X ∈ xs, X.length = bs) {Y : Bytes}
    (hY : Y ∈ runBlocks step i F xs) : Y.length = bs := by
  induction xs generalizing i F with
  | nil => simp [runBlocks] at hY
  | cons X xs ih =>
    simp only [List.mem_cons, forall_eq_or_imp] at hxs
    simp only [runBlocks, List.mem_cons] at hY
    rcases hY with rfl | hY
    · exact (hstep i F X hF hxs.1).1
    · exact ih (hstep i F X hF hxs.1).2 hxs.2 hY

@[simp] theorem length_ctrBlock (bs : Nat) (iv : Bytes) (i : Nat) : (ctrBlock bs iv i).length = bs := by
  simp [ctrBlock]

/-- Every encrypting step keeps the block size. -/
theorem length_encStep {E : Bytes → Bytes} {bs : Nat} (hE : ∀ b, b.length = bs → (E b).length = bs) (m : Mode)
    {iv del : Bytes} (hdel : del.length = bs) (i : Nat) (F X : Bytes) (hF : F.length = bs) (hX : X.length = bs) :
    (encStep E bs m iv del i F X).1.length = bs ∧ (encStep E bs m iv del i F X).2.length = bs := by
  have hXF : (xorBytes X F).length = bs := by simp [hX, hF]
  have h1 := hE _ hXF
  have h2 := hE _ hF
  have h3 := hE X hX
  have h4 := hE (ctrBlock bs iv i) (by simp)
  cases m <;> simp [encStep, hX, hF, h1, h2, h3, h4, hdel]

/-- Every decrypting step keeps the block size. -/
theorem length_decStep {E D : Bytes → Bytes} {bs : Nat} (hE : ∀ b, b.length = bs → (E b).length = bs)
    (hD : ∀ b, b.length = bs → (D b).length = bs) (m : Mode) {iv del : Bytes} (hdel : del.length = bs) (i : Nat)
    (F X : Bytes) (hF : F.length = bs) (hX : X.length = bs) :
    (decStep E D bs m iv del i F X).1.length = bs ∧ (decStep E D bs m iv del i F X).2.length = bs := by
  have h2 := hE _ hF
  have h3 := hD X hX
  have h4 := hE (ctrBlock bs iv i) (by simp)
  cases m <;> simp [decStep, hX, hF, h2, h3, h4, hdel]

/-- The concatenation of blocks of one size. -/
theorem length_flatten_of_blocks {bs : Nat} (xs : List Bytes) (h : ∀ X ∈ xs, X.length = bs) :
    xs.flatten.length = xs.length * bs := by
  induction xs with
  | nil => simp
  | cons X xs ih =>
    simp only [List.mem_cons, forall_eq_or_imp] at h
    simp only [List.flatten_cons, List.length_append, ih h.2, h.1, List.length_cons, Nat.add_mul]
    omega

/-- `ModeEnc` gives as many bytes as it is given, for a whole number of blocks. -/
theorem length_modeEnc {E : Bytes → Bytes} {bs : Nat} (hE : ∀ b, b.length = bs → (E b).length = bs) (m : Mode)
    {iv del : Bytes} (hiv : iv.length = bs) (hdel : del.length = bs) (x : Bytes) (hx : x.length % bs = 0) :
    (modeEnc E bs m iv del x).length = x.length := by
  rw [modeEnc, length_flatten_of_blocks (bs := bs)]
  · rw [length_runBlocks, length_blocksOf, Nat.div_mul_cancel (Nat.dvd_of_mod_eq_zero hx)]
  · exact fun Y hY => length_of_mem_runBlocks (length_encStep hE m hdel) hiv
      (fun X hX => length_of_mem_blocksOf hX) hY

/-- `ModeDec` gives as many bytes as it is given, for a whole number of blocks. -/
theorem length_modeDec {E D : Bytes → Bytes} {bs : Nat} (hE : ∀ b, b.length = bs → (E b).length = bs)
    (hD : ∀ b, b.length = bs → (D b).length = bs) (m : Mode) {iv del : Bytes} (hiv : iv.length = bs)
    (hdel : del.length = bs) (x : Bytes) (hx : x.length % bs = 0) :
    (modeDec E D bs m iv del x).length = x.length := by
  rw [modeDec, length_flatten_of_blocks (bs := bs)]
  · rw [length_runBlocks, length_blocksOf, Nat.div_mul_cancel (Nat.dvd_of_mod_eq_zero hx)]
  · exact fun Y hY => length_of_mem_runBlocks (length_decStep hE hD m hdel) hiv
      (fun X hX => length_of_mem_blocksOf hX) hY

/-! ### Chunks -/

theorem chunkSize_pos (N T bs : Nat) (hb : 0 < bs) : 0 < chunkSize N T bs := by
  simp only [chunkSize]
  omega

/-- A chunk is a whole number of blocks long, except that the last one ends where the data end. -/
theorem chunkSize_mod (N T bs : Nat) : chunkSize N T bs % bs = 0 := by
  simp only [chunkSize]
  rcases Nat.le_total bs (N / T / bs * bs) with h | h
  · rw [Nat.max_eq_right h]; exact Nat.mul_mod_left _ _
  · rw [Nat.max_eq_left h]; exact Nat.mod_self _

/-- Without `LEGACY_CHUNK_RESTART` a chunked command runs the mode over the whole data. -/
@[simp] theorem runChunked_false (T bs : Nat) (m : Mode) (run : Bytes → Bytes) (x : Bytes) :
    runChunked false T bs m run x = run x := by
  simp [runChunked]

/-- In `ECB` a chunked command runs the mode over the whole data. -/
@[simp] theorem runChunked_ecb (legacy : Bool) (T bs : Nat) (run : Bytes → Bytes) (x : Bytes) :
    runChunked legacy T bs .ecb run x = run x := by
  simp [runChunked]

end Sys2Proof.Machine
end

