-- ==== Sys2Proof/Laws/Commands.lean ====
section
/-! SUPPORT. What each command and each event of the host port can do, said once: the cases of every meaning and of the
step. -/

namespace Sys2Proof.Machine

/-! ### The arms -/

theorem exec_nop (s : State) : exec .nop s = .next s.complete := rfl
theorem exec_setkey (n : BitVec 16) (s : State) : exec (.setkey n) s = .next (setKey Config.params n s) := rfl
theorem exec_encblk (s : State) : exec .encblk s = .next (blockCommand Config.params encBlock id s) := rfl
theorem exec_decblk (s : State) : exec .decblk s = .next (blockCommand Config.params decBlock List.reverse s) := rfl
theorem exec_encbuf (s : State) : exec .encbuf s = .next (encryptCommand Config.params s.modeEnc s) := rfl
theorem exec_decbuf (s : State) : exec .decbuf s = .next (decryptCommand Config.params s.modeDec s) := rfl
theorem exec_encchk (t : BitVec 16) (s : State) : exec (.encchk t) s = .next (encryptChunked Config.params t s) := rfl
theorem exec_decchk (t : BitVec 16) (s : State) : exec (.decchk t) s = .next (decryptChunked Config.params t s) := rfl
theorem exec_permute (m : BitVec 16) (s : State) : exec (.permute m) s = .next (permuteCommand Config.params m s) := rfl
theorem exec_clr (s : State) : exec .clr s = .next s.clear := rfl

/-! ### The commands, case by case -/

/-- The three ends of `SETKEY`: wrong length, failed expansion, key installed. -/
theorem setKey_cases (p : Params) (n : BitVec 16) (s : State) :
    (n.toNat ≠ keyLength s.ctrlCipher ∧ setKey p n s = s.dropKey.raise false (.sizeKey n.toNat))
    ∨ (n.toNat = keyLength s.ctrlCipher ∧ ∃ e,
        expandKey p.compKsConstByte s.ctrlCipher s.ctrlKeyadj (s.keyBytes n.toNat) = .error e
        ∧ setKey p n s = s.dropKey.raise false e)
    ∨ (n.toNat = keyLength s.ctrlCipher ∧ ∃ rk,
        expandKey p.compKsConstByte s.ctrlCipher s.ctrlKeyadj (s.keyBytes n.toNat) = .ok rk
        ∧ setKey p n s = (s.dropKey.installKey s.ctrlCipher rk).complete) := by
  simp only [setKey]
  by_cases hn : n.toNat = keyLength s.ctrlCipher
  · rw [if_neg (not_not.2 hn)]
    split
    · rename_i e he
      exact .inr (.inl ⟨hn, e, he, rfl⟩)
    · rename_i rk hrk
      exact .inr (.inr ⟨hn, rk, hrk, rfl⟩)
  · rw [if_pos hn]
    exact .inl ⟨hn, rfl⟩

/-- The three ends of a block command: no key, wrong block size, one block done. -/
theorem blockCommand_cases (p : Params) (op : Variant → List Bytes → Bytes → Bytes) (order : List Bytes → List Bytes)
    (s : State) :
    (∃ e, s.installed = .error e ∧ blockCommand p op order s = s.raise true e)
    ∨ (∃ v rks, s.installed = .ok (v, rks) ∧ s.dlen.toNat ≠ blockSize v
        ∧ blockCommand p op order s = s.raise true (.sizeBlock s.dlen))
    ∨ (∃ v rks, s.installed = .ok (v, rks) ∧ s.dlen.toNat = blockSize v
        ∧ blockCommand p op order s
          = ((s.touchCache p v (order rks) 1).putOutput (op v rks (s.din (blockSize v)))).complete) := by
  simp only [blockCommand]
  split
  · rename_i e he
    exact .inl ⟨e, he, rfl⟩
  · rename_i v rks hk
    by_cases hd : s.dlen.toNat = blockSize v
    · rw [if_neg (not_not.2 hd)]
      exact .inr (.inr ⟨v, rks, hk, hd, rfl⟩)
    · rw [if_pos hd]
      exact .inr (.inl ⟨v, rks, hk, hd, rfl⟩)

/-- The checks of a mode command pass exactly when all five hold. -/
theorem modeChecks_ok {p : Params} {s : State} {c : ModeSetup} :
    modeChecks p s = .ok c
      ↔ s.installed = .ok (c.variant, c.rks) ∧ modeOfCode s.ctrlModeCode = some c.mode
        ∧ s.dlen.toNat ≤ p.bufBytes ∧ (c.mode ≠ .ecb → s.ivlen.toNat = blockSize c.variant)
        ∧ (c.mode = .randomDelta → s.deltalen.toNat = blockSize c.variant) ∧ s.ctrlPad = c.padding := by
  obtain ⟨v, rks, m, pd⟩ := c
  simp only [modeChecks]
  constructor
  · intro h
    split at h
    · cases h
    · rename_i v' rks' hk
      split at h
      · cases h
      · rename_i m' hm
        split at h
        · cases h
        · rename_i hd
          split at h
          · cases h
          · rename_i hiv
            split at h
            · cases h
            · rename_i hdl
              cases h
              refine ⟨hk, hm, by omega, fun hne => ?_, fun he => ?_, rfl⟩
              · by_contra hx; exact hiv ⟨hne, hx⟩
              · by_contra hx; exact hdl ⟨he, hx⟩
  · rintro ⟨hk, hm, hd, hiv, hdl, hp⟩
    simp only [hk, hm]
    rw [if_neg (by omega), if_neg (fun h => h.2 (hiv h.1)), if_neg (fun h => h.2 (hdl h.1)), hp]

/-- The two ends of an encrypting mode command: a failed check, output written. -/
theorem encryptCommand_cases (p : Params) (run : ModeSetup → Bytes → Bytes) (s : State) :
    (∃ e, modeChecks p s = .error e ∧ encryptCommand p run s = s.raise true e)
    ∨ (∃ c, modeChecks p s = .ok c ∧ encryptCommand p run s
        = (((s.drew (drawCount c.bs c.padding s.dlen.toNat)).touchCache p c.variant c.rks
            ((s.paddedInput c).length / c.bs)).putOutput (run c (s.paddedInput c))).complete) := by
  simp only [encryptCommand]
  split
  · rename_i e he
    exact .inl ⟨e, he, rfl⟩
  · rename_i c hc
    exact .inr ⟨c, hc, rfl⟩

/-- The round keys in the order a decrypting mode command uses them. -/
def decryptOrder (c : ModeSetup) : List Bytes := if usesDecrypt c.mode then c.rks.reverse else c.rks

/-- The four ends of a decrypting mode command: a failed check, a partial block, bad padding, output written. -/
theorem decryptCommand_cases (p : Params) (run : ModeSetup → Bytes → Bytes) (s : State) :
    (∃ e, modeChecks p s = .error e ∧ decryptCommand p run s = s.raise true e)
    ∨ (∃ c, modeChecks p s = .ok c ∧ s.dlen.toNat % c.bs ≠ 0
        ∧ decryptCommand p run s = s.raise true (.sizeBuf s.dlen))
    ∨ (∃ c e, modeChecks p s = .ok c ∧ s.dlen.toNat % c.bs = 0
        ∧ unpad c.bs c.padding (run c (s.din s.dlen.toNat)) = .error e
        ∧ decryptCommand p run s
          = (s.touchCache p c.variant (decryptOrder c) (s.dlen.toNat / c.bs)).raise true e)
    ∨ (∃ c z, modeChecks p s = .ok c ∧ s.dlen.toNat % c.bs = 0
        ∧ unpad c.bs c.padding (run c (s.din s.dlen.toNat)) = .ok z
        ∧ decryptCommand p run s
          = ((s.touchCache p c.variant (decryptOrder c) (s.dlen.toNat / c.bs)).putOutput z).complete) := by
  simp only [decryptCommand]
  split
  · rename_i e he
    exact .inl ⟨e, he, rfl⟩
  · rename_i c hc
    by_cases hd : s.dlen.toNat % c.bs = 0
    · rw [if_neg (not_not.2 hd)]
      split
      · rename_i e he
        exact .inr (.inr (.inl ⟨c, e, hc, hd, he, rfl⟩))
      · rename_i z hz
        exact .inr (.inr (.inr ⟨c, z, hc, hd, hz, rfl⟩))
    · rw [if_pos hd]
      exact .inr (.inl ⟨c, hc, hd, rfl⟩)

/-- The two ends of `PERMUTE`. -/
theorem permuteCommand_cases (p : Params) (m : BitVec 16) (s : State) :
    (∃ e, permuteChecks p m.toNat s = some e ∧ permuteCommand p m s = s.raise true e)
    ∨ (permuteChecks p m.toNat s = none ∧ permuteCommand p m s
        = (s.putOutput (permute (s.din s.dlen.toNat) (s.tbl m.toNat) s.ctrlPorder s.ctrlPbase)).complete) := by
  simp only [permuteCommand]
  split
  · rename_i e he
    exact .inl ⟨e, he, rfl⟩
  · rename_i hn
    exact .inr ⟨hn, rfl⟩

/-- The checks of `PERMUTE` pass exactly when all six hold. -/
theorem permuteChecks_none {p : Params} {m : Nat} {s : State} :
    permuteChecks p m s = none
      ↔ s.dlen.toNat ≠ 0 ∧ m ≠ 0 ∧ s.dlen.toNat ≤ p.bufBytes ∧ m ≤ p.tblEntries ∧ m % 8 = 0
        ∧ firstOutOfRange (s.tbl m) s.ctrlPbase (8 * s.dlen.toNat) = none := by
  simp only [permuteChecks]
  split
  · simp [*]
  · split
    · simp [*]
    · split
      · simp only [reduceCtorEq, false_iff]; omega
      · split
        · simp only [reduceCtorEq, false_iff]; omega
        · split
          · simp only [reduceCtorEq, false_iff]; omega
          · simp only [Option.map_eq_none_iff]
            constructor
            · intro h
              exact ⟨by omega, by omega, by omega, by omega, by omega, h⟩
            · exact fun h => h.2.2.2.2.2

/-! ### The step -/

/-- A write to `CMD` is the only event that runs a command. -/
theorem commandOf_cmd (p : Params) (w : Word) : commandOf p 32 cmdOffset w = some w := by
  simp [commandOf, accessTarget, locate, locateRegister, tblBase, cmdOffset]

/-- An event that runs no command, and what it does. -/
theorem step_idle {s : State} (h : s.port.pending = []) : step s = .next s := by
  simp only [step, h]

theorem step_event {s : State} {ev : HostEvent} {rest : List HostEvent} (h : s.port.pending = ev :: rest) :
    step s = performEvent ev rest s := by
  simp only [step, h]

/-- The word a step fetches from `withFetchWord` is the one put there. -/
theorem step_withFetchWord (s : State) (nbits w : Nat) :
    step (s.withFetchWord nbits w) = runCommand (tableWord nbits w)
      ((s.withFetchWord nbits w).answered s.port.pending .ack) := by
  rw [step_event (rest := s.port.pending) rfl]
  simp only [performEvent, commandOf_cmd]

end Sys2Proof.Machine
end

