-- ==== Sys2Proof/Laws/Ctrl.lean ====
section
/-! SUPPORT. What a command reads from `CTRL` is what the table of `10_state.md` R22 says of the bits: one lemma per field. -/

namespace Sys2Proof.Machine

open Sys2Proof.Safety

/-- A field of a word, as a number. -/
theorem toNat_extract (w : Word) (start len : Nat) :
    (w.extractLsb' start len).toNat = w.toNat / 2 ^ start % 2 ^ len := by
  simp [Nat.shiftRight_eq_div_pow]

/-- One bit of a word, as a number. -/
theorem toNat_getLsbD (w : Word) (k : Nat) : (w.getLsbD k).toNat = w.toNat / 2 ^ k % 2 := by
  rw [BitVec.getLsbD, Nat.toNat_testBit]

theorem variantCode_toNat (v : Variant) : (variantCode v).toNat = cipherCode v := by cases v <;> rfl

theorem ctrlCipher_iff (s : State) (v : Variant) : s.ctrlCipher = v ↔ cipherField s = cipherCode v := by
  have codes : ∀ (c : BitVec 2) (v : Variant), variantOfCode c = v ↔ c.toNat = cipherCode v := by
    intro c v; revert c; cases v <;> decide
  exact (codes _ v).trans (by rw [toNat_extract s.ctrl 0 2]; simp [cipherField])

theorem ctrlKeyadj_iff (s : State) : s.ctrlKeyadj = true ↔ keyadjField s = 1 := by
  rw [show keyadjField s = (s.ctrl.getLsbD 2).toNat from (toNat_getLsbD s.ctrl 2).symm, State.ctrlKeyadj]
  cases s.ctrl.getLsbD 2 <;> simp

theorem ctrlKeyadj_false_iff (s : State) : s.ctrlKeyadj = false ↔ keyadjField s = 0 := by
  rw [show keyadjField s = (s.ctrl.getLsbD 2).toNat from (toNat_getLsbD s.ctrl 2).symm, State.ctrlKeyadj]
  cases s.ctrl.getLsbD 2 <;> simp

theorem ctrlModeCode_toNat (s : State) : s.ctrlModeCode.toNat = modeField s :=
  toNat_extract s.ctrl 4 3

theorem ctrlMode_iff (s : State) (m : Mode) : modeOfCode s.ctrlModeCode = some m ↔ modeField s = modeCode m := by
  have codes : ∀ (c : BitVec 3) (m : Mode), modeOfCode c = some m ↔ c.toNat = modeCode m := by
    intro c m; revert c; cases m <;> decide
  rw [codes, ctrlModeCode_toNat]

theorem ctrlMode_none_iff (s : State) : modeOfCode s.ctrlModeCode = none ↔ modeField s = 7 := by
  have codes : ∀ c : BitVec 3, modeOfCode c = none ↔ c.toNat = 7 := by decide
  rw [codes, ctrlModeCode_toNat]

theorem ctrlPad_iff (s : State) (pd : Padding) : s.ctrlPad = pd ↔ padField s = padCode pd := by
  have codes : ∀ (c : BitVec 2) (pd : Padding), paddingOfCode c = pd ↔ c.toNat = padCode pd := by
    intro c pd; revert c; cases pd <;> decide
  exact (codes _ pd).trans (by rw [toNat_extract s.ctrl 8 2]; rfl)

theorem ctrlPorder_iff (s : State) (o : BitOrder) : s.ctrlPorder = o ↔ porderField s = orderCode o := by
  rw [show porderField s = (s.ctrl.getLsbD 10).toNat from (toNat_getLsbD s.ctrl 10).symm, State.ctrlPorder]
  cases s.ctrl.getLsbD 10 <;> cases o <;> simp [orderCode]

theorem ctrlPbase_eq (s : State) : s.ctrlPbase = pbaseField s := toNat_getLsbD s.ctrl 11

end Sys2Proof.Machine
end

