-- ==== Sys2Proof/Laws/Port.lean ====
section
/-! SUPPORT. The address map and the accesses of the host port, said once: where each offset goes, and what a read, a write
and a bad access make of the state. -/

namespace Sys2Proof.Machine

/-! ### The address map -/

/-- The numbers of the address map in the default build, for `omega`. -/
theorem map_numbers : tblBase = 0x00400 ∧ dinBase = 0x10000 ∧ doutBase = 0x20000 ∧ cmdOffset = 0x00014
    ∧ Config.params.tblEntries = 256 ∧ Config.params.bufBytes = 4096 := ⟨rfl, rfl, rfl, rfl, rfl, rfl⟩

/-- A multiple of 4 at or above `TBL` is looked up among the memories. -/
theorem locate_memory (p : Params) {a : Nat} (h4 : a % 4 = 0) (ht : tblBase ≤ a) : locate p a = locateMemory p a := by
  rw [locate, if_neg (not_not_intro h4), if_neg (Nat.not_lt.mpr ht)]

/-- The words of `TBL`. -/
theorem locate_tbl (j : Nat) (hj : j < 256) : locate Config.params (tblBase + 4 * j) = some (.tbl j) := by
  have hm := map_numbers
  rw [locate_memory _ (by omega) (by omega), locateMemory, if_pos (by omega)]
  congr 2
  omega

/-- The words of `DIN`. -/
theorem locate_din (j : Nat) (hj : j < 1024) : locate Config.params (dinBase + 4 * j) = some (.din j) := by
  have hm := map_numbers
  rw [locate_memory _ (by omega) (by omega), locateMemory, if_neg (by omega), if_pos (by omega)]
  congr 2
  omega

/-- The words of `DOUT`. -/
theorem locate_dout (j : Nat) (hj : j < 1028) : locate Config.params (doutBase + 4 * j) = some (.dout j) := by
  have hm := map_numbers
  rw [locate_memory _ (by omega) (by omega), locateMemory, if_neg (by omega), if_neg (by omega), if_pos (by omega)]
  congr 2
  omega

/-- The words of `KEY`. -/
theorem locate_key (j : Fin 8) : locate Config.params (0x00040 + 4 * j) = some (.key j) := by revert j; decide

/-- The words of `IV`. -/
theorem locate_iv (j : Fin 4) : locate Config.params (0x00060 + 4 * j) = some (.iv j) := by revert j; decide

/-- The words of `DELTA`. -/
theorem locate_delta (j : Fin 4) : locate Config.params (0x00070 + 4 * j) = some (.delta j) := by revert j; decide

theorem ite_some_eq_none {α : Type} {c : Prop} [Decidable c] {x : α} {y : Option α} :
    (if c then some x else y) = none ↔ ¬c ∧ y = none := by
  by_cases h : c <;> simp [h]

theorem ite_none_eq_none {α : Type} {c : Prop} [Decidable c] {y : Option α} :
    (if c then none else y) = none ↔ c ∨ y = none := by
  by_cases h : c <;> simp [h]

/-- An offset is unmapped exactly when it is no multiple of 4 in one of the ranges. -/
theorem locate_eq_none (a : Nat) : locate Config.params a = none ↔
    ¬(a % 4 = 0 ∧ (a ≤ 0x00024 ∨ (0x00040 ≤ a ∧ a ≤ 0x0007C) ∨ (0x00400 ≤ a ∧ a < 0x00800)
      ∨ (0x10000 ≤ a ∧ a < 0x11000) ∨ (0x20000 ≤ a ∧ a < 0x21010))) := by
  have hm := map_numbers
  rw [locate, ite_none_eq_none]
  by_cases h : a < tblBase
  · rw [if_pos h]
    simp only [locateRegister, ite_some_eq_none, and_true]
    omega
  · rw [if_neg h]
    simp only [locateMemory, ite_some_eq_none, and_true]
    omega

theorem ite_some_eq_some {α : Type} {c : Prop} [Decidable c] {x z : α} {y : Option α} :
    (if c then some x else y) = some z ↔ (c ∧ x = z) ∨ (¬c ∧ y = some z) := by
  by_cases h : c <;> simp [h]

theorem ite_none_eq_some {α : Type} {c : Prop} [Decidable c] {z : α} {y : Option α} :
    (if c then none else y) = some z ↔ ¬c ∧ y = some z := by
  by_cases h : c <;> simp [h]

/-- No register is a word of a memory. -/
theorem locateRegister_ne_memory (a j : Nat) :
    locateRegister a ≠ some (.tbl j) ∧ locateRegister a ≠ some (.din j) ∧ locateRegister a ≠ some (.dout j) := by
  simp [locateRegister, ite_some_eq_some]

/-- A mapped word of a memory lies inside it. -/
theorem locate_bounds {a : Nat} {l : Location} (h : locate Config.params a = some l) :
    (∀ j, l = .tbl j → j < 256) ∧ (∀ j, l = .din j → j < 1024) ∧ (∀ j, l = .dout j → j < 1028) := by
  have hm := map_numbers
  rw [locate, ite_none_eq_some] at h
  by_cases ha : a < tblBase
  · rw [if_pos ha] at h
    have hr := locateRegister_ne_memory a
    exact ⟨fun j e => absurd (h.2.trans (congrArg some e)) (hr j).1,
      fun j e => absurd (h.2.trans (congrArg some e)) (hr j).2.1,
      fun j e => absurd (h.2.trans (congrArg some e)) (hr j).2.2⟩
  · rw [if_neg ha] at h
    refine ⟨?_, ?_, ?_⟩ <;> rintro j rfl <;>
      simp only [locateMemory, ite_some_eq_some, reduceCtorEq, and_false, false_or, or_false, Location.tbl.injEq,
        Location.din.injEq, Location.dout.injEq] at h <;>
      omega

/-- `CMD` stands at one offset only. -/
theorem locate_eq_cmd {p : Params} {a : Nat} (h : locate p a = some .cmd) : a = cmdOffset := by
  rw [locate, ite_none_eq_some] at h
  by_cases ha : a < tblBase
  · rw [if_pos ha] at h
    have hr := h.2
    simp only [locateRegister, ite_some_eq_some, reduceCtorEq, and_false, false_or] at hr
    tauto
  · rw [if_neg ha] at h
    simp [locateMemory, ite_some_eq_some] at h

/-! ### Accesses -/

/-- A read of a mapped offset answers its word. -/
theorem step_read {s : State} {a : Nat} {l : Location} {rest : List HostEvent} (hl : locate Config.params a = some l)
    (h : s.port.pending = .read 32 a :: rest) : step s = .next (s.answered rest (.data (readLocation s l))) := by
  rw [step_event h]
  simp only [performEvent, hostRead, accessTarget, if_true, hl]

/-- A write of a mapped offset other than `CMD` is `writeLocation`. -/
theorem step_write {s : State} {a : Nat} {l : Location} {w : Word} {rest : List HostEvent}
    (hl : locate Config.params a = some l) (hne : l ≠ .cmd) (h : s.port.pending = .write 32 a w :: rest) :
    step s = .next (writeLocation (s.answered rest .ack) l w) := by
  have hc : commandOf Config.params 32 a w = none := by
    simp only [commandOf, accessTarget, if_true, hl]
    split
    · rename_i heq
      exact absurd (Option.some.inj heq) hne
    · rfl
  rw [step_event h]
  simp only [performEvent, hc, hostWrite, accessTarget, if_true, hl]

/-- A write to `CMD` runs the command word. -/
theorem step_command {s : State} {w : Word} {rest : List HostEvent} (h : s.port.pending = .write 32 0x00014 w :: rest) :
    step s = runCommand w (s.answered rest .ack) := by
  have hc : commandOf Config.params 32 0x00014 w = some w := commandOf_cmd Config.params w
  rw [step_event h]
  simp only [performEvent, hc]

/-- A bad access gets an error response and changes nothing else. -/
theorem step_bad_read {s : State} {bits a : Nat} {rest : List HostEvent} (hb : accessTarget Config.params bits a = none)
    (h : s.port.pending = .read bits a :: rest) : step s = .next (s.answered rest .busError) := by
  rw [step_event h]
  simp only [performEvent, hostRead, hb]

theorem step_bad_write {s : State} {bits a : Nat} {w : Word} {rest : List HostEvent}
    (hb : accessTarget Config.params bits a = none) (h : s.port.pending = .write bits a w :: rest) :
    step s = .next (s.answered rest .busError) := by
  rw [step_event h]
  simp only [performEvent, commandOf, hostWrite, hb]

/-- Everything a step can do: nothing, one access, a reset, or one command word. -/
theorem step_cases (s : State) :
    (s.port.pending = [] ∧ step s = .next s)
    ∨ (∃ rest, step s = .next (s.answered rest .busError))
    ∨ (∃ rest l, step s = .next (s.answered rest (.data (readLocation s l))))
    ∨ (∃ rest a l w, locate Config.params a = some l ∧ step s = .next (writeLocation (s.answered rest .ack) l w))
    ∨ (∃ rest, step s = .next (hostReset rest s))
    ∨ (∃ rest w, step s = runCommand w (s.answered rest .ack)) := by
  rcases hp : s.port.pending with _ | ⟨ev, rest⟩
  · exact .inl ⟨rfl, step_idle hp⟩
  rcases ev with ⟨bits, a⟩ | ⟨bits, a, w⟩ | _
  · cases ht : accessTarget Config.params bits a with
    | none => exact .inr (.inl ⟨rest, step_bad_read ht hp⟩)
    | some l =>
      refine .inr (.inr (.inl ⟨rest, l, ?_⟩))
      rw [step_event hp]
      simp only [performEvent, hostRead, ht]
  · cases ht : accessTarget Config.params bits a with
    | none => exact .inr (.inl ⟨rest, step_bad_write ht hp⟩)
    | some l =>
      have hl : locate Config.params a = some l := by
        simp only [accessTarget] at ht
        split at ht
        · exact ht
        · cases ht
      by_cases hc : l = .cmd
      · subst hc
        refine .inr (.inr (.inr (.inr (.inr ⟨rest, w, ?_⟩))))
        rw [step_event hp]
        simp only [performEvent, commandOf, ht]
      · refine .inr (.inr (.inr (.inl ⟨rest, a, l, w, hl, ?_⟩)))
        have hn : commandOf Config.params bits a w = none := by
          simp only [commandOf, ht]
          split
          · rename_i heq
            exact absurd (Option.some.inj heq) hc
          · rfl
        rw [step_event hp]
        simp only [performEvent, hn, hostWrite, ht]
  · exact .inr (.inr (.inr (.inr (.inl ⟨rest, step_event hp⟩))))

end Sys2Proof.Machine
end

