-- ==== Sys2Proof/Laws/Ends.lean ====
section
/-! SUPPORT. How a command can end, said once for all ten: every later fact about all commands is a case analysis on
`Ends`. -/

namespace Sys2Proof.Machine

open Sys2Proof.Safety

/-- The caches a data command can leave: the old one, or the one after some block operations with the installed keys. -/
def CacheAfter (s : State) (c : List CacheEntry) : Prop :=
  c = s.cache ∨ ∃ v rks r n, s.installed = .ok (v, rks) ∧ (r = rks ∨ r = rks.reverse)
    ∧ c = (s.touchCache Config.params v r n).cache

/-- How many draws a data command that ends well makes. -/
def drawsOf (i : Instr) (s : State) : Nat :=
  if (i = .encbuf ∨ ∃ n, i = .encchk n) ∧ s.ctrlPad = .iso10126
  then padLength (blockSize s.kcipher) s.dlen.toNat - 1 else 0

/-- The ends of a command `i` from `s`. -/
inductive Ends (i : Instr) (s t : State) : Prop
  | clr (hi : i = .clr) (ht : t = s.clear)
  | nop (hi : i = .nop) (ht : t = s.complete)
  | keyRejected (n : BitVec 16) (hi : i = .setkey n) (e : CoreError) (ht : t = s.dropKey.raise false e)
  | keyInstalled (n : BitVec 16) (hi : i = .setkey n) (rk : List Bytes) (hn : rk.length = roundCount s.ctrlCipher)
      (hk : ∀ k ∈ rk, k.length = roundKeyLength s.ctrlCipher)
      (ht : t = (s.dropKey.installKey s.ctrlCipher rk).complete)
  | dataFailed (hi : isDataCommand i = true) (e : CoreError) (c : List CacheEntry) (hc : CacheAfter s c)
      (ht : t = State.raise { s with cache := c } true e)
  | dataDone (hi : isDataCommand i = true) (out : Bytes) (hl : out.length ≤ 4112) (c : List CacheEntry) (hc : CacheAfter s c)
      (ht : t = ((State.drew { s with cache := c } (drawsOf i s)).putOutput out).complete)

theorem CacheAfter.same {s : State} : CacheAfter s s.cache := .inl rfl

theorem CacheAfter.touch {s : State} {v : Variant} {rks r : List Bytes} (n : Nat) (h : s.installed = .ok (v, rks))
    (hr : r = rks ∨ r = rks.reverse) : CacheAfter s (s.touchCache Config.params v r n).cache :=
  .inr ⟨v, rks, r, n, h, hr, rfl⟩

theorem blockSize_le (v : Variant) : blockSize v ≤ 16 := by cases v <;> decide

/-- The blocks of `IV` and `DELTA` have the block size. -/
theorem length_ivBlock (s : State) (v : Variant) : (s.ivBlock (blockSize v)).length = blockSize v := by
  have := blockSize_le v
  simp only [State.ivBlock, Reg4.bytes, List.length_take, List.length_append, length_wordBytes]
  omega

theorem length_deltaBlock (s : State) (v : Variant) : (s.deltaBlock (blockSize v)).length = blockSize v := by
  have := blockSize_le v
  simp only [State.deltaBlock, Reg4.bytes, List.length_take, List.length_append, length_wordBytes]
  omega

/-- The mode engine keeps the length of a whole number of blocks. -/
theorem State.length_modeEnc (s : State) (c : ModeSetup) (x : Bytes) (h : x.length % c.bs = 0) :
    (s.modeEnc c x).length = x.length :=
  Machine.length_modeEnc (fun b hb => length_encBlock _ _ b hb) _ (length_ivBlock s _) (length_deltaBlock s _) x h

theorem State.length_modeDec (s : State) (c : ModeSetup) (x : Bytes) (h : x.length % c.bs = 0) :
    (s.modeDec c x).length = x.length :=
  Machine.length_modeDec (fun b hb => length_encBlock _ _ b hb) (fun b hb => length_decBlock _ _ b hb) _
    (length_ivBlock s _) (length_deltaBlock s _) x h

/-- The padded input is a whole number of blocks and fits `DOUT`. -/
theorem length_paddedInput {s : State} {c : ModeSetup} (hc : modeChecks Config.params s = .ok c) :
    (s.paddedInput c).length % c.bs = 0 ∧ (s.paddedInput c).length ≤ 4112 := by
  have hd : s.dlen.toNat ≤ 4096 := (modeChecks_ok.1 hc).2.2.1
  have hb : c.bs ≤ 16 := blockSize_le c.variant
  have hp := length_pad_le s.draw c.bs (blockSize_pos _) c.padding (s.din s.dlen.toNat)
  rw [State.length_din] at hp
  exact ⟨length_pad_mod _ _ (blockSize_pos _) _ _, by rw [State.paddedInput]; omega⟩

/-- The draws of an encrypting mode command. -/
theorem drawCount_eq {s : State} {c : ModeSetup} {i : Instr} (hi : i = .encbuf ∨ ∃ n, i = .encchk n)
    (hc : modeChecks Config.params s = .ok c) : drawCount c.bs c.padding s.dlen.toNat = drawsOf i s := by
  have h := modeChecks_ok.1 hc
  have hv : s.kcipher = c.variant := (State.installed_ok.1 h.1).2.2.1
  rw [drawsOf, hv, h.2.2.2.2.2, ModeSetup.bs]
  simp only [hi, true_and]
  cases c.padding <;> simp [drawCount]

theorem drawsOf_eq_zero {i : Instr} (s : State) (h : ¬(i = .encbuf ∨ ∃ n, i = .encchk n)) : drawsOf i s = 0 :=
  if_neg fun hc => h hc.1

theorem encryptCommand_ends {i : Instr} {s : State} {run : ModeSetup → Bytes → Bytes}
    (hi : i = .encbuf ∨ ∃ n, i = .encchk n) (hk : isDataCommand i = true) (hrun : ∀ c x, run c x = s.modeEnc c x) :
    Ends i s (encryptCommand Config.params run s) := by
  rcases encryptCommand_cases Config.params run s with ⟨e, _, h⟩ | ⟨c, hc, h⟩
  · exact .dataFailed hk e s.cache .same h
  · have hp := length_paddedInput hc
    refine .dataDone hk (run c (s.paddedInput c)) ?_ _ (.touch ((s.paddedInput c).length / c.bs) (modeChecks_ok.1 hc).1 (.inl rfl)) (h.trans ?_)
    · rw [hrun, State.length_modeEnc _ _ _ hp.1]; exact hp.2
    · rw [drawCount_eq hi hc]; rfl

theorem decryptCommand_ends {i : Instr} {s : State} {run : ModeSetup → Bytes → Bytes}
    (hi : ¬(i = .encbuf ∨ ∃ n, i = .encchk n)) (hk : isDataCommand i = true) (hrun : ∀ c x, run c x = s.modeDec c x) :
    Ends i s (decryptCommand Config.params run s) := by
  have order : ∀ c : ModeSetup, decryptOrder c = c.rks ∨ decryptOrder c = c.rks.reverse := by
    intro c
    simp only [decryptOrder]
    split
    · exact .inr rfl
    · exact .inl rfl
  rcases decryptCommand_cases Config.params run s with
    ⟨e, _, h⟩ | ⟨c, _, _, h⟩ | ⟨c, e, hc, _, _, h⟩ | ⟨c, z, hc, hm, hz, h⟩
  · exact .dataFailed hk e s.cache .same h
  · exact .dataFailed hk _ s.cache .same h
  · exact .dataFailed hk e _ (.touch (s.dlen.toNat / c.bs) (modeChecks_ok.1 hc).1 (order c)) h
  · refine .dataDone hk z ?_ _ (.touch (s.dlen.toNat / c.bs) (modeChecks_ok.1 hc).1 (order c)) (h.trans ?_)
    · have hd : s.dlen.toNat ≤ 4096 := (modeChecks_ok.1 hc).2.2.1
      have hl := length_unpad_le hz
      rw [hrun, State.length_modeDec _ _ _ (by rwa [State.length_din]), State.length_din] at hl
      omega
    · rw [drawsOf_eq_zero s hi]; rfl

theorem blockCommand_ends {i : Instr} {s : State} {op : Variant → List Bytes → Bytes → Bytes}
    {order : List Bytes → List Bytes} (hi : ¬(i = .encbuf ∨ ∃ n, i = .encchk n)) (hk : isDataCommand i = true)
    (hop : ∀ v r b, b.length = blockSize v → (op v r b).length = blockSize v)
    (hord : ∀ r, order r = r ∨ order r = r.reverse) : Ends i s (blockCommand Config.params op order s) := by
  rcases blockCommand_cases Config.params op order s with ⟨e, _, h⟩ | ⟨v, r, _, _, h⟩ | ⟨v, r, hi', _, h⟩
  · exact .dataFailed hk e s.cache .same h
  · exact .dataFailed hk _ s.cache .same h
  · refine .dataDone hk (op v r (s.din (blockSize v))) ?_ _ (.touch 1 hi' (hord r)) (h.trans ?_)
    · have := blockSize_le v
      rw [hop _ _ _ (State.length_din s _)]; omega
    · rw [drawsOf_eq_zero s hi]; rfl

/-- Every command ends in one of the six ways. -/
theorem exec_ends {i : Instr} {s t : State} (h : exec i s = .next t) : Ends i s t := by
  cases i with
  | nop => cases h; exact .nop rfl rfl
  | clr => cases h; exact .clr rfl rfl
  | setkey n =>
    cases h
    rcases setKey_cases Config.params n s with ⟨_, h⟩ | ⟨_, e, _, h⟩ | ⟨_, rk, hk, h⟩
    · exact .keyRejected n rfl _ h
    · exact .keyRejected n rfl e h
    · exact .keyInstalled n rfl rk (expandKey_ok hk).1 (expandKey_ok hk).2 h
  | encblk =>
    cases h
    exact blockCommand_ends (by simp) rfl (fun v r b hb => length_encBlock v r b hb) fun r => .inl rfl
  | decblk =>
    cases h
    exact blockCommand_ends (by simp) rfl (fun v r b hb => length_decBlock v r b hb) fun r => .inr rfl
  | encbuf => cases h; exact encryptCommand_ends (.inl rfl) rfl fun _ _ => rfl
  | decbuf => cases h; exact decryptCommand_ends (by simp) rfl fun _ _ => rfl
  | encchk n => cases h; exact encryptCommand_ends (.inr ⟨n, rfl⟩) rfl fun c x => runChunked_false _ _ _ _ x
  | decchk n => cases h; exact decryptCommand_ends (by simp) rfl fun c x => runChunked_false _ _ _ _ x
  | permute m =>
    cases h
    rcases permuteCommand_cases Config.params m s with ⟨e, _, h⟩ | ⟨hc, h⟩
    · exact .dataFailed rfl e s.cache .same h
    · refine .dataDone rfl (permute (s.din s.dlen.toNat) (s.tbl m.toNat) s.ctrlPorder s.ctrlPbase) ?_ s.cache .same
        (h.trans ?_)
      · have : m.toNat ≤ 256 := (permuteChecks_none.1 hc).2.2.2.1
        rw [length_permute, State.length_tbl]; omega
      · rw [drawsOf_eq_zero s (by simp)]; rfl

/-- Every command answers a next state. -/
theorem exec_next (i : Instr) (s : State) : ∃ t, exec i s = .next t := by cases i <;> exact ⟨_, rfl⟩

end Sys2Proof.Machine
end

