-- ==== Sys2Proof/Tests/Slice0.lean ====
section
/-! SUPPORT. Tests: the well-formedness smoke, a written-out word per command, one-step tests with the spec's own values,
and for every statement with hypotheses a witness that meets them. Expected values are the spec's (`95_test_vectors.md`
and the worked examples of the rules), never the model's own answers. -/

namespace Sys2Proof.Tests

open Sys2Proof.Machine Sys2Proof.Safety

/-! ### Small states -/

/-- The next state of an outcome, to look at its fields. -/
def after (o : Host.Outcome State Fault Refusal) : State :=
  match o with
  | .next t => t
  | .fault _ => State.reset
  | .refused _ => State.reset

/-- The first four bytes, as a word. -/
def wordAtHead (bs : Bytes) : Word := wordOfBytes (bs.getD 0 0) (bs.getD 1 0) (bs.getD 2 0) (bs.getD 3 0)

/-- A 16-byte register from its bytes. -/
def reg4 (bs : Bytes) : Reg4 :=
  ⟨wordAtHead bs, wordAtHead (bs.drop 4), wordAtHead (bs.drop 8), wordAtHead (bs.drop 12)⟩

/-- `LDIN`: bytes in `DIN` and their number in `DLEN`. -/
def loadDin (s : State) (bs : Bytes) : State := { s.putBytes dinBase bs with dlen := BitVec.ofNat 32 bs.length }

/-- `LDTBL`: entries in `TBL`. -/
def loadTbl (s : State) (ws : List Word) : State := s.putBytes tblBase (ws.flatMap wordBytes)

/-- A key of variant `v` with these round keys is installed. -/
def keyed (s : State) (v : Variant) (rks : List Bytes) : State := s.installKey v rks

/-- Round keys of the right number and lengths, all zero. -/
def zeroKeys (v : Variant) : List Bytes := List.replicate (roundCount v) (zeroBytes (roundKeyLength v))

/-- The key of R156. -/
def keyR156 : Bytes := [0x13, 0x34, 0x57, 0x79, 0x9B, 0xBC, 0xDF, 0xF1]

/-- The round keys R156 prints for it. -/
def roundKeysR156 : List Bytes := [
  [0x1B, 0x02, 0xEF, 0xFC, 0x70, 0x72], [0x79, 0xAE, 0xD9, 0xDB, 0xC9, 0xE5], [0x55, 0xFC, 0x8A, 0x42, 0xCF, 0x99],
  [0x72, 0xAD, 0xD6, 0xDB, 0x35, 0x1D], [0x7C, 0xEC, 0x07, 0xEB, 0x53, 0xA8], [0x63, 0xA5, 0x3E, 0x50, 0x7B, 0x2F],
  [0xEC, 0x84, 0xB7, 0xF6, 0x18, 0xBC], [0xF7, 0x8A, 0x3A, 0xC1, 0x3B, 0xFB], [0xE0, 0xDB, 0xEB, 0xED, 0xE7, 0x81],
  [0xB1, 0xF3, 0x47, 0xBA, 0x46, 0x4F], [0x21, 0x5F, 0xD3, 0xDE, 0xD3, 0x86], [0x75, 0x71, 0xF5, 0x94, 0x67, 0xE9],
  [0x97, 0xC5, 0xD1, 0xFA, 0xBA, 0x41], [0x5F, 0x43, 0xB7, 0xF2, 0xE7, 0x3A], [0xBF, 0x91, 0x8D, 0x3D, 0x3F, 0x0A],
  [0xCB, 0x3D, 0x8B, 0x0E, 0x17, 0xF5]]

/-- The IV, delta and data of R243. -/
def ivR243 : Bytes := [0xF0, 0xE1, 0xD2, 0xC3, 0xB4, 0xA5, 0x96, 0x87]
def deltaR243 : Bytes := [0x01, 0x02, 0x04, 0x08, 0x10, 0x20, 0x40, 0x80]
def dataR243 : Bytes :=
  [0x4E, 0x6F, 0x77, 0x20, 0x69, 0x73, 0x20, 0x74, 0x68, 0x65, 0x20, 0x74, 0x69, 0x6D, 0x65, 0x20]

/-- The setting of R243 with this `CTRL` value and data. -/
def settingR243 (ctrl : Word) (din : Bytes) : State :=
  loadDin { keyed State.reset .base roundKeysR156 with
    ctrl := ctrl, iv := reg4 ivR243, ivlen := 8, delta := reg4 deltaR243, deltalen := 8 } din

/-- The host has issued these events. -/
def issue (s : State) (evs : List HostEvent) : State := { s with port := ⟨evs, .none⟩ }

/-! ### Well-formedness smoke -/

theorem test_wellFormed_refuses_encchk_zero : (Instr.encchk 0).wellFormed = false := by decide
theorem test_wellFormed_refuses_decchk_zero : (Instr.decchk 0).wellFormed = false := by decide
theorem test_wellFormed_admits : (Instr.encchk 1).wellFormed = true ∧ (Instr.decchk 65535).wellFormed = true
    ∧ (Instr.setkey 0).wellFormed = true ∧ (Instr.permute 65535).wellFormed = true := by decide

/-! ### Decoding: one word per command, written out from the table of R95 (`ARG` in [23:8], `OPC` in [7:0]) -/

theorem test_decode_nop : decode 0b00000000000000000000000000000000 = .ok .nop := by decide
theorem test_decode_setkey : decode 0b00000000000000000001100000000001 = .ok (.setkey 24) := by decide
theorem test_decode_encblk : decode 0b00000000000000000000000000000010 = .ok .encblk := by decide
theorem test_decode_decblk : decode 0b00000000000000000000000000000011 = .ok .decblk := by decide
theorem test_decode_encbuf : decode 0b00000000000000000000000000000100 = .ok .encbuf := by decide
theorem test_decode_decbuf : decode 0b00000000000000000000000000000101 = .ok .decbuf := by decide
theorem test_decode_encchk : decode 0b00000000100000000000000100000110 = .ok (.encchk 32769) := by decide
theorem test_decode_decchk : decode 0b00000000000000000000001000000111 = .ok (.decchk 2) := by decide
theorem test_decode_permute : decode 0b00000000111111111111111100001000 = .ok (.permute 65535) := by decide
theorem test_decode_clr : decode 0b00000000000000000000000000001111 = .ok .clr := by decide
/-- R94: the unassigned codes next to `PERMUTE` and `CLR`. -/
theorem test_decode_unassigned : decode 0x0E = .error .unknownOpcode ∧ decode 0x10 = .error .unknownOpcode
    ∧ decode 0x0100000F = .error .reservedBits := by decide
theorem test_decodeTableWord : decodeTableWord 32 0x00001001 = some (.setkey 16)
    ∧ decodeTableWord 32 0x00000006 = none := by decide

/-! ### The commands, one step each -/

/-- R280: `NOP` after a failed `ENCBLK` gives `STATUS = 1`, `ERRCODE = 0`. -/
theorem test_nop_replaces_report :
    let t := after (exec .nop (State.reset.raise true .stateNokey))
    statusWord t = 1 ∧ t.errcode = 0 ∧ t.errinfo = 0 := by decide

/-- R201, R156: `SETKEY 8` with the key of R156 gives `STATUS = 5` and the printed round keys. -/
theorem test_setkey_base :
    let t := after (exec (.setkey 8) { State.reset with key := ⟨0x13345779, 0x9BBCDFF1, 0, 0, 0, 0, 0, 0⟩ })
    statusWord t = 5 ∧ t.rkEnc = some roundKeysR156 := by decide +kernel

/-- R201, R320: a failed `SETKEY` removes the installed key and reports the offered length. -/
theorem test_setkey_wrong_length :
    let t := after (exec (.setkey 9) (keyed State.reset .base (zeroKeys .base)))
    statusWord t = 2 ∧ t.errcode = 0x10 ∧ t.errinfo = 9 ∧ t.rkEnc = none := by decide

/-- R205: the example of `ENCBLK`. -/
theorem test_encblk :
    let t := after (exec .encblk (loadDin (keyed State.reset .base roundKeysR156)
      [0x01, 0x23, 0x45, 0x67, 0x89, 0xAB, 0xCD, 0xEF]))
    t.output = [0x85, 0xE8, 0x13, 0x54, 0x0F, 0x0A, 0xB4, 0x05] ∧ t.olen = 8 ∧ statusWord t = 5 := by decide +kernel

/-- R206: the example of `DECBLK`. -/
theorem test_decblk :
    let t := after (exec .decblk (loadDin (keyed State.reset .base roundKeysR156)
      [0x85, 0xE8, 0x13, 0x54, 0x0F, 0x0A, 0xB4, 0x05]))
    t.output = [0x01, 0x23, 0x45, 0x67, 0x89, 0xAB, 0xCD, 0xEF] := by decide +kernel

/-- The round keys of V21. -/
def roundKeysV21 : List Bytes :=
  [[0x0B, 0x7C, 0xED, 0xB8, 0x1F, 0x1A, 0x59, 0x95], [0xA4, 0x5C, 0xD3, 0x41, 0x76, 0xE9, 0x6E, 0x4E],
   [0x54, 0xD4, 0x90, 0xB7, 0x03, 0xBA, 0xC0, 0x93], [0xF6, 0x87, 0x0B, 0xB1, 0xE0, 0xA2, 0x84, 0x2E],
   [0x94, 0x25, 0x0A, 0x11, 0x75, 0xE6, 0x78, 0x80], [0x22, 0x1C, 0x76, 0x4C, 0xEF, 0xB2, 0xB4, 0xC6]]

/-- V22: `E_K(PT)` of `COMP2`, by `ENCBLK`. -/
theorem test_encblk_comp2 :
    let t := after (exec .encblk (loadDin (keyed State.reset .comp2 roundKeysV21)
      ((List.range 16).map fun k => BitVec.ofNat 8 (0x11 * k))))
    t.output = [0x05, 0x33, 0xEC, 0x48, 0x2A, 0x4F, 0x2D, 0xC5, 0x12, 0x00, 0x6D, 0x74, 0xC8, 0xB0, 0xD7, 0x29]
      ∧ statusWord t = 0x15 := by decide +kernel

/-- R22: the eight values of `MODE`, the four of `PAD` and of `CIPHER`, and `PORDER`, `PBASE`, `KEYADJ` next to each other. -/
theorem test_ctrl_fields :
    let at' (w : Word) : State := { State.reset with ctrl := w }
    [0x00, 0x10, 0x20, 0x30, 0x40, 0x50, 0x60, 0x70].map (fun w => modeOfCode (at' w).ctrlModeCode)
      = [some .ecb, some .cbc, some .pcbc, some .cfb, some .ofb, some .ctr, some .randomDelta, none]
    ∧ [0x000, 0x100, 0x200, 0x300].map (fun w => (at' w).ctrlPad) = [.zeros, .pkcs7, .ansiX923, .iso10126]
    ∧ [0, 1, 2, 3].map (fun w => (at' w).ctrlCipher) = [.base, .comp2, .comp3, .comp4]
    ∧ [0x400, 0x800, 0x004].map (fun w => ((at' w).ctrlPorder, (at' w).ctrlPbase, (at' w).ctrlKeyadj))
      = [(.lsbFirst, 0, false), (.msbFirst, 1, false), (.msbFirst, 0, true)] := by decide

/-- R240: the example of `ENCBUF` (`CBC`, `ZEROS`). -/
theorem test_encbuf_cbc :
    (after (exec .encbuf (settingR243 0x010 dataR243))).output
      = [0x0B, 0x1D, 0x61, 0xD6, 0xFE, 0xDE, 0x9A, 0x40, 0x28, 0x6F, 0x2D, 0x4E, 0x5B, 0xB4, 0x36, 0x81] := by
  decide +kernel

/-- P2: `DECBUF` of the `PKCS7` ciphertext of "Hello, world!" gives 13 bytes (`CBC`). -/
theorem test_decbuf_pkcs7 :
    let t := after (exec .decbuf (settingR243 0x110
      [0x77, 0x25, 0x50, 0x95, 0x51, 0x4C, 0x76, 0x03, 0xED, 0x31, 0xAB, 0x9A, 0x3A, 0x77, 0xAA, 0x2B]))
    t.output = [0x48, 0x65, 0x6C, 0x6C, 0x6F, 0x2C, 0x20, 0x77, 0x6F, 0x72, 0x6C, 0x64, 0x21] := by decide +kernel

/-- R243, R264: `ENCCHK 2` in `CTR` gives the row of `CTR`. -/
theorem test_encchk_ctr :
    (after (exec (.encchk 2) (settingR243 0x050 dataR243))).output
      = [0xC2, 0x38, 0x2A, 0xD0, 0x30, 0x5F, 0x5B, 0x37, 0xF1, 0xB7, 0x60, 0x81, 0x62, 0xB9, 0x59, 0xF7] := by
  decide +kernel

/-- R243, R265: `DECCHK 3` in `RANDOM_DELTA` returns the input. -/
theorem test_decchk_delta :
    (after (exec (.decchk 3) (settingR243 0x060
      [0x0B, 0x1D, 0x61, 0xD6, 0xFE, 0xDE, 0x9A, 0x40, 0x43, 0xEF, 0x00, 0x95, 0x71, 0xB3, 0x67, 0x94]))).output
      = dataR243 := by
  decide +kernel

/-- R266, R270: with the legacy parameter the second chunk restarts from the IV: with `T = 2` on 16 bytes in `CTR` both
blocks are masked with `E(IV)`, which R243 prints. -/
theorem test_encchk_legacy_ctr :
    (encryptChunked { Config.params with legacyChunkRestart := true } 2
      (settingR243 0x050 (zeroBytes 16))).output
      = [0x8C, 0x57, 0x5D, 0xF0, 0x59, 0x2C, 0x7B, 0x43, 0x8C, 0x57, 0x5D, 0xF0, 0x59, 0x2C, 0x7B, 0x43] := by
  decide +kernel

/-- R127: the example of `PERMUTE` (1-based, `MSB_FIRST`). -/
theorem test_permute :
    let t := after (exec (.permute 16) (loadTbl (loadDin { State.reset with ctrl := 0x800 } [0xA5, 0x3C])
      [16, 15, 14, 13, 12, 11, 10, 9, 8, 7, 6, 5, 4, 3, 2, 1]))
    t.output = [0x3C, 0xA5] ∧ t.olen = 2 ∧ statusWord t = 1 := by decide +kernel

/-- R126: index 9 of a one-byte input is out of range at entry 7. -/
theorem test_permute_range :
    let t := after (exec (.permute 8) (loadTbl (loadDin { State.reset with ctrl := 0x800 } [0xFF])
      [1, 1, 1, 1, 1, 1, 1, 9]))
    statusWord t = 2 ∧ t.errcode = 0x30 ∧ t.errinfo = 7 ∧ t.olen = 0 := by decide +kernel

/-- R281: `CLR` then a read of `STATUS` and `CTRL` gives 0; no key is left. -/
theorem test_clr :
    let t := after (exec .clr (settingR243 0x377 dataR243))
    statusWord t = 0 ∧ t.ctrl = 0 ∧ t.rkEnc = none ∧ t.dlen = 0 := by decide

/-- R318: `WR CMD, 0x00000009`, through the step. -/
theorem test_step_illegal :
    let t := after (step (issue State.reset [.write 32 0x14 0x00000009]))
    statusWord t = 2 ∧ t.errcode = 0x60 ∧ t.errinfo = 9 ∧ t.port = ⟨[], .ack⟩ := by decide

/-- A word placed by `withFetchWord` runs as the next step: `NOP` after reset. -/
theorem test_withFetchWord : statusWord (after (step (State.reset.withFetchWord 32 0))) = 1 := by decide

/-- V22: one adapter call, with the round key of V21. -/
theorem test_compRound :
    compRound [0x88, 0x99, 0xAA, 0xBB, 0xCC, 0xDD, 0xEE, 0xFF] [0x0B, 0x7C, 0xED, 0xB8, 0x1F, 0x1A, 0x59, 0x95]
      = [0x19, 0x59, 0xA6, 0xFA, 0x2C, 0x47, 0x62, 0x98] := by decide +kernel

/-- V21: the first two round keys of the composite schedule under the example constant `0x55`. -/
theorem test_compSchedule :
    compSchedule 0x55 ((List.range 16).map fun k => BitVec.ofNat 8 k) 2 2 0 []
      = [[0x0B, 0x7C, 0xED, 0xB8, 0x1F, 0x1A, 0x59, 0x95], [0xA4, 0x5C, 0xD3, 0x41, 0x76, 0xE9, 0x6E, 0x4E]] := by
  decide +kernel

/-- R262: `N = 32`, `BS = 8`, `T = 3` gives four chunks. -/
theorem test_chunks : chunks 32 3 8 = [(0, 8), (8, 16), (16, 24), (24, 32)] := by decide

/-- V52, V54: `ISO_10126` with the draws of the table. -/
theorem test_pad_iso :
    pad (fun j => BitVec.ofNat 8 (0xB5 + j)) 8 .iso10126 [0x41, 0x42, 0x43, 0x44, 0x45, 0x46, 0x47, 0x48, 0x49]
      = [0x41, 0x42, 0x43, 0x44, 0x45, 0x46, 0x47, 0x48, 0x49, 0xB5, 0xB6, 0xB7, 0xB8, 0xB9, 0xBA, 0x07] := by decide

/-- V58b, V57b: `ZEROS` strips every zero, a length byte of 16 exceeds a block of 8. -/
theorem test_unpad : unpad 8 .zeros [0x41, 0x42, 0x43, 0, 0, 0, 0, 0] = .ok [0x41, 0x42, 0x43]
    ∧ unpad 8 .pkcs7 (zeroBytes 15 ++ [0x10]) = .error (.rangePad 0x10) := by
  constructor <;> rfl

/-! ### Witnesses: each statement's hypotheses are met by a concrete state and operands -/

theorem witness_EncodeAndDecode :
    (Instr.encchk 1).wellFormed = true ∧ (Instr.decchk 65535).wellFormed = true
      ∧ decode 0x00FFFF06 = .ok (.encchk 65535) := by decide

/-- One illegal word for each of the four steps, and a legal one. -/
theorem witness_IllegalWords :
    [0x01000000#32, 0x00000009#32, 0x00000102#32, 0x00000007#32, 0x00000000#32].map (fun w => (decode w).toOption.isSome)
      = [false, false, false, false, true] := by decide

theorem witness_StepRuns :
    (issue State.reset [.write 32 0x00014 0x00000801]).port.pending = .write 32 0x00014 0x00000801 :: []
    ∧ decode 0x00000801 = .ok (.setkey 8) := by decide

theorem witness_IllegalWordOnlyReports :
    (issue State.reset [.write 32 0x00014 0x00000006]).port.pending = .write 32 0x00014 0x00000006 :: []
    ∧ decode 0x00000006 = .error .zeroThreads := by decide

/-- The pending read that `Reads` asks for, at the ends of every range. -/
theorem witness_HostRead :
    ∀ a ∈ [0x00000, 0x00004, 0x00008, 0x0000C, 0x00010, 0x00014, 0x00018, 0x0001C, 0x00020, 0x00024, 0x00040, 0x0005C,
        0x00060, 0x0006C, 0x00070, 0x0007C, 0x00400, 0x007FC, 0x10000, 0x10FFC],
      (issue State.reset [.read 32 a]).port.pending = .read 32 a :: [] := fun _ _ => rfl

/-- The first and the last word of `DOUT`, with `OLEN` ending inside a word. -/
theorem witness_DoutRead :
    (issue (State.reset.putOutput [0xAA, 0xBB]) [.read 32 0x20000]).port.pending = .read 32 (0x20000 + 4 * 0) :: []
    ∧ (issue State.reset [.read 32 0x2100C]).port.pending = .read 32 (0x20000 + 4 * 1027) :: []
    ∧ 0 < (State.reset.putOutput [0xAA, 0xBB]).olen.toNat ∧ ¬2 < (State.reset.putOutput [0xAA, 0xBB]).olen.toNat := by
  decide

/-- Mapped and unmapped offsets on both sides of every edge, and the wrong widths. -/
theorem witness_AccessAnswered :
    (issue State.reset [.read 32 0x00028]).port.pending = .read 32 0x00028 :: []
    ∧ (issue State.reset [.write 8 0x00004 1]).port.pending = .write 8 0x00004 1 :: []
    ∧ (∀ a ∈ [0x00000, 0x00024, 0x00040, 0x0007C, 0x00400, 0x007FC, 0x10000, 0x10FFC, 0x20000, 0x2100C], MappedOffset a)
    ∧ (∀ a ∈ [0x00001, 0x00006, 0x00028, 0x0003C, 0x00080, 0x003FC, 0x00800, 0x0FFFC, 0x11000, 0x1FFFC, 0x21010, 0x3FFFC,
        0x40000], ¬MappedOffset a) := by
  unfold MappedOffset
  decide

/-- A write and a read of the same offset, at the ends of every range of the statement. -/
theorem witness_WriteThenRead :
    ∀ a ∈ [0x00004, 0x00018, 0x00020, 0x00024, 0x00060, 0x0007C, 0x00400, 0x007FC, 0x10000, 0x10FFC],
      (issue State.reset [.write 32 a 0xFFFFFFFF, .read 32 a]).port.pending
        = .write 32 a 0xFFFFFFFF :: .read 32 a :: [] := fun _ _ => rfl

/-- The pending write that `Writes` asks for, at the ends of every range. -/
theorem witness_HostWrite :
    ∀ a ∈ [0x00000, 0x00004, 0x00008, 0x0000C, 0x00010, 0x00018, 0x0001C, 0x00020, 0x00024, 0x00400, 0x007FC, 0x10000,
        0x10FFC, 0x20000, 0x2100C],
      (issue State.reset [.write 32 a 0x12345678]).port.pending = .write 32 a 0x12345678 :: [] := fun _ _ => rfl

theorem witness_ByteRegisters :
    ∀ a ∈ [0x00040 + 4 * (0 : Fin 8).val, 0x00040 + 4 * (7 : Fin 8).val, 0x00060 + 4 * (0 : Fin 4).val,
        0x00060 + 4 * (3 : Fin 4).val, 0x00070 + 4 * (0 : Fin 4).val, 0x00070 + 4 * (3 : Fin 4).val],
      (issue State.reset [.write 32 a 0x12345678]).port.pending = .write 32 a 0x12345678 :: [] := fun _ _ => rfl

theorem witness_ResetSignal : (issue (settingR243 0x377 dataR243) [.reset]).port.pending = .reset :: [] := rfl

/-- Both kinds of end occur, and `CLR`. -/
theorem witness_EveryCommandEnds :
    (after (exec .nop State.reset)).err = false ∧ (after (exec .encblk State.reset)).err = true
    ∧ exec .clr State.reset = .next State.reset.clear := ⟨by decide, by decide, rfl⟩

/-- A data command that fails for want of a key, and a `SETKEY` of a wrong length. -/
theorem witness_FailedCommands :
    isDataCommand .encblk = true ∧ exec .encblk State.reset = .next (after (exec .encblk State.reset))
    ∧ (after (exec .encblk State.reset)).err = true
    ∧ exec (.setkey 7) State.reset = .next (after (exec (.setkey 7) State.reset))
    ∧ (after (exec (.setkey 7) State.reset)).err = true := ⟨rfl, rfl, by decide, rfl, by decide⟩

theorem witness_OnlySetkeyAndClr :
    (∀ n, Instr.nop ≠ .setkey n) ∧ Instr.nop ≠ .clr ∧ exec .nop State.reset = .next State.reset.complete :=
  ⟨by simp, by simp, rfl⟩

theorem witness_CommandsLeaveHostsRegisters :
    exec .nop State.reset = .next State.reset.complete ∧ Instr.nop ≠ .clr ∧ 0x1FFFF < 0x20000 := ⟨rfl, by simp, by decide⟩

/-- A data command that writes an output, and one that fails. -/
theorem witness_DataCommandWritesOnlyItsOutput :
    let s := loadTbl (loadDin { State.reset with ctrl := 0x800 } [0xA5]) [1, 2, 3, 4, 5, 6, 7, 8]
    isDataCommand (.permute 8) = true ∧ exec (.permute 8) s = .next (after (exec (.permute 8) s))
      ∧ (after (exec (.permute 8) s)).err = false := ⟨rfl, rfl, by decide⟩

/-- An `ENCBUF` with `ISO_10126` on 9 bytes ends well: 6 draws. -/
theorem witness_OnlyIsoPaddingDraws :
    let s := settingR243 0x310 (dataR243.take 9)
    exec .encbuf s = .next (after (exec .encbuf s)) ∧ (after (exec .encbuf s)).err = false
      ∧ padField s = padCode .iso10126 ∧ (after (exec .encbuf s)).drawIndex = 6 := ⟨rfl, by decide, by decide, by decide⟩

/-- A key of right parity without `KEYADJ`, and one of wrong parity with it. -/
theorem witness_SetkeyInstallsBaseKey :
    let s := { State.reset with key := ⟨0x13345779, 0x9BBCDFF1, 0, 0, 0, 0, 0, 0⟩ }
    let u := { State.reset with ctrl := 4 }
    (cipherField s = cipherCode .base ∧ keyadjField s ≠ 1 ∧ ∀ b ∈ s.keyBytes 8, adjustParityByte b = b)
    ∧ (cipherField u = cipherCode .base ∧ keyadjField u = 1 ∧ ¬∀ b ∈ u.keyBytes 8, adjustParityByte b = b) := by decide

theorem witness_SetkeyInstallsCompositeKey :
    cipherField { State.reset with ctrl := 1 } = cipherCode .comp2 ∧ cipherField { State.reset with ctrl := 2 } = cipherCode .comp3
    ∧ cipherField { State.reset with ctrl := 3 } = cipherCode .comp4 := by decide

/-- Wrong lengths next to the right ones; a wrong parity bit in byte 0 and in byte 7. -/
theorem witness_FailedSetkey :
    let first := { State.reset with key := ⟨0x00010101, 0x01010101, 0, 0, 0, 0, 0, 0⟩ }
    let last := { State.reset with key := ⟨0x01010101, 0x01010100, 0, 0, 0, 0, 0, 0⟩ }
    (cipherField State.reset = cipherCode .base ∧ (7 : BitVec 16) ≠ 8 ∧ (9 : BitVec 16) ≠ 8)
    ∧ (cipherField { State.reset with ctrl := 1 } = cipherCode .comp2 ∧ (8 : BitVec 16) ≠ 16)
    ∧ (cipherField { State.reset with ctrl := 2 } = cipherCode .comp3 ∧ (16 : BitVec 16) ≠ 24)
    ∧ (cipherField { State.reset with ctrl := 3 } = cipherCode .comp4 ∧ (33 : BitVec 16) ≠ 32)
    ∧ (cipherField first = cipherCode .base ∧ keyadjField first = 0
      ∧ adjustParityByte ((first.keyBytes 8).getD 0 0) ≠ (first.keyBytes 8).getD 0 0)
    ∧ (cipherField last = cipherCode .base ∧ keyadjField last = 0
      ∧ (∀ j, j < 7 → adjustParityByte ((last.keyBytes 8).getD j 0) = (last.keyBytes 8).getD j 0)
      ∧ adjustParityByte ((last.keyBytes 8).getD 7 0) ≠ (last.keyBytes 8).getD 7 0) := by decide

/-- A key is installed in `keyed`. -/
theorem keyInstalled_keyed (s : State) (v : Variant) (rks : List Bytes) (h : roundCount v ≤ rks.length) :
    KeyInstalled (keyed s v rks) v rks := ⟨rfl, rfl, rfl, h⟩

/-- A key and the checks on the registers make a state ready. -/
theorem ready {s : State} {v : Variant} {rks : List Bytes} {m : Mode} {pd : Padding} (key : KeyInstalled s v rks)
    (checks : modeField s = modeCode m ∧ padField s = padCode pd ∧ s.dlen.toNat ≤ 4096
      ∧ (m ≠ .ecb → s.ivlen.toNat = blockSize v) ∧ (m = .randomDelta → s.deltalen.toNat = blockSize v)) :
    ModeReady s v rks m pd :=
  ⟨key, checks.1, checks.2.1, checks.2.2.1, checks.2.2.2.1, checks.2.2.2.2⟩

/-- Both block sizes. -/
theorem witness_BlockCommands :
    (KeyInstalled (loadDin (keyed State.reset .base roundKeysR156) (zeroBytes 8)) .base roundKeysR156
      ∧ (loadDin (keyed State.reset .base roundKeysR156) (zeroBytes 8)).dlen.toNat = blockSize .base)
    ∧ (KeyInstalled (loadDin (keyed State.reset .comp4 (zeroKeys .comp4)) (zeroBytes 16)) .comp4 (zeroKeys .comp4)
      ∧ (loadDin (keyed State.reset .comp4 (zeroKeys .comp4)) (zeroBytes 16)).dlen.toNat = blockSize .comp4) :=
  ⟨⟨⟨rfl, rfl, rfl, by decide⟩, by decide⟩, ⟨⟨rfl, rfl, rfl, by decide⟩, by decide⟩⟩

/-- No key; a key with `DLEN` one off the block size. -/
theorem witness_BlockCommandErrors :
    State.reset.keySet = false
    ∧ KeyInstalled { keyed State.reset .base (zeroKeys .base) with dlen := 7 } .base (zeroKeys .base)
    ∧ (7 : BitVec 32).toNat ≠ blockSize .base ∧ (17 : BitVec 32).toNat ≠ blockSize .comp2 :=
  ⟨rfl, ⟨rfl, rfl, rfl, by decide⟩, by decide, by decide⟩

/-- The checks pass: `ECB` without IV at the capacity, `CBC` on an empty buffer, `RANDOM_DELTA` with a composite key, and
`OFB` and `CFB` next to each other. -/
theorem witness_ModeReady :
    ModeReady { keyed State.reset .base (zeroKeys .base) with dlen := 4096 } .base (zeroKeys .base) .ecb .zeros
    ∧ ModeReady { keyed State.reset .base (zeroKeys .base) with ctrl := 0x10, ivlen := 8 } .base (zeroKeys .base) .cbc
        .zeros
    ∧ ModeReady { keyed State.reset .comp3 (zeroKeys .comp3) with ctrl := 0x160, ivlen := 16, deltalen := 16 } .comp3
        (zeroKeys .comp3) .randomDelta .pkcs7
    ∧ ModeReady { keyed State.reset .base (zeroKeys .base) with ctrl := 0x230, ivlen := 8 } .base (zeroKeys .base) .cfb
        .ansiX923
    ∧ ModeReady { keyed State.reset .base (zeroKeys .base) with ctrl := 0x340, ivlen := 8 } .base (zeroKeys .base) .ofb
        .iso10126 := by
  refine ⟨ready ?_ ?_, ready ?_ ?_, ready ?_ ?_, ready ?_ ?_, ready ?_ ?_⟩ <;>
    first
    | decide
    | exact ⟨rfl, rfl, rfl, by decide⟩

/-- `DECBUF` and `DECCHK` complete: an empty buffer with `ZEROS`, and P2's ciphertext with `PKCS7`. -/
theorem witness_DecbufDecrypts :
    let s := { keyed State.reset .base (zeroKeys .base) with ctrl := 0x10, ivlen := 8 }
    let u := settingR243 0x110
      [0x77, 0x25, 0x50, 0x95, 0x51, 0x4C, 0x76, 0x03, 0xED, 0x31, 0xAB, 0x9A, 0x3A, 0x77, 0xAA, 0x2B]
    (ModeReady s .base (zeroKeys .base) .cbc .zeros ∧ s.dlen.toNat % blockSize .base = 0
      ∧ unpad (blockSize .base) .zeros (modeDec (encBlock .base (zeroKeys .base)) (decBlock .base (zeroKeys .base))
        (blockSize .base) .cbc (s.ivBlock (blockSize .base)) (s.deltaBlock (blockSize .base)) (s.din s.dlen.toNat))
        = .ok [])
    ∧ (ModeReady u .base roundKeysR156 .cbc .pkcs7 ∧ u.dlen.toNat % blockSize .base = 0
      ∧ (unpad (blockSize .base) .pkcs7 (modeDec (encBlock .base roundKeysR156) (decBlock .base roundKeysR156)
        (blockSize .base) .cbc (u.ivBlock (blockSize .base)) (u.deltaBlock (blockSize .base)) (u.din u.dlen.toNat))).toOption
        = some [0x48, 0x65, 0x6C, 0x6C, 0x6F, 0x2C, 0x20, 0x77, 0x6F, 0x72, 0x6C, 0x64, 0x21]) := by
  refine ⟨⟨ready ⟨rfl, rfl, rfl, by decide⟩ (by decide), by decide, rfl⟩,
    ⟨ready ⟨rfl, rfl, rfl, by decide⟩ (by decide), by decide, ?_⟩⟩
  decide +kernel

/-- One state per check: no key; mode 7; one byte over capacity; IV lengths 0, 7, 9, 31; delta lengths 0, 31. -/
theorem witness_ModeChecks :
    isModeCommand (.encchk 1) = true ∧ State.reset.keySet = false
    ∧ KeyInstalled (keyed State.reset .base (zeroKeys .base)) .base (zeroKeys .base)
    ∧ modeField { State.reset with ctrl := 0x70 } = 7
    ∧ modeField { State.reset with ctrl := 0x00 } ≠ 7 ∧ 4096 < (4097 : BitVec 32).toNat
    ∧ modeField { State.reset with ctrl := 0x10 } ≠ 7 ∧ modeField { State.reset with ctrl := 0x10 } ≠ modeCode .ecb
    ∧ (∀ n ∈ [0, 7, 9, 31], BitVec.toNat (BitVec.ofNat 5 n) ≠ blockSize .base)
    ∧ modeField { State.reset with ctrl := 0x60 } = modeCode .randomDelta ∧ (8 : BitVec 5).toNat = blockSize .base
    ∧ (∀ n ∈ [0, 31], BitVec.toNat (BitVec.ofNat 5 n) ≠ blockSize .base) := by
  refine ⟨rfl, rfl, ⟨rfl, rfl, rfl, by decide⟩, ?_⟩
  decide

/-- A partial block; an empty buffer with `PKCS7`; and, masking with `E(IV) = 8C .. 43` of R243 in `CTR`, decrypted last
bytes 0 and 9 next to the admitted range. -/
theorem witness_DecryptingErrors :
    let part := { settingR243 0x150 (zeroBytes 1) with dlen := 1 }
    let empty := settingR243 0x150 []
    let zero := settingR243 0x150 (zeroBytes 7 ++ [0x43])
    let nine := settingR243 0x150 (zeroBytes 7 ++ [0x4A])
    let last (s : State) : Byte := (modeDec (encBlock .base roundKeysR156) (decBlock .base roundKeysR156)
      (blockSize .base) .ctr (s.ivBlock (blockSize .base)) (s.deltaBlock (blockSize .base)) (s.din s.dlen.toNat)).getD 7 0
    (ModeReady part .base roundKeysR156 .ctr .pkcs7 ∧ part.dlen.toNat % blockSize .base ≠ 0)
    ∧ (ModeReady empty .base roundKeysR156 .ctr .pkcs7 ∧ Padding.pkcs7 ≠ .zeros ∧ empty.dlen = 0)
    ∧ (ModeReady zero .base roundKeysR156 .ctr .pkcs7 ∧ zero.dlen.toNat % blockSize .base = 0 ∧ last zero = 0)
    ∧ (ModeReady nine .base roundKeysR156 .ctr .pkcs7 ∧ blockSize .base < (last nine).toNat) := by
  refine ⟨⟨ready ⟨rfl, rfl, rfl, by decide⟩ (by decide), by decide⟩, ⟨ready ⟨rfl, rfl, rfl, by decide⟩ (by decide), by decide, by decide⟩,
    ⟨ready ⟨rfl, rfl, rfl, by decide⟩ (by decide), by decide, ?_⟩, ⟨ready ⟨rfl, rfl, rfl, by decide⟩ (by decide), ?_⟩⟩
  · decide +kernel
  · decide +kernel

/-- The smallest `PERMUTE` (one byte, eight entries, the largest legal index), and the largest table. -/
theorem witness_PermuteMoves :
    let s := loadTbl (loadDin { State.reset with ctrl := 0xC00 } [0xA5]) [1, 8, 3, 4, 5, 6, 7, 8]
    let u := { State.reset with mem := (List.range 1024).map fun k => (tblBase + k, 0), dlen := 4096 }
    (porderField s = orderCode .lsbFirst ∧ s.dlen.toNat ≠ 0 ∧ (8 : BitVec 16).toNat ≠ 0 ∧ s.dlen.toNat ≤ 4096 ∧ (8 : BitVec 16).toNat ≤ 256
      ∧ (8 : BitVec 16).toNat % 8 = 0
      ∧ ∀ i, i < 8 → pbaseField s ≤ s.tblEntry i ∧ s.tblEntry i - pbaseField s < 8 * s.dlen.toNat)
    ∧ (porderField u = orderCode .msbFirst ∧ u.dlen.toNat ≤ 4096 ∧ (256 : BitVec 16).toNat ≤ 256 ∧ pbaseField u ≤ u.tblEntry 255
      ∧ u.tblEntry 255 - pbaseField u < 8 * u.dlen.toNat) := by
  decide +kernel

/-- One state per check of `PERMUTE`: `DLEN` 0 and 4097, table lengths 0, 4, 257; entry 0 resolving to -1 and entry 7 to
`8 · DLEN`. -/
theorem witness_PermuteErrors :
    let low := loadTbl (loadDin { State.reset with ctrl := 0x800 } [0xFF]) [0, 1, 1, 1, 1, 1, 1, 1]
    let high := loadTbl (loadDin { State.reset with ctrl := 0x800 } [0xFF]) [1, 1, 1, 1, 1, 1, 1, 9]
    State.reset.dlen.toNat = 0 ∧ 4096 < (4097 : BitVec 32).toNat
    ∧ (4 : BitVec 16).toNat % 8 ≠ 0 ∧ 256 < (257 : BitVec 16).toNat
    ∧ (low.dlen.toNat ≠ 0 ∧ (low.tblEntry 0 : Int) - pbaseField low < 0)
    ∧ ((∀ j, j < 7 → (0 : Int) ≤ high.tblEntry j - pbaseField high
        ∧ (high.tblEntry j : Int) - pbaseField high < 8 * high.dlen.toNat)
      ∧ (8 * high.dlen.toNat : Int) ≤ high.tblEntry 7 - pbaseField high) := by
  decide +kernel

/-- R126: the same boundary tables for the primitive. -/
theorem witness_PermuteContract :
    permuteChecked [] [1] .msbFirst 1 = .error (.sizePerm 0) ∧ permuteChecked [0xFF] [] .msbFirst 1 = .error (.sizePerm 0)
    ∧ permuteChecked [0xFF] [1, 2, 3, 4] .msbFirst 1 = .error (.sizePerm 4)
    ∧ permuteChecked [0xFF] [0, 1, 1, 1, 1, 1, 1, 1] .msbFirst 1 = .error (.rangePerm 0)
    ∧ permuteChecked [0xFF] [1, 1, 1, 1, 1, 1, 1, 9] .msbFirst 1 = .error (.rangePerm 7)
    ∧ permuteChecked [0x80] [1, 1, 1, 1, 8, 8, 8, 8] .lsbFirst 1 = .ok [0xF0] := by
  refine ⟨rfl, rfl, rfl, rfl, rfl, ?_⟩
  decide +kernel

/-- Sequences of equal length; the reversal of 8 bits is its own inverse. -/
theorem witness_PermuteLaws :
    ([0x0F, 0xA5] : Bytes).length = ([0x33, 0x01] : Bytes).length
    ∧ ∀ i, i < 8 → 1 ≤ [8, 7, 6, 5, 4, 3, 2, 1].getD i 0 ∧ [8, 7, 6, 5, 4, 3, 2, 1].getD i 0 ≤ 8
      ∧ [8, 7, 6, 5, 4, 3, 2, 1].getD ([8, 7, 6, 5, 4, 3, 2, 1].getD i 0 - 1) 0 = i + 1 := by decide

/-- Operands of right and wrong lengths, a key of right parity, one whose bytes 5 to 7 are wrong, and two that differ in
parity bits only. -/
theorem witness_BaseRoundAndSchedule :
    (zeroBytes 4).length = 4 ∧ (zeroBytes 6).length = 6 ∧ (zeroBytes 5).length ≠ 4 ∧ (zeroBytes 7).length ≠ 8
    ∧ keyR156.length = 8 ∧ (∀ b ∈ keyR156, adjustParityByte b = b)
    ∧ (let bad := keyR156.take 5 ++ [0, 0, 0]
       bad.length = 8 ∧ (∀ j, j < 5 → adjustParityByte (bad.getD j 0) = bad.getD j 0)
         ∧ adjustParityByte (bad.getD 5 0) ≠ bad.getD 5 0)
    ∧ keyR156 ≠ keyR156.map (· ^^^ 1) ∧ (keyR156.map (· ^^^ 1)).length = 8
    ∧ adjustParity keyR156 = adjustParity (keyR156.map (· ^^^ 1)) := by decide

theorem witness_CompositeSchedule :
    (zeroBytes 16).length = 8 * 2 ∧ (zeroBytes 24).length = 8 * 3 ∧ (zeroBytes 32).length = 8 * 4
    ∧ (zeroBytes 24).length ≠ 8 * 4 := by decide

/-- Keys that differ in one byte of the last part. -/
theorem witness_CompositeRoundKeysDetermine :
    zeroBytes 16 ≠ zeroBytes 15 ++ [1] ∧ (zeroBytes 15 ++ [1]).length = 8 * 2
    ∧ (zeroBytes 24).take 16 = (zeroBytes 32).take 16 := by decide

/-- The empty cache, and a full cache of one entry that holds the key looked up. -/
theorem witness_CacheLookup :
    Params.Legal Config.params ∧ CacheOk Config.params [] ∧ (zeroBytes 8).length = 8
    ∧ CacheOk { Config.params with cacheEntries := 1 }
        [⟨adjustParity (zeroBytes 8), baseRoundKeys (adjustParity (zeroBytes 8))⟩] := by
  refine ⟨by decide, ⟨by decide, by simp, by simp, by simp⟩, by decide, ⟨by decide, ?_, ?_, by simp⟩⟩
  · simp
  · simp only [List.mem_singleton, forall_eq]
    decide

theorem witness_CacheNotObservable : step State.reset = .next State.reset := rfl

/-- One round key too few, a block one byte too short, and both right. -/
theorem witness_FeistelRecurrence :
    (zeroKeys .base).length < 17 ∧ 16 ≤ (zeroKeys .base).length ∧ (zeroBytes 7).length ≠ 8 ∧ (zeroBytes 8).length = 8 := by
  decide

/-- A round function on half-blocks of one byte, two rounds. -/
theorem witness_Feistel :
    (∀ r k : Bytes, r.length = 1 → (xorBytes r r).length = 1 ∧ k = k) ∧ ([[1], [2]] : List Bytes).length = 2
    ∧ ([0xAB, 0xCD] : Bytes).length = 2 * 1 := by
  refine ⟨fun r k h => ⟨by simp [h], rfl⟩, by decide, by decide⟩

theorem witness_BlockRoundTrip :
    (zeroKeys .base).length = roundCount .base ∧ (zeroBytes 8).length = blockSize .base
    ∧ (zeroKeys .comp4).length = roundCount .comp4 ∧ (zeroBytes 16).length = blockSize .comp4 := by decide

theorem witness_EngineChecks :
    (zeroKeys .base).length = 16 ∧ (∀ k ∈ zeroKeys .base, k.length = 6) ∧ (zeroBytes 8).length = 8
    ∧ (zeroKeys .comp2).length = 6 ∧ (∀ k ∈ zeroKeys .comp2, k.length = 8) ∧ (zeroBytes 16).length = 16
    ∧ (zeroKeys .comp3).length = 6 ∧ (∀ k ∈ zeroKeys .comp3, k.length = 8)
    ∧ (zeroKeys .comp4).length = 8 ∧ (∀ k ∈ zeroKeys .comp4, k.length = 8) ∧ (zeroBytes 7).length ≠ 8 := by decide

/-- Block functions that keep the block size, and two blocks. -/
theorem witness_Modes :
    (∀ b : Bytes, b.length = 8 → (encBlock .base (zeroKeys .base) b).length = 8)
    ∧ (∀ b : Bytes, b.length = 8 → (decBlock .base (zeroKeys .base) b).length = 8) ∧ ivR243.length = 8
    ∧ deltaR243.length = 8 ∧ dataR243.length % 8 = 0 :=
  ⟨fun b hb => length_encBlock .base _ b hb, fun b hb => length_decBlock .base _ b hb, by decide, by decide, by decide⟩

/-- Two composite blocks, with an IV and a delta of one block. -/
theorem witness_ModeRoundTrip :
    (zeroKeys .comp4).length = roundCount .comp4 ∧ (rep 0xA5 16).length = blockSize .comp4
    ∧ (rep 0x3C 16).length = blockSize .comp4 ∧ (zeroBytes 32).length % blockSize .comp4 = 0 := by decide

/-- V58a, V59a, V56, V57a and a length byte equal to the block size. -/
theorem witness_Unpad :
    unpad 8 .pkcs7 [] = .error (.rangePad 0) ∧ unpad 8 .ansiX923 ([1, 2, 3, 4, 5, 6, 7] ++ [0]) = .error (.rangePad 0)
    ∧ unpad 8 .iso10126 ([1, 2, 3, 4, 5, 6, 7] ++ [9]) = .error (.rangePad 9)
    ∧ unpad 8 .pkcs7 ([1, 2, 3, 4, 5, 6, 7] ++ [8]) = .ok [] ∧ unpad 8 .pkcs7 [2] = .error (.rangePad 2) :=
  ⟨rfl, rfl, rfl, rfl, rfl⟩

/-- Aligned data (also empty), and data one byte short of and one byte over a block. -/
theorem witness_PadAppends :
    0 < 8 ∧ 8 < 256 ∧ (zeroBytes 16).length % 8 = 0 ∧ (zeroBytes 0).length % 8 = 0 ∧ 1 = 8 - (zeroBytes 7).length % 8
    ∧ 0 < (zeroBytes 7).length % 8 ∧ 7 = 8 - (zeroBytes 9).length % 8 := by decide

/-- The block sizes at the ends of the range. -/
theorem witness_UnpadInvertsPad : 0 < 1 ∧ 1 < 256 ∧ 0 < 255 ∧ 255 < 256 ∧ Padding.pkcs7 ≠ .zeros := by decide

/-- R262: four chunks of `N = 32`, `T = 3`, and the last chunk of `N = 4096`, `T = 3`. -/
theorem witness_Chunks :
    0 < 8 ∧ 0 < 3 ∧ 32 % 8 = 0 ∧ (chunks 32 3 8)[3]? = some (24, 32) ∧ 3 * chunkSize 32 3 8 < 32
    ∧ (chunks 4096 3 8)[3]? = some (4080, 4096) := by decide

/-- The legacy parameter set, a chaining mode, and one chunk (`T = 1`, 16 bytes). -/
theorem witness_LegacyOneChunk :
    let p := { Config.params with legacyChunkRestart := true }
    let s := settingR243 0x010 dataR243
    let b := settingR243 0x000 dataR243
    modeChecks p s = .ok ⟨.base, roundKeysR156, .cbc, .zeros⟩
    ∧ modeChecks p b = .ok ⟨.base, roundKeysR156, .ecb, .zeros⟩ ∧ modeField b = modeCode .ecb
    ∧ (chunks (s.paddedInput ⟨.base, roundKeysR156, .cbc, .zeros⟩).length 1 8).length ≤ 1
    ∧ (chunks s.dlen.toNat 1 8).length ≤ 1 :=
  ⟨rfl, rfl, by decide, by decide, by decide⟩

theorem witness_LegacyRoundTrip :
    (zeroKeys .comp2).length = roundCount .comp2 ∧ (zeroBytes 16).length = blockSize .comp2
    ∧ (zeroBytes 64).length % blockSize .comp2 = 0 ∧ (chunks 64 2 16).length = 2 := by decide

/-- The host copies the output of `ENCBUF` into `DIN`: the state `u` of the statement. -/
theorem witness_DecbufReturns :
    let s := settingR243 0x110 dataR243
    let t := after (exec .encbuf s)
    let u := { t.putBytes dinBase t.output with dlen := t.olen }
    ModeReady s .base roundKeysR156 .cbc .pkcs7 ∧ roundKeysR156.length = roundCount .base
    ∧ s.dlen.toNat ≤ 4096 - blockSize .base ∧ Padding.pkcs7 ≠ .zeros ∧ exec .encbuf s = .next t
    ∧ u.ctrl = s.ctrl ∧ u.iv = s.iv ∧ u.ivlen = s.ivlen ∧ u.delta = s.delta ∧ u.deltalen = s.deltalen
    ∧ KeepsKeyStore s u ∧ u.dlen = t.olen ∧ u.din t.olen.toNat = t.output := by
  have copied : ∀ t : State,
      ({ t.putBytes dinBase t.output with dlen := t.olen } : State).din t.olen.toNat = t.output := by
    intro t
    have h := State.bytesAt_putBytes t dinBase t.output
    rw [show t.output.length = t.olen.toNat from State.length_bytesAt t doutBase _] at h
    exact h
  exact ⟨ready ⟨rfl, rfl, rfl, by decide⟩ (by decide), by decide, by decide, by decide, rfl,
    rfl, rfl, rfl, rfl, rfl, ⟨rfl, rfl, rfl⟩, rfl, copied _⟩

/-- A mode command on two states that differ in `KEY`, `DELTA`, the draws, the report, the cache and the power-on contents;
a block command on two that differ in `CTRL`, `IV` and `DELTA`; `PERMUTE` on two of which one has no key; `SETKEY`. -/
theorem witness_CommandsReadOnly :
    let s := settingR243 0x010 dataR243
    let u := { s with
      key := ⟨1, 2, 3, 4, 5, 6, 7, 8⟩, delta := Reg4.zero, drawIndex := 9, done := true, errinfo := 5,
      cache := [⟨[], []⟩], resetCount := 1, olen := 3 }
    let b := { s with ctrl := 0xF77, iv := Reg4.zero, ivlen := 0, delta := Reg4.zero, deltalen := 0 }
    SameOperands .encbuf s u ∧ SameOperands .encblk s b ∧ SameOperands (.permute 8) s s.dropKey
      ∧ SameOperands (.setkey 9) s u ∧ s ≠ u ∧ s ≠ b ∧ s ≠ s.dropKey := by
  have hin : ∀ k, k < 16 →
      State.byteAt { settingR243 0x010 dataR243 with resetCount := 1 } (dinBase + k)
        = State.byteAt (settingR243 0x010 dataR243) (dinBase + k) := by
    intro k hk
    interval_cases k <;> rfl
  refine ⟨⟨⟨⟨rfl, rfl, rfl⟩, ⟨rfl, fun _ => hin⟩, rfl, rfl, fun _ => rfl, fun _ => rfl, ?_, ?_⟩, ?_⟩,
    ⟨⟨rfl, rfl, rfl⟩, ⟨rfl, fun _ _ _ => rfl⟩⟩, ⟨⟨rfl, fun _ _ _ => rfl⟩, rfl, rfl, fun _ _ _ => rfl⟩,
    ⟨rfl, rfl, fun v _ h => absurd h (by cases v <;> decide)⟩, by decide, by decide, by decide⟩
  all_goals exact fun h => absurd h (by decide)

/-- The invariant holds in a state with an installed composite key, a cache entry and an output. -/
theorem witness_Invariant :
    let s := { (keyed State.reset .comp2 (zeroKeys .comp2)).putOutput [1, 2] with
      ctrl := 0x112, done := true, cache := [⟨adjustParity (zeroBytes 8), baseRoundKeys (adjustParity (zeroBytes 8))⟩] }
    Inv Config.params s ∧ step s = .next s := by
  refine ⟨⟨⟨by decide, fun _ => ⟨zeroKeys .comp2, rfl, by decide, by decide⟩⟩,
    ⟨by decide, fun _ => ⟨rfl, rfl⟩, by decide⟩, ⟨by decide, by simp, ?_, by simp⟩,
    ⟨by decide, by decide, by decide, by decide⟩, by decide⟩, rfl⟩
  simp only [List.mem_singleton, forall_eq]
  decide

end Sys2Proof.Tests
end

section
/-! Key parity, key expansion and `SETKEY` (`41_base_cipher_round_and_schedule.md` R150, R151, R154;
`44_block_ciphers.md` R201, R202). -/

namespace Sys2Proof.Machine

open Sys2Proof.Safety

/-! ### Key parity -/

/-- Adjusting a byte touches its lowest bit only. -/
theorem adjustParityByte_and (b : Byte) : adjustParityByte b &&& 0xFE = b &&& 0xFE := by
  have low : ∀ c : Byte, (c &&& 0xFE) &&& 0xFE = c &&& 0xFE ∧ (c &&& 0xFE ||| 1) &&& 0xFE = c &&& 0xFE := by decide
  simp only [adjustParityByte]
  split
  · exact (low b).1
  · exact (low b).2

/-- Adjusting depends on the upper seven bits only, so a second time changes nothing. -/
theorem adjustParityByte_idem (b : Byte) : adjustParityByte (adjustParityByte b) = adjustParityByte b := by
  rw [adjustParityByte, adjustParityByte_and]
  rfl

/-- The parity of a byte is right exactly when adjusting leaves it alone: the lowest bit is then the one the parity of
the upper bits asks for. -/
theorem parityOkByte_iff (b : Byte) : parityOkByte b = true ↔ adjustParityByte b = b := by
  have low : ∀ c : Byte, (c &&& 0xFE = c ↔ (c.getLsbD 0).toNat = 0)
      ∧ (c &&& 0xFE ||| 1 = c ↔ (c.getLsbD 0).toNat = 1) := by decide
  simp only [parityOkByte, adjustParityByte, beq_iff_eq]
  split
  · rw [(low b).1]; omega
  · rw [(low b).2]; omega

theorem firstBadParity_eq_none {k : Bytes} (h : ∀ b ∈ k, adjustParityByte b = b) : firstBadParity k = none := by
  simpa [firstBadParity, parityOkByte_iff] using h

theorem firstBadParity_eq_some {k : Bytes} {i : Nat} (hi : i < k.length)
    (before : ∀ j, j < i → adjustParityByte (k.getD j 0) = k.getD j 0)
    (here : adjustParityByte (k.getD i 0) ≠ k.getD i 0) : firstBadParity k = some i := by
  refine List.findIdx?_eq_some_iff_getElem.2 ⟨hi, ?_, fun j hj => ?_⟩
  · rw [List.getD_eq_getElem _ _ hi, Ne, ← parityOkByte_iff] at here
    simpa using here
  · have hj' := before j hj
    rw [List.getD_eq_getElem _ _ (by omega), ← parityOkByte_iff] at hj'
    simpa using hj'

/-! ### Key expansion -/

theorem length_keyBytes (s : State) {n : Nat} (hn : n ≤ 32) : (s.keyBytes n).length = n := by
  simp [State.keyBytes, Reg8.bytes, hn]

/-- A key of eight bytes that adjusting leaves alone expands. -/
theorem baseExpand_ok {key : Bytes} (hl : key.length = 8) (h : ∀ b ∈ key, adjustParityByte b = b) :
    baseExpand key = .ok (baseRoundKeys key) := by
  simp [baseExpand, hl, firstBadParity_eq_none h]

/-- Every byte of an adjusted key is of right parity. -/
theorem baseExpand_adjustParity {key : Bytes} (hl : key.length = 8) :
    baseExpand (adjustParity key) = .ok (baseRoundKeys (adjustParity key)) := by
  refine baseExpand_ok (by simpa using hl) fun b hb => ?_
  obtain ⟨a, _, rfl⟩ := List.mem_map.1 hb
  exact adjustParityByte_idem a

theorem baseExpand_parity {key : Bytes} {i : Nat} (hl : key.length = 8) (h : firstBadParity key = some i) :
    baseExpand key = .error (.parity i) := by
  simp [baseExpand, hl, h]

/-- A composite key of the variant's length expands, whatever its parity and `KEYADJ`. -/
theorem expandKey_composite {c : Byte} {v : Variant} {adj : Bool} {key : Bytes} (hv : v ≠ .base)
    (hl : key.length = keyLength v) :
    expandKey c v adj key = .ok (compRoundKeys c key (keyParts v) (roundCount v)) := by
  cases v with
  | base => exact absurd rfl hv
  | comp2 => exact if_neg (not_not.2 hl)
  | comp3 => exact if_neg (not_not.2 hl)
  | comp4 => exact if_neg (not_not.2 hl)

/-! ### `SETKEY` -/

/-- `SETKEY` with a length that is not the variant's. -/
theorem exec_setkey_wrongLength {s : State} {v : Variant} {n : BitVec 16} (hv : cipherField s = cipherCode v)
    (hn : n.toNat ≠ keyLength v) :
    exec (.setkey n) s = .next (s.dropKey.raise false (.sizeKey n.toNat)) := by
  rw [exec_setkey]
  rw [← (ctrlCipher_iff s v).2 hv] at hn
  rcases setKey_cases Config.params n s with ⟨_, ht⟩ | ⟨heq, _⟩ | ⟨heq, _⟩
  · rw [ht]
  · exact absurd heq hn
  · exact absurd heq hn

/-- `SETKEY` with the variant's length and a key that does not expand. -/
theorem exec_setkey_rejected {s : State} {v : Variant} {n : BitVec 16} {e : CoreError}
    (hv : cipherField s = cipherCode v) (hn : n.toNat = keyLength v)
    (he : expandKey Config.compKsConstByte v s.ctrlKeyadj (s.keyBytes n.toNat) = .error e) :
    exec (.setkey n) s = .next (s.dropKey.raise false e) := by
  obtain rfl := (ctrlCipher_iff s v).2 hv
  rw [exec_setkey]
  rcases setKey_cases Config.params n s with ⟨hne, _⟩ | ⟨_, e', he', ht⟩ | ⟨_, rk, hrk, _⟩
  · exact absurd hn hne
  · cases he.symm.trans he'
    rw [ht]
  · cases he.symm.trans hrk

/-- `SETKEY` with the variant's length and a key that expands. -/
theorem exec_setkey_installs {s : State} {v : Variant} {n : BitVec 16} {rk : List Bytes}
    (hv : cipherField s = cipherCode v) (hn : n.toNat = keyLength v)
    (hrk : expandKey Config.compKsConstByte v s.ctrlKeyadj (s.keyBytes n.toNat) = .ok rk) :
    exec (.setkey n) s = .next (s.dropKey.installKey v rk).complete := by
  obtain rfl := (ctrlCipher_iff s v).2 hv
  rw [exec_setkey]
  rcases setKey_cases Config.params n s with ⟨hne, _⟩ | ⟨_, e, he, _⟩ | ⟨_, rk', hrk', ht⟩
  · exact absurd hn hne
  · cases hrk.symm.trans he
  · cases hrk.symm.trans hrk'
    rw [ht]

/-- Settles O22: with `KEYADJ` set the adjusted key passes the parity check, otherwise the key does as it stands. -/
theorem setkeyInstallsBaseKey : Obligations.SetkeyInstallsBaseKey := by
  intro s hv hp
  have hl : (s.keyBytes 8).length = 8 := length_keyBytes s (by omega)
  have expands : expandKey Config.compKsConstByte .base s.ctrlKeyadj (s.keyBytes 8)
      = .ok (baseRoundKeys (if keyadjField s = 1 then adjustParity (s.keyBytes 8) else s.keyBytes 8)) := by
    simp only [expandKey, ctrlKeyadj_iff]
    split
    · exact baseExpand_adjustParity hl
    · rename_i hadj
      exact baseExpand_ok hl (hp.resolve_left hadj)
  exact ⟨s.cache, exec_setkey_installs hv rfl expands⟩

/-- Settles O23: a composite key of the right length always expands. -/
theorem setkeyInstallsCompositeKey : Obligations.SetkeyInstallsCompositeKey := by
  intro s v n S R hv hcase
  have shape : v ≠ .base ∧ n.toNat = keyLength v ∧ S = keyParts v ∧ R = roundCount v := by
    rcases hcase with ⟨rfl, rfl, rfl, rfl⟩ | ⟨rfl, rfl, rfl, rfl⟩ | ⟨rfl, rfl, rfl, rfl⟩ <;> decide
  obtain ⟨hb, hn, rfl, rfl⟩ := shape
  have short : keyLength v ≤ 32 := by cases v <;> decide
  have hl : (s.keyBytes n.toNat).length = keyLength v := by rw [length_keyBytes s (by omega), hn]
  exact ⟨s.cache, exec_setkey_installs hv hn (expandKey_composite hb hl)⟩

/-- Settles O24: the key is dropped before either check can fail. -/
theorem failedSetkeyRemovesTheKey : Obligations.FailedSetkeyRemovesTheKey := by
  intro s n
  constructor
  · intro hcase
    have wrong : ∃ v, cipherField s = cipherCode v ∧ n.toNat ≠ keyLength v := by
      rcases hcase with ⟨hv, hn⟩ | ⟨hv, hn⟩ | ⟨hv, hn⟩ | ⟨hv, hn⟩
      all_goals exact ⟨_, hv, fun h => hn (BitVec.eq_of_toNat_eq h)⟩
    obtain ⟨v, hv, hn⟩ := wrong
    exact ⟨s.cache, exec_setkey_wrongLength hv hn⟩
  · rintro i hv rfl hadj hi before here
    have hl : (s.keyBytes 8).length = 8 := length_keyBytes s (by omega)
    have fails : expandKey Config.compKsConstByte .base s.ctrlKeyadj (s.keyBytes 8) = .error (.parity i) := by
      rw [(ctrlKeyadj_false_iff s).2 hadj]
      exact baseExpand_parity hl (firstBadParity_eq_some (hi.trans_eq hl.symm) before here)
    exact ⟨s.cache, exec_setkey_rejected (n := 8) hv rfl fails⟩

end Sys2Proof.Machine
end

section
/-! The mode commands from a state whose five checks pass, and the ends of a command in the words of the statements
(`45_mode_engine.md` R226, R239 to R241; `60_exceptions.md` R320, R321). -/

namespace Sys2Proof.Machine

open Sys2Proof.Safety

/-! ### The ends of a command -/

theorem endedWell_complete (s : State) : EndedWell s.complete := ⟨rfl, rfl, rfl, rfl⟩

theorem endedWith_raise (s : State) (d : Bool) (e : CoreError) : EndedWith (s.raise d e) e.code e.info :=
  ⟨rfl, rfl, rfl, rfl⟩

/-- The failing end of a data command: the report and the empty output. -/
theorem dataCommand_fails {i : Instr} {s u : State} {e : CoreError} (h : exec i s = .next (u.raise true e)) :
    ∃ t, exec i s = .next t ∧ EndedWith t e.code e.info ∧ t.olen = 0 :=
  ⟨_, h, endedWith_raise u true e, rfl⟩

/-- The good end of a data command whose output fits the 32-bit `OLEN`. -/
theorem dataCommand_ends {i : Instr} {s u : State} {out : Bytes} (h : exec i s = .next (u.putOutput out).complete)
    (hl : out.length < 2 ^ 32) :
    ∃ t, exec i s = .next t ∧ EndedWell t ∧ t.output = out ∧ t.olen.toNat = out.length :=
  ⟨_, h, endedWell_complete _, State.output_putOutput u out hl, by
    simpa only [State.complete_olen, State.putOutput_olen, BitVec.toNat_ofNat] using Nat.mod_eq_of_lt hl⟩

/-! ### The checks -/

theorem installed_of_keyInstalled {s : State} {v : Variant} {rks : List Bytes} (h : KeyInstalled s v rks) :
    s.installed = .ok (v, rks) :=
  State.installed_ok.2 ⟨h.keySet, h.rkEnc, h.kcipher, h.enough⟩

section
variable {s : State} {v : Variant} {rks : List Bytes} {m : Mode} {pd : Padding}

/-- The mode commands work with what `ModeReady` names. -/
theorem modeChecks_of_ready (h : ModeReady s v rks m pd) : modeChecks Config.params s = .ok ⟨v, rks, m, pd⟩ :=
  modeChecks_ok.2 ⟨installed_of_keyInstalled h.key, (ctrlMode_iff s m).2 h.mode, h.capacity, h.iv, h.delta,
    (ctrlPad_iff s pd).2 h.pad⟩

/-- `ENCBUF` from a ready state. -/
theorem exec_encbuf_of_ready (h : ModeReady s v rks m pd) :
    ∃ u : State, exec .encbuf s
      = .next (u.putOutput (s.modeEnc ⟨v, rks, m, pd⟩ (s.paddedInput ⟨v, rks, m, pd⟩))).complete := by
  rw [exec_encbuf]
  rcases encryptCommand_cases Config.params s.modeEnc s with ⟨e, he, _⟩ | ⟨c, hc, ht⟩
  · cases he.symm.trans (modeChecks_of_ready h)
  · cases hc.symm.trans (modeChecks_of_ready h)
    exact ⟨_, congrArg _ ht⟩

/-- In the default build `DECCHK` is `DECBUF` for every thread count (`46_chunked_and_parallel.md` R265). -/
theorem exec_decrypting {i : Instr} (hi : i = .decbuf ∨ ∃ n, i = .decchk n) (s : State) :
    exec i s = .next (decryptCommand Config.params s.modeDec s) := by
  rcases hi with rfl | ⟨n, rfl⟩
  · exact exec_decbuf s
  · have whole : (fun c x => runChunked Config.params.legacyChunkRestart n.toNat c.bs c.mode (s.modeDec c) x)
        = s.modeDec := by
      funext c x
      exact runChunked_false _ _ _ _ x
    rw [exec_decchk, decryptChunked, whole]

section
variable {i : Instr} (hi : i = .decbuf ∨ ∃ n, i = .decchk n) (h : ModeReady s v rks m pd)
include hi h

/-- A decrypting mode command on an incomplete block. -/
theorem exec_decrypting_partial (hd : s.dlen.toNat % blockSize v ≠ 0) :
    exec i s = .next (s.raise true (.sizeBuf s.dlen)) := by
  rw [exec_decrypting hi]
  rcases decryptCommand_cases Config.params s.modeDec s with
    ⟨e, he, _⟩ | ⟨c, _, _, ht⟩ | ⟨c, e, hc, hm, _⟩ | ⟨c, z, hc, hm, _⟩
  · cases he.symm.trans (modeChecks_of_ready h)
  · rw [ht]
  · cases hc.symm.trans (modeChecks_of_ready h)
    exact absurd hm hd
  · cases hc.symm.trans (modeChecks_of_ready h)
    exact absurd hm hd

/-- A decrypting mode command on whole blocks whose decryption does not unpad. -/
theorem exec_decrypting_badPadding {e : CoreError} (hd : s.dlen.toNat % blockSize v = 0)
    (hu : unpad (blockSize v) pd (s.modeDec ⟨v, rks, m, pd⟩ (s.din s.dlen.toNat)) = .error e) :
    ∃ u : State, exec i s = .next (u.raise true e) := by
  rw [exec_decrypting hi]
  rcases decryptCommand_cases Config.params s.modeDec s with
    ⟨e', he, _⟩ | ⟨c, hc, hm, _⟩ | ⟨c, e', hc, _, hu', ht⟩ | ⟨c, z, hc, _, hz, _⟩
  · cases he.symm.trans (modeChecks_of_ready h)
  · cases hc.symm.trans (modeChecks_of_ready h)
    exact absurd hd hm
  · cases hc.symm.trans (modeChecks_of_ready h)
    cases hu.symm.trans hu'
    exact ⟨_, congrArg _ ht⟩
  · cases hc.symm.trans (modeChecks_of_ready h)
    cases hu.symm.trans hz

/-- A decrypting mode command on whole blocks whose decryption unpads to `z`. -/
theorem exec_decrypting_unpads {z : Bytes} (hd : s.dlen.toNat % blockSize v = 0)
    (hu : unpad (blockSize v) pd (s.modeDec ⟨v, rks, m, pd⟩ (s.din s.dlen.toNat)) = .ok z) :
    ∃ u : State, exec i s = .next (u.putOutput z).complete := by
  rw [exec_decrypting hi]
  rcases decryptCommand_cases Config.params s.modeDec s with
    ⟨e, he, _⟩ | ⟨c, hc, hm, _⟩ | ⟨c, e, hc, _, he, _⟩ | ⟨c, z', hc, _, hz, ht⟩
  · cases he.symm.trans (modeChecks_of_ready h)
  · cases hc.symm.trans (modeChecks_of_ready h)
    exact absurd hd hm
  · cases hc.symm.trans (modeChecks_of_ready h)
    cases hu.symm.trans he
  · cases hc.symm.trans (modeChecks_of_ready h)
    cases hu.symm.trans hz
    exact ⟨_, congrArg _ ht⟩

end

/-- The decrypted input is as long as the input. -/
theorem length_decryptedInput (c : ModeSetup) (hd : s.dlen.toNat % c.bs = 0) :
    (s.modeDec c (s.din s.dlen.toNat)).length = s.dlen.toNat := by
  rw [State.length_modeDec _ _ _ (by rwa [State.length_din]), State.length_din]

end

/-! ### Padding -/

/-- The length of a padded buffer in blocks: the quotient rounded up for `ZEROS`, one more than the quotient for the
others. -/
theorem length_pad_blocks (draw : Nat → Byte) {bs : Nat} (hb : 0 < bs) (scheme : Padding) (d : Bytes) :
    (pad draw bs scheme d).length
      = (if scheme = .zeros then (d.length + bs - 1) / bs else d.length / bs + 1) * bs := by
  have quot : d.length / bs * bs + d.length % bs = d.length := Nat.div_add_mod' _ _
  have rem : d.length % bs < bs := Nat.mod_lt _ hb
  have succ : (d.length / bs + 1) * bs = d.length / bs * bs + bs := Nat.succ_mul _ _
  have next : d.length + padLength bs d.length = (d.length / bs + 1) * bs := by
    rw [padLength]
    omega
  rw [length_pad draw bs hb]
  cases scheme with
  | zeros =>
    simp only [if_true]
    split
    · rename_i hz
      have up : (d.length + bs - 1) / bs = d.length / bs := (Nat.div_eq_iff hb).2 (by omega)
      rw [up]
      omega
    · have up : (d.length + bs - 1) / bs = d.length / bs + 1 := (Nat.div_eq_iff hb).2 (by omega)
      rw [up, next]
  | pkcs7 => exact next
  | ansiX923 => exact next
  | iso10126 => exact next

theorem length_paddedInput_blocks (s : State) (c : ModeSetup) :
    (s.paddedInput c).length
      = (if c.padding = .zeros then (s.dlen.toNat + c.bs - 1) / c.bs else s.dlen.toNat / c.bs + 1) * c.bs := by
  rw [State.paddedInput, length_pad_blocks (bs := c.bs) _ (blockSize_pos c.variant), State.length_din]

/-- The three length-byte schemes remove their padding alike. -/
theorem unpad_eq_unpadLength {bs : Nat} {pd : Padding} (hp : pd ≠ .zeros) (d : Bytes) :
    unpad bs pd d = unpadLength bs d := by
  cases pd with
  | zeros => exact absurd rfl hp
  | pkcs7 => rfl
  | ansiX923 => rfl
  | iso10126 => rfl

/-- A bad length byte at the end of the data. -/
theorem unpadLength_bad {bs : Nat} {d : Bytes} {p : Byte} (hd : d.length ≠ 0) (hp : p = d.getD (d.length - 1) 0)
    (bad : p = 0 ∨ bs < p.toNat ∨ d.length < p.toNat) : unpadLength bs d = .error (.rangePad p) := by
  have last : d.getLast? = some p := by
    rw [List.getLast?_eq_getElem?, hp, List.getD_eq_getElem _ _ (by omega), List.getElem?_eq_getElem]
  have bad' : p.toNat = 0 ∨ bs < p.toNat ∨ d.length < p.toNat := bad.imp_left fun h => by rw [h]; rfl
  simp only [unpadLength, last, if_pos bad']

/-! ### The statements -/

/-- Settles O27: the output is a whole number of blocks, as long as the padded input. -/
theorem encbufEncryptsThePaddedInput : Obligations.EncbufEncryptsThePaddedInput := by
  intro s v rks m pd h
  obtain ⟨hm, hl⟩ := length_paddedInput (modeChecks_of_ready h)
  obtain ⟨u, hu⟩ := exec_encbuf_of_ready h
  have hout := State.length_modeEnc s _ _ hm
  obtain ⟨t, ht, well, out, olen⟩ := dataCommand_ends hu (by omega)
  exact ⟨t, ht, well, out, olen.trans (hout.trans (length_paddedInput_blocks s _))⟩

/-- Settles O28: what unpadding leaves is no longer than the input, so it fits. -/
theorem decbufDecryptsAndUnpads : Obligations.DecbufDecryptsAndUnpads := by
  intro s v rks m pd z h hd hz
  have hl : z.length ≤ s.dlen.toNat :=
    (length_unpad_le hz).trans_eq (length_decryptedInput ⟨v, rks, m, pd⟩ hd)
  obtain ⟨u, hu⟩ := exec_decrypting_unpads (.inl rfl) h hd hz
  exact dataCommand_ends hu (by have := h.capacity; omega)

/-- Settles O31: on whole blocks the decryption is as long as the input, so its last byte is there unless the input is
empty. -/
theorem decryptingErrorsInOrder : Obligations.DecryptingErrorsInOrder := by
  intro i s v rks m pd hi h
  refine ⟨fun hd => dataCommand_fails (exec_decrypting_partial hi h hd), fun hp h0 => ?_, ?_⟩
  · have hd : s.dlen.toNat % blockSize v = 0 := by simp [h0]
    have empty : s.modeDec ⟨v, rks, m, pd⟩ (s.din s.dlen.toNat) = [] :=
      List.eq_nil_of_length_eq_zero ((length_decryptedInput _ hd).trans (by simp [h0]))
    obtain ⟨u, hu⟩ := exec_decrypting_badPadding hi h hd (e := .rangePad 0) (by
      rw [unpad_eq_unpadLength hp, empty]
      rfl)
    exact dataCommand_fails hu
  · rintro y p hp hd h0 rfl hlast bad
    have hl := length_decryptedInput ⟨v, rks, m, pd⟩ hd
    obtain ⟨u, hu⟩ := exec_decrypting_badPadding hi h hd (e := .rangePad p)
      ((unpad_eq_unpadLength hp _).trans (unpadLength_bad (hl.trans_ne h0) hlast bad))
    rw [BitVec.ofNat_toNat]
    exact dataCommand_fails hu

end Sys2Proof.Machine
end

section
/-! The checks and the result of `PERMUTE` (`40_bit_permutation.md` R121, R122, R127). -/

namespace Sys2Proof.Machine

open Sys2Proof.Safety

/-! ### Entries out of range -/

/-- An entry is out of range by its resolved index, computed on integers (R122). -/
theorem outOfRange_iff (base nbits t : Nat) :
    outOfRange base nbits t = true ↔ (t : Int) - base < 0 ∨ (nbits : Int) ≤ t - base := by
  simp only [outOfRange, Bool.or_eq_true, decide_eq_true_eq]
  omega

theorem firstOutOfRange_eq_none {T : List Nat} {base nbits : Nat} (h : ∀ t ∈ T, outOfRange base nbits t = false) :
    firstOutOfRange T base nbits = none :=
  List.findIdx?_eq_none_iff.2 h

theorem firstOutOfRange_eq_some {T : List Nat} {base nbits i : Nat} (hi : i < T.length)
    (before : ∀ j, j < i → outOfRange base nbits (T.getD j 0) = false)
    (here : outOfRange base nbits (T.getD i 0) = true) : firstOutOfRange T base nbits = some i := by
  refine List.findIdx?_eq_some_iff_getElem.2 ⟨hi, ?_, fun j hj => ?_⟩
  · rwa [List.getD_eq_getElem _ _ hi] at here
  · have hj' := before j hj
    rw [List.getD_eq_getElem _ _ (by omega)] at hj'
    simp [hj']

theorem State.getD_tbl (s : State) {m i : Nat} (hi : i < m) : (s.tbl m).getD i 0 = s.tblEntry i := by
  simp [State.tbl, hi]

/-! ### The checks, one lemma per failure -/

section
variable {p : Params} {m : Nat} {s : State}

theorem permuteChecks_empty (h : s.dlen.toNat = 0 ∨ m = 0) : permuteChecks p m s = some (.sizePerm 0) := by
  rcases h with h | h <;> simp [permuteChecks, h]

theorem permuteChecks_overCapacity (hd : s.dlen.toNat ≠ 0) (hm : m ≠ 0) (h : p.bufBytes < s.dlen.toNat) :
    permuteChecks p m s = some (.sizeBuf s.dlen) := by
  rw [permuteChecks, if_neg hd, if_neg hm, if_pos h]

theorem permuteChecks_badTable (hd : s.dlen.toNat ≠ 0) (hm : m ≠ 0) (hc : s.dlen.toNat ≤ p.bufBytes)
    (h : p.tblEntries < m ∨ m % 8 ≠ 0) : permuteChecks p m s = some (.sizePerm m) := by
  rw [permuteChecks, if_neg hd, if_neg hm, if_neg (by omega)]
  by_cases hl : p.tblEntries < m
  · rw [if_pos hl]
  · rw [if_neg hl, if_pos (h.resolve_left hl)]

theorem permuteChecks_badEntry {i : Nat} (hd : s.dlen.toNat ≠ 0) (hm : m ≠ 0) (hc : s.dlen.toNat ≤ p.bufBytes)
    (hl : m ≤ p.tblEntries) (h8 : m % 8 = 0)
    (hi : firstOutOfRange (s.tbl m) s.ctrlPbase (8 * s.dlen.toNat) = some i) :
    permuteChecks p m s = some (.rangePerm i) := by
  rw [permuteChecks, if_neg hd, if_neg hm, if_neg (by omega), if_neg (by omega), if_neg (by omega), hi]
  rfl

end

/-! ### The command -/

theorem exec_permute_fails {s : State} {m : BitVec 16} {e : CoreError}
    (h : permuteChecks Config.params m.toNat s = some e) :
    ∃ t, exec (.permute m) s = .next t ∧ EndedWith t e.code e.info ∧ t.olen = 0 := by
  rcases permuteCommand_cases Config.params m s with ⟨e', he, ht⟩ | ⟨hn, _⟩
  · cases h.symm.trans he
    exact dataCommand_fails ((exec_permute m s).trans (congrArg _ ht))
  · cases h.symm.trans hn

theorem exec_permute_ok {s : State} {m : BitVec 16} (h : permuteChecks Config.params m.toNat s = none) :
    exec (.permute m) s = .next
      (s.putOutput (permute (s.din s.dlen.toNat) (s.tbl m.toNat) s.ctrlPorder s.ctrlPbase)).complete := by
  rcases permuteCommand_cases Config.params m s with ⟨e, he, _⟩ | ⟨_, ht⟩
  · cases h.symm.trans he
  · rw [exec_permute, ht]

/-- Settles O32: the table has no entry out of range, and `m` is a whole number of bytes. -/
theorem permuteMovesTheSelectedBits : Obligations.PermuteMovesTheSelectedBits := by
  intro s m o ho hd hm hc hl h8 hin
  have inRange : ∀ t ∈ s.tbl m.toNat, outOfRange s.ctrlPbase (8 * s.dlen.toNat) t = false := by
    intro t ht
    obtain ⟨i, hi, rfl⟩ := List.mem_map.1 ht
    obtain ⟨low, high⟩ := hin i (List.mem_range.1 hi)
    rw [Bool.eq_false_iff, Ne, outOfRange_iff, ctrlPbase_eq]
    omega
  have checks : permuteChecks Config.params m.toNat s = none :=
    permuteChecks_none.2 ⟨hd, hm, hc, hl, h8, firstOutOfRange_eq_none inRange⟩
  obtain ⟨t, ht, well, out, olen⟩ := dataCommand_ends (exec_permute_ok checks) (by
    rw [length_permute, State.length_tbl]
    omega)
  rw [length_permute, State.length_tbl] at olen
  refine ⟨t, ht, well, olen, fun i hi => ?_⟩
  rw [out, (ctrlPorder_iff s o).2 ho, bitOf_permute _ _ _ _ _ (by rw [State.length_tbl]; omega),
    State.getD_tbl s hi, ctrlPbase_eq]

/-- Settles O33: the six checks, in their order. -/
theorem permuteErrorsInOrder : Obligations.PermuteErrorsInOrder := by
  intro s m
  refine ⟨fun h0 => exec_permute_fails (permuteChecks_empty (.inl h0)), ?_, fun hd hm => ?_⟩
  · rintro rfl
    exact exec_permute_fails (permuteChecks_empty (.inr rfl))
  have hm' : m.toNat ≠ 0 := fun h => hm (BitVec.eq_of_toNat_eq h)
  refine ⟨fun hc => exec_permute_fails (permuteChecks_overCapacity hd hm' hc),
    fun hc h => exec_permute_fails (permuteChecks_badTable hd hm' hc h), ?_⟩
  intro i hc hl h8 hi before here
  refine exec_permute_fails (permuteChecks_badEntry hd hm' hc hl h8
    (firstOutOfRange_eq_some (by rwa [State.length_tbl]) (fun j hj => ?_) ?_))
  · have hj' := before j hj
    rw [State.getD_tbl s (by omega), Bool.eq_false_iff, Ne, outOfRange_iff, ctrlPbase_eq]
    omega
  · rw [State.getD_tbl s hi, outOfRange_iff, ctrlPbase_eq]
    omega

end Sys2Proof.Machine
end

section
/-! The reset signal (`10_state.md` R36, `70_reset_and_hazards.md` R340). -/

namespace Sys2Proof.Machine

open Sys2Proof.Safety

theorem step_reset {s : State} {rest : List HostEvent} (h : s.port.pending = .reset :: rest) :
    step s = .next (hostReset rest s) :=
  step_event h

theorem getD_zeroBytes (n k : Nat) : (zeroBytes n).getD k 0 = 0 := by simp [zeroBytes, rep]

theorem Reg4.bytes_zero : Reg4.zero.bytes = zeroBytes 16 := by decide

theorem Reg8.bytes_zero : Reg8.zero.bytes = zeroBytes 32 := by decide

/-- `STATUS` reads 0 with no report and no key (`10_state.md` R23). -/
theorem statusWord_eq_zero {s : State} (done : s.done = false) (err : s.err = false) (keySet : s.keySet = false)
    (kcipher : s.kcipher = .base) : statusWord s = 0 := by
  rw [statusWord, done, err, keySet, kcipher]
  decide

/-- With `OLEN` 0 every byte of `DOUT` reads 0 (`20_memory.md` R67). -/
theorem State.doutByte_of_olen_zero {s : State} (h : s.olen = 0) (k : Nat) : s.doutByte k = 0 := by
  simp [State.doutByte, h]

/-- `ID` reads its constant in every state (`10_state.md` R21). -/
theorem reads_id (s : State) : Reads s 0x00000 0x464E4301 := fun _ h => step_read (l := .id) rfl h

/-- Settles O13: the step on the reset signal is `hardReset`, whose fields are the reset values. -/
theorem resetSignalGivesResetState : Obligations.ResetSignalGivesResetState := by
  intro s rest h
  have keyZero : ∀ k, Reg8.zero.bytes.getD k 0 = 0 := by simpa only [Reg8.bytes_zero] using getD_zeroBytes 32
  have blockZero : ∀ k, Reg4.zero.bytes.getD k 0 = 0 := by simpa only [Reg4.bytes_zero] using getD_zeroBytes 16
  exact ⟨_, step_reset h, rfl, statusWord_eq_zero rfl rfl rfl rfl, rfl, rfl, rfl, rfl, rfl, rfl, keyZero, blockZero,
    blockZero, rfl, rfl, State.doutByte_of_olen_zero rfl, reads_id _, rfl⟩

end Sys2Proof.Machine
end

section
/-! The accesses of the host port (`20_memory.md` R61 to R68): what each mapped offset answers, the bytes of a `DOUT` word, and
which accesses are answered at all. -/

namespace Sys2Proof.Machine

open Sys2Proof.Safety

/-! ### Reads -/

/-- A mapped offset reads the word of its location and changes nothing else (R64). -/
theorem reads_location {a : Nat} {l : Location} (hl : locate Config.params a = some l) (s : State) :
    Reads s a (readLocation s l) :=
  fun _ h => step_read hl h

/-- The fields of `STATUS` as numbers (`10_state.md` R23). -/
theorem statusWord_eq_ofNat (s : State) : statusWord s
    = BitVec.ofNat 32 (s.done.toNat + 2 * s.err.toNat + 4 * s.keySet.toNat + 16 * cipherCode s.kcipher) := by
  rw [statusWord]
  generalize s.done = done
  generalize s.err = err
  generalize s.keySet = keySet
  cases s.kcipher <;> revert done err keySet <;> decide

/-- Settles O7: every offset is in the map, and its location reads the word. -/
theorem hostReadReturnsTheWord : Obligations.HostReadReturnsTheWord := by
  intro s
  rw [← statusWord_eq_ofNat s, BitVec.ofNat_toNat, BitVec.ofNat_toNat, BitVec.ofNat_toNat]
  have register {a : Nat} {l : Location} (hl : locate Config.params a = some l) := reads_location hl s
  exact ⟨reads_id s, register (l := .ctrl) rfl, register (l := .status) rfl,
    register (l := .errcode) rfl, register (l := .errinfo) rfl, register (l := .cmd) rfl, register (l := .dlen) rfl,
    register (l := .olen) rfl, register (l := .ivlen) rfl, register (l := .deltalen) rfl,
    fun j => register (locate_key j), fun j => register (locate_iv j), fun j => register (locate_delta j),
    fun j hj => register (locate_tbl j hj), fun j hj => register (locate_din j hj),
    fun j hj => register (locate_dout j hj)⟩

/-! ### The bytes of a word -/

/-- A word of four bytes as a number, byte 0 the most significant (R62). -/
theorem toNat_wordOfBytes (b0 b1 b2 b3 : Byte) : (wordOfBytes b0 b1 b2 b3).toNat
    = b0.toNat * 2 ^ 24 + b1.toNat * 2 ^ 16 + b2.toNat * 2 ^ 8 + b3.toNat := by
  have append {n : Nat} (x : BitVec n) (b : Byte) : (x ++ b).toNat = x.toNat * 2 ^ 8 + b.toNat := by
    rw [BitVec.toNat_append, ← Nat.shiftLeft_add_eq_or_of_lt b.isLt, Nat.shiftLeft_eq]
  rw [wordOfBytes, append, append, append]
  omega

/-- Byte `i` of a word of four bytes (R62). -/
theorem byte_wordOfBytes (f : Nat → Byte) {i : Nat} (hi : i < 4) :
    (wordOfBytes (f 0) (f 1) (f 2) (f 3)).toNat / 2 ^ (24 - 8 * i) % 256 = (f i).toNat := by
  have h0 := (f 0).isLt
  have h1 := (f 1).isLt
  have h2 := (f 2).isLt
  have h3 := (f 3).isLt
  rw [toNat_wordOfBytes]
  interval_cases i <;> omega

/-- A byte of `DOUT` as a number: the stored one below `OLEN`, 0 from there on (R67). -/
theorem State.toNat_doutByte (s : State) (k : Nat) :
    (s.doutByte k).toNat = if k < s.olen.toNat then (s.byteAt (doutBase + k)).toNat else 0 := by
  rw [State.doutByte]
  split <;> rfl

/-- Settles O8: byte `i` of the word answered is the gated byte `4 * j + i`. -/
theorem doutReadIsGatedByOlen : Obligations.DoutReadIsGatedByOlen := by
  intro s j hj
  refine ⟨_, reads_location (locate_dout j hj) s, fun i hi => ?_⟩
  exact (byte_wordOfBytes (fun i => s.doutByte (4 * j + i)) hi).trans (s.toNat_doutByte (4 * j + i))

/-! ### Which accesses are answered -/

/-- The map has no location exactly for the offsets that are not mapped (R61). -/
theorem locate_eq_none_iff_not_mapped (a : Nat) : locate Config.params a = none ↔ ¬MappedOffset a := by
  rw [locate_eq_none, MappedOffset]
  omega

theorem exists_locate_of_mapped {a : Nat} (h : MappedOffset a) : ∃ l, locate Config.params a = some l :=
  Option.ne_none_iff_exists'.1 fun hn => (locate_eq_none_iff_not_mapped a).1 hn h

/-- An access that is not 32 bits wide at a mapped offset goes nowhere (R63, R68). -/
theorem accessTarget_eq_none {bits a : Nat} (h : ¬(bits = 32 ∧ MappedOffset a)) :
    accessTarget Config.params bits a = none := by
  rw [accessTarget, ite_eq_right_iff]
  exact fun hb => (locate_eq_none_iff_not_mapped a).2 fun ha => h ⟨hb, ha⟩

@[simp] theorem writeLocation_port (s : State) (l : Location) (w : Word) : (writeLocation s l w).port = s.port := by
  cases l <;> rfl

/-- No command touches the host port or counts a reset. -/
theorem exec_keepsPort {i : Instr} {s t : State} (h : exec i s = .next t) : KeepsPort s t := by
  cases exec_ends h <;> subst t <;> exact ⟨rfl, rfl⟩

/-- A command word, legal or not, ends in a next state with the host port untouched. -/
theorem runCommand_next (w : Word) (s : State) : ∃ t, runCommand w s = .next t ∧ t.port = s.port := by
  rw [runCommand]
  cases decode w with
  | error r => exact ⟨_, rfl, rfl⟩
  | ok i =>
    obtain ⟨t, ht⟩ := exec_next i s
    exact ⟨t, ht, (exec_keepsPort ht).port⟩

/-- Every write of a mapped offset is acknowledged, `CMD` included (R65). -/
theorem write_acknowledged {s : State} {a : Nat} {w : Word} {rest : List HostEvent} (ha : MappedOffset a)
    (h : s.port.pending = .write 32 a w :: rest) : ∃ t, step s = .next t ∧ t.port = ⟨rest, .ack⟩ := by
  obtain ⟨l, hl⟩ := exists_locate_of_mapped ha
  by_cases hc : l = .cmd
  · obtain rfl : a = cmdOffset := locate_eq_cmd (hc ▸ hl)
    rw [step_command h]
    exact runCommand_next w (s.answered rest .ack)
  · exact ⟨_, step_write hl hc h, writeLocation_port _ l w⟩

/-- Settles O9: a bad access has no target, and a good one is a read of its location or an acknowledged write. -/
theorem accessAnsweredExactlyWhenMapped : Obligations.AccessAnsweredExactlyWhenMapped := by
  intro s bits a rest
  refine ⟨fun h => ⟨fun bad => step_bad_read (accessTarget_eq_none bad) h, ?_⟩,
    fun w h => ⟨fun bad => step_bad_write (accessTarget_eq_none bad) h, ?_⟩⟩
  · rintro ⟨rfl, ha⟩
    obtain ⟨l, hl⟩ := exists_locate_of_mapped ha
    exact ⟨_, step_read hl h⟩
  · rintro ⟨rfl, ha⟩
    exact write_acknowledged ha h

end Sys2Proof.Machine
end

section
/-! The match and mask columns of the opcode table (`30_encoding.md` R95): what decodes to a command is the word the encoder
assembles for it, and a mask keeps the fields the table compares. -/

namespace Sys2Proof

/-! ### Decoding inverts the encoder -/

theorem decodeNoArg_eq_ok {arg : BitVec 16} {i j : Instr} : decodeNoArg arg i = .ok j ↔ arg = 0 ∧ i = j := by
  rw [decodeNoArg]
  split
  next ha => rw [Except.ok.injEq, and_iff_right ha]
  next ha => exact iff_of_false nofun fun h => ha h.1

theorem decodeThreads_eq_ok {arg : BitVec 16} {i j : Instr} : decodeThreads arg i = .ok j ↔ arg ≠ 0 ∧ i = j := by
  rw [decodeThreads]
  split
  next ha => exact iff_of_false nofun fun h => h.1 ha
  next ha => rw [Except.ok.injEq, and_iff_right ha]

theorem decode_encode {i : Instr} (h : i.wellFormed = true) : decode (encode i) = .ok i := by
  cases i with
  | nop => exact Laws.DecodesBack.nop h
  | setkey n => exact Laws.DecodesBack.setkey n h
  | encblk => exact Laws.DecodesBack.encblk h
  | decblk => exact Laws.DecodesBack.decblk h
  | encbuf => exact Laws.DecodesBack.encbuf h
  | decbuf => exact Laws.DecodesBack.decbuf h
  | encchk t => exact Laws.DecodesBack.encchk t h
  | decchk t => exact Laws.DecodesBack.decchk t h
  | permute m => exact Laws.DecodesBack.permute m h
  | clr => exact Laws.DecodesBack.clr h

/-- A word is the assembled one exactly when its three fields are the ones assembled (R90). -/
theorem commandWord_eq_iff {opc : BitVec 8} {arg : BitVec 16} {w : Word} :
    commandWord opc arg = w ↔ rsvField w = 0 ∧ opcField w = opc ∧ argField w = arg := by
  constructor
  · rintro rfl
    simp
  · rintro ⟨hr, rfl, rfl⟩
    exact commandWord_fields w hr

/-- The branches of `decode` that accept a word, in the order of R91. -/
theorem wellFormed_and_encode_of_decode {w : Word} {i : Instr} (h : decode w = .ok i) :
    i.wellFormed = true ∧ encode i = w := by
  rw [decode] at h
  split at h
  · cases h
  rename_i hr
  have assembled {opc : BitVec 8} {arg : BitVec 16} (ho : opcField w = opc) (ha : argField w = arg) :
      commandWord opc arg = w := commandWord_eq_iff.2 ⟨not_not.1 hr, ho, ha⟩
  have noArg {opc : BitVec 8} {j : Instr} (ho : opcField w = opc) (hj : decodeNoArg (argField w) j = .ok i)
      (hwf : j.wellFormed = true) (he : encode j = commandWord opc 0) : i.wellFormed = true ∧ encode i = w := by
    obtain ⟨ha, rfl⟩ := decodeNoArg_eq_ok.1 hj
    exact ⟨hwf, he.trans (assembled ho ha)⟩
  split_ifs at h with nop setkey encblk decblk encbuf decbuf encchk decchk permute clr
  · exact noArg nop h rfl rfl
  · cases h
    exact ⟨rfl, assembled setkey rfl⟩
  · exact noArg encblk h rfl rfl
  · exact noArg decblk h rfl rfl
  · exact noArg encbuf h rfl rfl
  · exact noArg decbuf h rfl rfl
  · obtain ⟨ha, rfl⟩ := decodeThreads_eq_ok.1 h
    exact ⟨bne_iff_ne.2 ha, assembled encchk rfl⟩
  · obtain ⟨ha, rfl⟩ := decodeThreads_eq_ok.1 h
    exact ⟨bne_iff_ne.2 ha, assembled decchk rfl⟩
  · cases h
    exact ⟨rfl, assembled permute rfl⟩
  · exact noArg clr h rfl rfl

theorem decode_eq_ok_iff {w : Word} {i : Instr} : decode w = .ok i ↔ i.wellFormed = true ∧ encode i = w := by
  refine ⟨wellFormed_and_encode_of_decode, ?_⟩
  rintro ⟨hwf, rfl⟩
  exact decode_encode hwf

/-! ### The two masks of the table -/

/-- `ARG` as a number: the bits [23:8] of the word (R90, R92). -/
theorem toNat_argField (w : Word) : (argField w).toNat = w.toNat / 256 % 65536 := by
  rw [argField, BitVec.extractLsb'_toNat, Nat.shiftRight_eq_div_pow]

@[simp] theorem opcField_operandMask (w : Word) : opcField (w &&& 0xFF0000FF#32) = opcField w :=
  BitVec.extractLsb'_and.trans BitVec.and_allOnes

@[simp] theorem argField_operandMask (w : Word) : argField (w &&& 0xFF0000FF#32) = 0 :=
  BitVec.extractLsb'_and.trans BitVec.and_zero

@[simp] theorem rsvField_operandMask (w : Word) : rsvField (w &&& 0xFF0000FF#32) = rsvField w :=
  BitVec.extractLsb'_and.trans BitVec.and_allOnes

/-- The mask of the commands with an operand compares `RSV` and `OPC` and leaves `ARG` free. -/
theorem operandMask_eq_iff {opc : BitVec 8} {w : Word} :
    w &&& 0xFF0000FF#32 = commandWord opc 0 ↔ rsvField w = 0 ∧ opcField w = opc := by
  rw [eq_comm, commandWord_eq_iff]
  simp

/-- The word of a command with an operand, by its row of the table. -/
theorem commandWord_eq_iff_operandMask {opc : BitVec 8} {arg : BitVec 16} {w : Word} :
    commandWord opc arg = w ↔ w &&& 0xFF0000FF#32 = commandWord opc 0 ∧ arg.toNat = w.toNat / 256 % 65536 := by
  rw [commandWord_eq_iff, operandMask_eq_iff, ← toNat_argField, BitVec.toNat_inj, eq_comm (a := arg), and_assoc]

/-- A command without an operand has one word, which the full mask compares whole. -/
theorem decode_eq_ok_iff_fullMask {w : Word} {i : Instr} (hwf : i.wellFormed = true) :
    decode w = .ok i ↔ w &&& 0xFFFFFFFF#32 = encode i := by
  rw [decode_eq_ok_iff, show w &&& 0xFFFFFFFF#32 = w from BitVec.and_allOnes, eq_comm (a := w)]
  exact and_iff_right hwf

/-- A command with a free operand (`SETKEY`, `PERMUTE`). -/
theorem decode_eq_ok_iff_operandMask {w : Word} {i : Instr} {opc : BitVec 8} {arg : BitVec 16}
    (hwf : i.wellFormed = true) (he : encode i = commandWord opc arg) :
    decode w = .ok i ↔ w &&& 0xFF0000FF#32 = commandWord opc 0 ∧ arg.toNat = w.toNat / 256 % 65536 := by
  rw [decode_eq_ok_iff, he, commandWord_eq_iff_operandMask]
  exact and_iff_right hwf

/-- A command whose operand is a thread count (`ENCCHK`, `DECCHK`). -/
theorem decode_eq_ok_iff_threadsMask {w : Word} {i : Instr} {opc : BitVec 8} {t : BitVec 16}
    (hwf : i.wellFormed = (t != 0)) (he : encode i = commandWord opc t) :
    decode w = .ok i ↔ w &&& 0xFF0000FF#32 = commandWord opc 0 ∧ t.toNat = w.toNat / 256 % 65536 ∧ t ≠ 0 := by
  rw [decode_eq_ok_iff, he, commandWord_eq_iff_operandMask, hwf, bne_iff_ne, and_comm, and_assoc]

/-- Settles O3, row by row of the table. -/
theorem matchAndMaskSelectTheCommand : Obligations.MatchAndMaskSelectTheCommand := by
  intro w
  refine ⟨?nop, ?setkey, ?encblk, ?decblk, ?encbuf, ?decbuf, ?encchk, ?decchk, ?permute, ?clr⟩
  case setkey => exact fun n => decode_eq_ok_iff_operandMask (opc := 0x01) rfl rfl
  case permute => exact fun m => decode_eq_ok_iff_operandMask (opc := 0x08) rfl rfl
  case encchk => exact fun t => decode_eq_ok_iff_threadsMask (opc := 0x06) rfl rfl
  case decchk => exact fun t => decode_eq_ok_iff_threadsMask (opc := 0x07) rfl rfl
  all_goals exact decode_eq_ok_iff_fullMask rfl

end Sys2Proof
end

section
/-! The contract of the primitive `Permute` (`40_bit_permutation.md` R121, R122). -/

namespace Sys2Proof.Machine

/-- An entry is in range when its resolved index, computed on integers, is a bit number of the input (R122). -/
theorem outOfRange_eq_false_iff (base nbits t : Nat) :
    outOfRange base nbits t = false ↔ (0 : Int) ≤ t - base ∧ (t : Int) - base < nbits := by
  rw [Bool.eq_false_iff, Ne, outOfRange_iff]
  omega

/-! ### `Permute`, one lemma per outcome -/

section
variable {inp : Bytes} {T : List Nat} {o : BitOrder} {base : Nat}

theorem permuteChecked_empty (h : inp.length = 0 ∨ T.length = 0) :
    permuteChecked inp T o base = .error (.sizePerm 0) := by
  rw [permuteChecked]
  by_cases hn : inp.length = 0
  · rw [if_pos hn]
  · rw [if_neg hn, if_pos (h.resolve_left hn)]

theorem permuteChecked_badLength (hn : inp.length ≠ 0) (hT : T.length ≠ 0) (h8 : T.length % 8 ≠ 0) :
    permuteChecked inp T o base = .error (.sizePerm T.length) := by
  rw [permuteChecked, if_neg hn, if_neg hT, if_pos h8]

theorem permuteChecked_badEntry {i : Nat} (hn : inp.length ≠ 0) (hT : T.length ≠ 0) (h8 : T.length % 8 = 0)
    (hi : firstOutOfRange T base (8 * inp.length) = some i) :
    permuteChecked inp T o base = .error (.rangePerm i) := by
  rw [permuteChecked, if_neg hn, if_neg hT, if_neg (not_not.2 h8), hi]

theorem permuteChecked_ok (hn : inp.length ≠ 0) (hT : T.length ≠ 0) (h8 : T.length % 8 = 0)
    (inRange : firstOutOfRange T base (8 * inp.length) = none) :
    permuteChecked inp T o base = .ok (permute inp T o base) := by
  rw [permuteChecked, if_neg hn, if_neg hT, if_neg (not_not.2 h8), inRange]

end

/-- Settles O34: the failures in their order, and the bits of the result. -/
theorem permuteContract : Obligations.PermuteContract := by
  intro inp T o base
  refine ⟨permuteChecked_empty, permuteChecked_badLength, ?rangePerm, ?result⟩
  case rangePerm =>
    intro i hn h8 hi before here
    refine permuteChecked_badEntry hn (by omega) h8 (firstOutOfRange_eq_some hi (fun j hj => ?_) ?_)
    · exact (outOfRange_eq_false_iff _ _ _).2 (mod_cast before j hj)
    · exact (outOfRange_iff _ _ _).2 (mod_cast here)
  case result =>
    intro hn hT h8 inRange
    have noBadEntry : firstOutOfRange T base (8 * inp.length) = none := by
      refine firstOutOfRange_eq_none fun t ht => ?_
      obtain ⟨j, hj, rfl⟩ := List.mem_iff_getElem.1 ht
      rw [← List.getD_eq_getElem _ 0 hj]
      exact (outOfRange_eq_false_iff _ _ _).2 (mod_cast inRange j hj)
    exact ⟨_, permuteChecked_ok hn hT h8 noBadEntry, length_permute inp T o base,
      fun i hi => bitOf_permute inp T o base i (by omega)⟩

end Sys2Proof.Machine
end

section
/-! The parity bit of a byte (`41_base_cipher_round_and_schedule.md` R150, R151). -/

namespace Sys2Proof.Machine

/-- Adjusting keeps every bit but the lowest (R150). -/
theorem getLsbD_adjustParityByte (b : Byte) {q : Nat} (hq : 0 < q) (hq8 : q < 8) :
    (adjustParityByte b).getLsbD q = b.getLsbD q := by
  have mask : ∀ q < 8, 0 < q → (0xFE : Byte).getLsbD q = true := by decide
  simpa only [BitVec.getLsbD_and, mask q hq8 hq, Bool.and_true] using
    congrArg (fun c => c.getLsbD q) (adjustParityByte_and b)

theorem adjustParityByte_ushiftRight (b : Byte) : adjustParityByte b >>> 1 = b >>> 1 := by
  refine BitVec.eq_of_getLsbD_eq fun q hq => ?_
  rw [BitVec.getLsbD_ushiftRight, BitVec.getLsbD_ushiftRight]
  by_cases h8 : 1 + q < 8
  · exact getLsbD_adjustParityByte b (by omega) h8
  · rw [BitVec.getLsbD_of_ge _ _ (by omega), BitVec.getLsbD_of_ge _ _ (by omega)]

/-- Setting the lowest bit adds one to the number of set bits among the upper seven. -/
theorem popcount_setLowBit : ∀ b : Byte, popcount (b &&& 0xFE ||| 1) = popcount (b &&& 0xFE) + 1 := by decide

theorem popcount_adjustParityByte (b : Byte) : popcount (adjustParityByte b) % 2 = 1 := by
  simp only [adjustParityByte]
  split
  · assumption
  · rw [popcount_setLowBit]; omega

/-- The lowest bit of a byte has no part in adjusting it. -/
theorem adjustParityByte_flipLow (b : Byte) : adjustParityByte (b ^^^ 1) = adjustParityByte b := by
  have upper : ∀ c : Byte, (c ^^^ 1) &&& 0xFE = c &&& 0xFE := by decide
  rw [adjustParityByte, upper, adjustParityByte]

theorem schedKey_flipLow (c : Byte) : schedKey (c ^^^ 1) = schedKey c := by
  simp only [schedKey, adjustParity, rep, List.map_replicate, adjustParityByte_flipLow]

/-- Settles O37: what adjusting keeps, what it makes, when it changes nothing, and the schedule key. -/
theorem parityAdjustmentMakesBytesOdd : Obligations.ParityAdjustmentMakesBytesOdd := fun b =>
  ⟨adjustParityByte_ushiftRight b, popcount_adjustParityByte b, parityOkByte_iff b, (schedKey_flipLow b).symm⟩

end Sys2Proof.Machine
end

section
/-! The round function and the key schedule of the base cipher, bit by bit (`41_base_cipher_round_and_schedule.md` R152
to R155). -/

namespace Sys2Proof.Machine

open Sys2Proof.Safety

theorem bitOf_permuteFixed (inp : Bytes) (T : List Nat) {k : Nat} (hk : k < 8 * (T.length / 8)) :
    bitOf .msbFirst (permuteFixed inp T) k = bitOf .msbFirst inp (T.getD k 0 - 1) :=
  bitOf_permute inp T .msbFirst 1 k hk

/-! ### The round function -/

/-- Element `k` of `n` lists of length `m` in a row is element `k mod m` of list `k / m`. -/
theorem getD_flatMap_range {α : Type} (f : Nat → List α) (d : α) {m : Nat} (hf : ∀ j, (f j).length = m) (n : Nat)
    {k : Nat} (hk : k < m * n) : ((List.range n).flatMap f).getD k d = (f (k / m)).getD (k % m) d := by
  have hlen : ∀ n, ((List.range n).flatMap f).length = m * n := fun n => by
    simp [List.length_flatMap, hf, Nat.mul_comm]
  induction n with
  | zero => simp at hk
  | succ n ih =>
    rw [List.range_succ, List.flatMap_append, List.flatMap_singleton]
    rw [Nat.mul_succ] at hk
    by_cases h : k < m * n
    · rw [List.getD_append _ _ _ _ (by rwa [hlen]), ih h]
    · rw [List.getD_append_right _ _ _ _ (by rw [hlen]; omega), hlen]
      obtain ⟨r, rfl⟩ := Nat.exists_eq_add_of_le (Nat.le_of_not_lt h)
      have hr : r < m := by omega
      rw [Nat.mul_add_div (by omega), Nat.mul_add_mod, Nat.div_eq_of_lt hr, Nat.mod_eq_of_lt hr,
        Nat.add_sub_cancel_left, Nat.add_zero]

/-- The bits that S-box `j` looks at are those of group `j` of the expanded half-block xor the round key (R152). -/
theorem toNat_roundInput {half rk : Bytes} (hrk : rk.length = 6) {j m : Nat} (hj : j < 8) (hm : m < 6) :
    (bitOf .msbFirst (xorBytes (permuteFixed half tables.e) rk) (6 * j + m)).toNat = groupBit half rk j m := by
  rw [bitOf_xorBytes _ _ _ (by simp only [length_permuteFixed, length_tables, hrk]),
    bitOf_permuteFixed _ _ (by simp only [length_tables]; omega), groupBit]

/-- Element `m` of the output of S-box `j` is bit `3 - m` of the entry its group selects (R152). -/
theorem getD_sboxBits {half rk : Bytes} (hrk : rk.length = 6) {j m : Nat} (hj : j < 8) (hm : m < 4) :
    (sboxBits (xorBytes (permuteFixed half tables.e) rk) j).getD m false = (groupValue half rk j).testBit (3 - m) := by
  have msbFirst (v : Nat) : [v.testBit 3, v.testBit 2, v.testBit 1, v.testBit 0].getD m false = v.testBit (3 - m) := by
    interval_cases m <;> rfl
  simp only [sboxBits, toNat_roundInput hrk hj, Nat.reduceLT]
  exact msbFirst _

/-- The bit that `P[i]` names is one of the 32 (R144). -/
theorem p_place_lt : ∀ i < 32, tables.p.getD i 0 - 1 < 32 := by decide

/-- Bit `i` of the round is bit `P[i]` of the eight S-box values (R152). -/
theorem bitOf_baseRound {half rk : Bytes} (hrk : rk.length = 6) {i : Nat} (hi : i < 32) :
    bitOf .msbFirst (baseRound half rk) i
      = (groupValue half rk ((tables.p.getD i 0 - 1) / 4)).testBit (3 - (tables.p.getD i 0 - 1) % 4) := by
  have hP := p_place_lt i hi
  have hlen : ∀ x, ((List.range 8).flatMap (sboxBits x)).length = 32 := fun x => rfl
  rw [baseRound, bitOf_permuteFixed _ _ (by simp only [length_tables]; omega),
    bitOf_bytesOfBits _ _ _ (by rw [hlen]; omega), getD_flatMap_range _ _ (m := 4) (fun _ => rfl) 8 (by omega),
    getD_sboxBits hrk (by omega) (by omega)]

/-! ### Numbers and their bits -/

/-- The bits of `BE(v, n)` are the bits of `v`, most significant first (`00_scope.md` R13). -/
theorem bitOf_beBytes (v : Nat) {n k : Nat} (hk : k < 8 * n) :
    bitOf .msbFirst (beBytes v n) k = v.testBit (8 * n - 1 - k) := by
  have byte : (beBytes v n).getD (k / 8) 0 = BitVec.ofNat 8 (v / 2 ^ (8 * (n - 1 - k / 8))) := by
    rw [List.getD_eq_getElem _ _ (by rw [length_beBytes]; omega), Nat.pow_mul]
    simp only [beBytes, List.getElem_map, List.getElem_range]
  rw [bitOf, byte, bitPlace, BitVec.getLsbD_ofNat, decide_eq_true (by omega), Bool.true_and, Nat.testBit_div_two_pow]
  congr 1
  omega

theorem intOf_append_singleton (s : Bytes) (b : Byte) : intOf (s ++ [b]) = 2 ^ 8 * intOf s + b.toNat := by
  rw [intOf, List.foldl_append, List.foldl_cons, List.foldl_nil, Nat.mul_comm]
  rfl

theorem intOf_lt (s : Bytes) : intOf s < 2 ^ (8 * s.length) := by
  induction s using List.reverseRecOn with
  | nil => decide
  | append_singleton s b ih =>
    rw [intOf_append_singleton, List.length_append, List.length_singleton, Nat.mul_add, Nat.pow_add]
    have := b.isLt
    omega

theorem bitOf_append_left (order : BitOrder) (s u : Bytes) {k : Nat} (hk : k < 8 * s.length) :
    bitOf order (s ++ u) k = bitOf order s k := by
  rw [bitOf, bitOf, List.getD_append _ _ _ _ (by omega)]

/-- The bits of `Int(s)` are the bits of `s`, most significant first (`00_scope.md` R13). -/
theorem testBit_intOf (s : Bytes) {k : Nat} (hk : k < 8 * s.length) :
    (intOf s).testBit (8 * s.length - 1 - k) = bitOf .msbFirst s k := by
  induction s using List.reverseRecOn with
  | nil => simp at hk
  | append_singleton s b ih =>
    rw [List.length_append, List.length_singleton] at hk ⊢
    rw [intOf_append_singleton, Nat.testBit_two_pow_mul_add _ b.isLt]
    by_cases h : k < 8 * s.length
    · rw [if_neg (by omega), bitOf_append_left _ _ _ h, ← ih h]
      congr 1
      omega
    · rw [if_pos (by omega), bitOf, List.getD_append_right _ _ _ _ (by omega), show k / 8 - s.length = 0 by omega]
      rw [List.getD_cons_zero, bitPlace, BitVec.getLsbD]
      congr 1
      omega

/-! ### The key schedule -/

/-- A rotation moves the low `28 - n` bits up by `n` and the high `n` bits to the bottom. -/
theorem rotL28_eq (v : Nat) {n : Nat} (hn : n ≤ 28) :
    rotL28 v n = 2 ^ n * (v % 2 ^ (28 - n)) + v / 2 ^ (28 - n) := by
  have cut : 2 ^ 28 = 2 ^ (28 - n) * 2 ^ n := by rw [← Nat.pow_add, Nat.sub_add_cancel hn]
  rw [rotL28, cut, Nat.mul_mod_mul_right, Nat.mul_comm]

section
variable {v n : Nat} (hv : v < 2 ^ 28) (hn : n ≤ 28)
include hv hn

theorem highBits_lt : v / 2 ^ (28 - n) < 2 ^ n := by
  rwa [Nat.div_lt_iff_lt_mul (Nat.two_pow_pos _), ← Nat.pow_add, Nat.add_sub_cancel' hn]

theorem rotL28_lt : rotL28 v n < 2 ^ 28 := by
  have low := highBits_lt hv hn
  have high : v % 2 ^ (28 - n) + 1 ≤ 2 ^ (28 - n) := Nat.mod_lt _ (Nat.two_pow_pos _)
  calc rotL28 v n = 2 ^ n * (v % 2 ^ (28 - n)) + v / 2 ^ (28 - n) := rotL28_eq v hn
    _ < 2 ^ n * (v % 2 ^ (28 - n) + 1) := by rw [Nat.mul_succ]; omega
    _ ≤ 2 ^ n * 2 ^ (28 - n) := Nat.mul_le_mul_left _ high
    _ = 2 ^ 28 := by rw [← Nat.pow_add, Nat.add_sub_cancel' hn]

/-- Bit `t` of a half that was rotated left by `n`, counted from the most significant one, is bit `t + n` of the half,
around the end (R154). -/
theorem testBit_rotL28 {t : Nat} (ht : t < 28) : (rotL28 v n).testBit (27 - t) = v.testBit (27 - (t + n) % 28) := by
  rw [rotL28_eq v hn, Nat.testBit_two_pow_mul_add _ (highBits_lt hv hn)]
  by_cases h : 27 - t < n
  · rw [if_pos h, Nat.testBit_div_two_pow]
    congr 1
    omega
  · rw [if_neg h, Nat.testBit_mod_two_pow, decide_eq_true (by omega), Bool.true_and]
    congr 1
    omega

end

/-- Bit `t` of the 56 bits `C` followed by `D`, counted from the most significant one. -/
def bitOfHalves (C D t : Nat) : Bool := (C * 2 ^ 28 + D).testBit (55 - t)

theorem bitOfHalves_eq {C D : Nat} (hD : D < 2 ^ 28) {t : Nat} (ht : t < 56) :
    bitOfHalves C D t = if t < 28 then C.testBit (27 - t) else D.testBit (27 - (t - 28)) := by
  rw [bitOfHalves, Nat.mul_comm, Nat.testBit_two_pow_mul_add _ hD]
  by_cases h : t < 28
  · rw [if_neg (by omega), if_pos h]
    congr 1
    omega
  · rw [if_pos (by omega), if_neg h]
    congr 1
    omega

theorem rotatedFrom_lt (r t : Nat) : rotatedFrom r t < 56 := by
  rw [rotatedFrom]
  split <;> omega

/-- Rotations accumulate (R154). -/
theorem rotatedFrom_rotatedFrom (n r t : Nat) : rotatedFrom n (rotatedFrom r t) = rotatedFrom (n + r) t := by
  by_cases h : t < 28
  · simp only [rotatedFrom, if_pos h, if_pos (Nat.mod_lt _ (by decide : 28 > 0))]
    omega
  · simp only [rotatedFrom, if_neg h, if_neg (Nat.not_lt.2 (Nat.le_add_right 28 _))]
    omega

/-- Rotating both halves by `n` brings bit `rotatedFrom n t` to place `t` (R154). -/
theorem bitOfHalves_rotL28 {C D n t : Nat} (hC : C < 2 ^ 28) (hD : D < 2 ^ 28) (hn : n ≤ 28) (ht : t < 56) :
    bitOfHalves (rotL28 C n) (rotL28 D n) t = bitOfHalves C D (rotatedFrom n t) := by
  rw [bitOfHalves_eq (rotL28_lt hD hn) ht, bitOfHalves_eq hD (rotatedFrom_lt n t)]
  by_cases h : t < 28
  · have place : rotatedFrom n t = (t + n) % 28 := if_pos h
    rw [if_pos h, place, if_pos (Nat.mod_lt _ (by decide)), testBit_rotL28 hC hn h]
  · have place : rotatedFrom n t = 28 + (t - 28 + n) % 28 := if_neg h
    rw [if_neg h, place, if_neg (by omega), Nat.add_sub_cancel_left, testBit_rotL28 hD hn (by omega)]

/-- The place that `PC2[j]` names is one of the 56 (R146). -/
theorem pc2_place_lt : ∀ j < 48, tables.pc2.getD j 0 - 1 < 56 := by decide

/-- Bit `j` of one round key: the bit of the halves at the place that `PC2[j]` names (R154). -/
theorem bitOf_roundKey (C D : Nat) {j : Nat} (hj : j < 48) :
    bitOf .msbFirst (permuteFixed (beBytes (C * 2 ^ 28 + D) 7) tables.pc2) j
      = bitOfHalves C D (tables.pc2.getD j 0 - 1) := by
  rw [bitOf_permuteFixed _ _ (by simp only [length_tables]; omega), bitOf_beBytes _ (pc2_place_lt j hj)]
  rfl

/-- Bit `j` of round key `i`: the bit of the first halves that the first `i + 1` rotations bring to place `PC2[j]`
(R154). -/
theorem bitOf_baseSchedule {rot : List Nat} (hrot : ∀ n ∈ rot, n ≤ 28) {C D i j : Nat} (hC : C < 2 ^ 28)
    (hD : D < 2 ^ 28) (hi : i < rot.length) (hj : j < 48) :
    bitOf .msbFirst ((baseSchedule rot C D).getD i []) j
      = bitOfHalves C D (rotatedFrom (rot.take (i + 1)).sum (tables.pc2.getD j 0 - 1)) := by
  induction rot generalizing C D i with
  | nil => simp at hi
  | cons n rest ih =>
    obtain ⟨hn, hrest⟩ := List.forall_mem_cons.1 hrot
    rw [baseSchedule, List.take_succ_cons, List.sum_cons]
    cases i with
    | zero =>
      rw [List.getD_cons_zero, bitOf_roundKey _ _ hj, bitOfHalves_rotL28 hC hD hn (pc2_place_lt j hj)]
      rfl
    | succ i =>
      rw [List.getD_cons_succ, ih hrest (rotL28_lt hC hn) (rotL28_lt hD hn) (Nat.lt_of_succ_lt_succ hi),
        bitOfHalves_rotL28 hC hD hn (rotatedFrom_lt _ _), rotatedFrom_rotatedFrom]

theorem length_pc1Selection (key : Bytes) : (permuteFixed key tables.pc1).length = 7 := by
  simp only [length_permuteFixed, length_tables]

theorem halfC_lt (key : Bytes) : halfC key < 2 ^ 28 := by
  have bound := intOf_lt (permuteFixed key tables.pc1)
  rw [length_pc1Selection] at bound
  exact Nat.div_lt_of_lt_mul bound

theorem halfD_lt (key : Bytes) : halfD key < 2 ^ 28 := Nat.mod_lt _ (by decide)

/-- Bit `t` of the key's two halves is the key bit that `PC1` selects at place `t` (R154). -/
theorem bitOfHalves_key (key : Bytes) {t : Nat} (ht : t < 56) :
    bitOfHalves (halfC key) (halfD key) t = bitOf .msbFirst key (tables.pc1.getD t 0 - 1) := by
  have hsel := testBit_intOf (permuteFixed key tables.pc1) (k := t) (by rw [length_pc1Selection]; exact ht)
  rw [length_pc1Selection] at hsel
  rw [bitOfHalves, halfC, halfD, Nat.div_add_mod', hsel,
    bitOf_permuteFixed _ _ (by simp only [length_tables]; omega)]

/-- Bit `j` of round key `i` is the key bit that `PC1` selects at the place that has come to `PC2[j]` (R154). -/
theorem bitOf_baseRoundKeys (key : Bytes) {i j : Nat} (hi : i < 16) (hj : j < 48) :
    bitOf .msbFirst ((baseRoundKeys key).getD i []) j
      = bitOf .msbFirst key
          (tables.pc1.getD (rotatedFrom (tables.rot.take (i + 1)).sum (tables.pc2.getD j 0 - 1)) 0 - 1) := by
  have small : ∀ n ∈ tables.rot, n ≤ 28 := by decide
  rw [baseRoundKeys, bitOf_baseSchedule small (halfC_lt key) (halfD_lt key) hi hj,
    bitOfHalves_key key (rotatedFrom_lt _ _)]

theorem length_getD_baseRoundKeys (key : Bytes) {i : Nat} (hi : i < 16) :
    ((baseRoundKeys key).getD i []).length = 6 := by
  have hi' : i < (baseRoundKeys key).length := by rwa [length_baseRoundKeys]
  rw [List.getD_eq_getElem _ _ hi']
  exact length_of_mem_baseRoundKeys (List.getElem_mem hi')

/-! ### Parity bits -/

/-- Adjusting a key keeps every bit that is not the last of its byte. -/
theorem bitOf_adjustParity (key : Bytes) {k : Nat} (hk : k < 8 * key.length) (hlow : k % 8 ≠ 7) :
    bitOf .msbFirst (adjustParity key) k = bitOf .msbFirst key k := by
  have hk' : k / 8 < key.length := by omega
  have byte : (adjustParity key).getD (k / 8) 0 = adjustParityByte (key.getD (k / 8) 0) := by
    rw [List.getD_eq_getElem _ _ hk', List.getD_eq_getElem _ _ (by rwa [length_adjustParity])]
    exact List.getElem_map _
  rw [bitOf, byte, bitOf]
  exact getLsbD_adjustParityByte _ (by rw [bitPlace]; omega) (bitPlace_lt _ _)

/-- `PC1` selects bits of the 64 only, and no parity bit among them (R145). -/
theorem pc1_place : ∀ t < 56, tables.pc1.getD t 0 - 1 < 64 ∧ (tables.pc1.getD t 0 - 1) % 8 ≠ 7 := by decide

theorem pc1Selection_adjustParity {key : Bytes} (hl : key.length = 8) :
    permuteFixed (adjustParity key) tables.pc1 = permuteFixed key tables.pc1 := by
  refine bytes_ext .msbFirst _ _ (by rw [length_pc1Selection, length_pc1Selection]) fun t ht => ?_
  rw [length_pc1Selection] at ht
  have hT : t < 8 * (tables.pc1.length / 8) := by simp only [length_tables]; omega
  obtain ⟨place, notParity⟩ := pc1_place t ht
  rw [bitOf_permuteFixed _ _ hT, bitOf_permuteFixed _ _ hT, bitOf_adjustParity key (by omega) notParity]

/-- The round keys do not depend on the parity bits (R155). -/
theorem baseRoundKeys_adjustParity {key : Bytes} (hl : key.length = 8) :
    baseRoundKeys (adjustParity key) = baseRoundKeys key := by
  rw [baseRoundKeys, halfC, halfD, pc1Selection_adjustParity hl, baseRoundKeys, halfC, halfD]

/-- Settles O38: the round from the S-boxes, the round keys from `PC1`, `PC2` and the rotations, and the parity bits. -/
theorem baseRoundAndScheduleFollowTheTables : Obligations.BaseRoundAndScheduleFollowTheTables := by
  refine ⟨fun half rk => ⟨fun h => if_pos h, ?round⟩,
    fun key => ⟨fun h => if_pos h, ?parity, baseExpand_ok, ?roundKeys⟩, ?parityBits⟩
  case round =>
    exact fun hhalf hrk => ⟨if_neg (by omega), length_baseRound half rk, fun i hi => bitOf_baseRound hrk hi⟩
  case parity =>
    exact fun i hl hi before here => baseExpand_parity hl (firstBadParity_eq_some (by omega) before here)
  case roundKeys =>
    exact fun _ => ⟨length_baseRoundKeys key, fun i hi =>
      ⟨length_getD_baseRoundKeys key hi, fun j hj => bitOf_baseRoundKeys key hi hj⟩⟩
  case parityBits =>
    intro k k' hk hk' h
    rw [← baseRoundKeys_adjustParity hk, h, baseRoundKeys_adjustParity hk']

end Sys2Proof.Machine
end

section
/-! The key schedule of the composite cipher (`42_composite_schedule_and_adapter.md` R171 to R173): a round key of
`CompExpand` by its index. -/

namespace Sys2Proof.Machine

/-- `BaseExpand(SCHED_KEY)` cannot fail (R171). -/
theorem baseExpand_schedKey (c : Byte) : baseExpand (schedKey c) = .ok (schedRk c) :=
  baseExpand_adjustParity (length_rep c 8)

/-- `SchedEnc` is `E` of the base cipher under `SCHED_RK` (R171). -/
theorem schedEnc_eq_encBlock (c : Byte) (x : Bytes) : schedEnc c x = encBlock .base (schedRk c) x := rfl

/-- `BE(2^j, 8)` is `2^j` in its last byte as long as it fits there (R173). -/
theorem roundConst_eq : ∀ j < 8, roundConst j = [0, 0, 0, 0, 0, 0, 0, BitVec.ofNat 8 (2 ^ j)] := by decide

/-! ### What is encrypted for a round key -/

theorem compInput_zero (key : Bytes) (S : Nat) (prev : Bytes) : compInput key S 0 prev = slice key 0 8 := rfl

theorem compInput_part {key : Bytes} {S i : Nat} {prev : Bytes} (h0 : 0 < i) (hS : i < S) :
    compInput key S i prev = xorBytes (slice key (8 * i) (8 * i + 8)) prev := by
  rw [compInput, if_neg (Nat.ne_of_gt h0), if_pos hS, keyPart]

theorem compInput_const {key : Bytes} {S i : Nat} {prev : Bytes} (h0 : 0 < i) (hS : S ≤ i) (h8 : i - S < 8) :
    compInput key S i prev = xorBytes (xorBytes (slice key (8 * (i % S)) (8 * (i % S) + 8)) prev)
      [0, 0, 0, 0, 0, 0, 0, BitVec.ofNat 8 (2 ^ (i - S))] := by
  rw [compInput, if_neg (Nat.ne_of_gt h0), if_neg (Nat.not_lt.2 hS), keyPart, roundConst_eq _ h8]

/-! ### A round key by its index -/

/-- Key `k` of a run of the schedule, counted from the key before its first: `prev` for `k = 0`. -/
theorem getD_compSchedule (c : Byte) (key : Bytes) (S : Nat) {n k : Nat} (i : Nat) (prev : Bytes) (hk : k < n) :
    (compSchedule c key S n i prev).getD k []
      = schedEnc c (compInput key S (i + k) ((prev :: compSchedule c key S n i prev).getD k [])) := by
  induction n generalizing i k prev with
  | zero => exact absurd hk (Nat.not_lt_zero k)
  | succ n ih =>
    cases k with
    | zero => rfl
    | succ k =>
      rw [compSchedule, List.getD_cons_succ, List.getD_cons_succ, ih (i + 1) _ (Nat.lt_of_succ_lt_succ hk),
        Nat.add_right_comm, Nat.add_assoc]

theorem getD_compRoundKeys_zero (c : Byte) (key : Bytes) (S : Nat) {R : Nat} (hR : 0 < R) :
    (compRoundKeys c key S R).getD 0 [] = schedEnc c (slice key 0 8) := by
  rw [compRoundKeys, getD_compSchedule c key S 0 [] hR, compInput_zero]

theorem getD_compRoundKeys_pos (c : Byte) (key : Bytes) (S : Nat) {R i : Nat} (h0 : 0 < i) (hR : i < R) :
    (compRoundKeys c key S R).getD i []
      = schedEnc c (compInput key S i ((compRoundKeys c key S R).getD (i - 1) [])) := by
  obtain ⟨k, rfl⟩ := Nat.exists_eq_add_of_lt h0
  rw [compRoundKeys, getD_compSchedule c key S 0 [] hR, List.getD_cons_succ, Nat.zero_add, Nat.add_sub_cancel]

/-- Settles O40: the length check, then the round keys by their index, in the three ranges of R172. -/
theorem compositeScheduleRecurrence : Obligations.CompositeScheduleRecurrence := by
  intro c key S R hSR
  refine ⟨fun hl => if_pos hl, fun hl => ⟨schedRk c, compRoundKeys c key S R, baseExpand_schedKey c,
    if_neg (not_not.2 hl), rfl, length_compSchedule .., ?zero, ?parts, ?constants⟩⟩
  case zero => rw [getD_compRoundKeys_zero c key S (by omega), schedEnc_eq_encBlock]
  case parts =>
    intro i h0 hS
    rw [getD_compRoundKeys_pos c key S h0 (by omega), compInput_part h0 hS, schedEnc_eq_encBlock]
  case constants =>
    intro i hS hR
    have h0 : 0 < i := by omega
    have h8 : i - S < 8 := by omega
    rw [getD_compRoundKeys_pos c key S h0 hR, compInput_const h0 hS h8, schedEnc_eq_encBlock]

end Sys2Proof.Machine
end

section
/-! The Feistel engine (`43_feistel_engine.md` R191): one equation per outcome of the engine, and one round more as a step
of the recurrence. -/

namespace Sys2Proof.Machine

/-! ### The halves of a block -/

theorem slice_zero_eq_take (s : Bytes) (n : Nat) : slice s 0 n = s.take n := rfl

theorem slice_length_eq_drop (s : Bytes) (n : Nat) : slice s n s.length = s.drop n :=
  List.take_of_length_le (List.length_drop ..).le

/-! ### The failures, in order -/

theorem feistelChecked_none (b : Bytes) (N BS : Nat) (F : Bytes → Bytes → Except CoreError Bytes) :
    feistelChecked b none N BS F = .error .stateNokey := rfl

theorem feistelChecked_of_few_keys {rks : List Bytes} {N : Nat} (b : Bytes) (BS : Nat)
    (F : Bytes → Bytes → Except CoreError Bytes) (hk : rks.length < N) :
    feistelChecked b (some rks) N BS F = .error (.stateRkcount rks.length) := if_pos hk

theorem feistelChecked_of_wrong_size {b : Bytes} {rks : List Bytes} {N BS : Nat}
    (F : Bytes → Bytes → Except CoreError Bytes) (hk : N ≤ rks.length) (hb : b.length ≠ BS) :
    feistelChecked b (some rks) N BS F = .error (.sizeBlock (BitVec.ofNat 32 b.length)) :=
  (if_neg (Nat.not_lt.2 hk)).trans (if_pos hb)

/-! ### The rounds -/

/-- With a round function that always answers, the rounds always answer. -/
theorem feistelRoundsChecked_ok (F : Bytes → Bytes → Bytes) (rks : List Bytes) (L R : Bytes) :
    feistelRoundsChecked (fun r k => .ok (F r k)) rks L R = .ok (feistelRounds F rks L R) := by
  induction rks generalizing L R with
  | nil => rfl
  | cons rk rks ih => exact ih R _

/-- With enough round keys, a block of the right length and a round function that always answers, the engine has no
failure left. -/
theorem feistelChecked_ok {b : Bytes} {rks : List Bytes} {N BS : Nat} (F : Bytes → Bytes → Bytes)
    (hk : N ≤ rks.length) (hb : b.length = BS) :
    feistelChecked b (some rks) N BS (fun r k => .ok (F r k)) = .ok (feistel b rks N BS F) := by
  rw [feistelChecked, if_neg (Nat.not_lt.2 hk), if_neg (not_not.2 hb), feistelRoundsChecked_ok]
  rfl

/-- The halves `(L_i, R_i)` of the block before round `i`. -/
def feistelHalves (F : Bytes → Bytes → Bytes) (rks : List Bytes) (b : Bytes) (i : Nat) : Bytes × Bytes :=
  feistelRounds F (rks.take i) (b.take (b.length / 2)) (b.drop (b.length / 2))

theorem feistelHalves_zero (F : Bytes → Bytes → Bytes) (rks : List Bytes) (b : Bytes) :
    feistelHalves F rks b 0 = (b.take (b.length / 2), b.drop (b.length / 2)) := rfl

/-- Round `i` works on the halves before it, with round key `i`. -/
theorem feistelHalves_succ (F : Bytes → Bytes → Bytes) {rks : List Bytes} (b : Bytes) {i : Nat} (hi : i < rks.length) :
    feistelHalves F rks b (i + 1)
      = ((feistelHalves F rks b i).2,
         xorBytes (F (feistelHalves F rks b i).2 (rks.getD i [])) (feistelHalves F rks b i).1) := by
  rw [feistelHalves, List.take_succ_eq_append_getElem hi, feistelRounds_append_singleton, List.getD_eq_getElem _ _ hi,
    feistelHalves]

theorem feistel_eq_halves (F : Bytes → Bytes → Bytes) (rks : List Bytes) (N : Nat) (b : Bytes) :
    feistel b rks N b.length F = (feistelHalves F rks b N).2 ++ (feistelHalves F rks b N).1 := by
  rw [feistel, slice_zero_eq_take, slice_length_eq_drop, feistelHalves]

/-- Settles O44: the three failures by their equations, and `feistelHalves` as the halves of the recurrence. -/
theorem feistelFollowsItsRecurrence : Obligations.FeistelFollowsItsRecurrence := by
  intro F rks N BS b
  refine ⟨feistelChecked_none .., feistelChecked_of_few_keys b BS _, feistelChecked_of_wrong_size _, ?rounds⟩
  case rounds =>
    rintro hk rfl
    refine ⟨fun i => (feistelHalves F rks b i).1, fun i => (feistelHalves F rks b i).2, ?left, ?right, ?step, ?result⟩
    case left => exact congrArg Prod.fst (feistelHalves_zero F rks b)
    case right => exact congrArg Prod.snd (feistelHalves_zero F rks b)
    case step =>
      intro i hi
      have round := feistelHalves_succ F b (hi.trans_le hk)
      exact ⟨congrArg Prod.fst round, congrArg Prod.snd round⟩
    case result => exact (feistelChecked_ok F hk rfl).trans (congrArg _ (feistel_eq_halves F rks N b))

end Sys2Proof.Machine
end

section
/-! The checked engine inside the ciphers (`43_feistel_engine.md` R190 to R192, `44_block_ciphers.md` R203, R204): on
operands of the lengths the round functions ask for, no check of the engine fails. -/

namespace Sys2Proof.Machine

/-! ### The engine with a round function that checks lengths -/

section
variable {F : Bytes → Bytes → Bytes} {G : Bytes → Bytes → Except CoreError Bytes} {h l : Nat}
  (keeps : ∀ r k, r.length = h → (F r k).length = h)
  (answers : ∀ r k, r.length = h → k.length = l → G r k = .ok (F r k))
include keeps answers

/-- A round function that answers on operands of its lengths and keeps the half-block's length answers in every round. -/
theorem feistelRoundsChecked_of_lengths {rks : List Bytes} (hk : ∀ k ∈ rks, k.length = l) {L R : Bytes}
    (hL : L.length = h) (hR : R.length = h) : feistelRoundsChecked G rks L R = .ok (feistelRounds F rks L R) := by
  induction rks generalizing L R with
  | nil => rfl
  | cons rk rks ih =>
    obtain ⟨hrk, hrks⟩ := List.forall_mem_cons.1 hk
    have next : (xorBytes (F R rk) L).length = h := by rw [length_xorBytes, keeps R rk hR, hL, Nat.min_self]
    simp only [feistelRoundsChecked, feistelRounds, answers R rk hR hrk]
    exact ih hrks hR next

/-- With enough round keys and a block of two half-blocks, the checked engine is the engine. -/
theorem feistelChecked_of_lengths {rks : List Bytes} {N : Nat} {b : Bytes} (hk : ∀ k ∈ rks, k.length = l)
    (hN : N ≤ rks.length) (hb : b.length = 2 * h) :
    feistelChecked b (some rks) N (2 * h) G = .ok (feistel b rks N (2 * h) F) := by
  rw [feistelChecked, if_neg (Nat.not_lt.2 hN), if_neg (not_not.2 hb),
    feistelRoundsChecked_of_lengths keeps answers (fun k hmem => hk k (List.mem_of_mem_take hmem))
      (by rw [length_slice]; omega) (by rw [length_slice]; omega)]
  rfl

end

/-! ### The two round functions -/

theorem baseRoundChecked_ok {half rk : Bytes} (hhalf : half.length = 4) (hrk : rk.length = 6) :
    baseRoundChecked half rk = .ok (baseRound half rk) := if_neg (by omega)

theorem compRoundChecked_ok {half rk : Bytes} (hhalf : half.length = 8) (hrk : rk.length = 8) :
    compRoundChecked half rk = .ok (compRound half rk) := if_neg (by omega)

/-! ### The engine of each cipher -/

/-- The base cipher's engine answers, with the round keys in either order, and its answer under `FP` is the block
function. -/
theorem baseEngine_ok {rks : List Bytes} (hN : rks.length = 16) (hk : ∀ k ∈ rks, k.length = 6) (b : Bytes) :
    ∃ x, feistelChecked (permuteFixed b tables.ip) (some rks) 16 8 baseRoundChecked = .ok x
      ∧ baseBlock rks b = permuteFixed x tables.fp :=
  ⟨_, feistelChecked_of_lengths (h := 4) (fun r k _ => length_baseRound r k) (fun _ _ => baseRoundChecked_ok) hk hN.ge
    (length_permuteFixed b tables.ip), rfl⟩

/-- The composite cipher's engine answers with the block function. -/
theorem compositeEngine_ok {rks : List Bytes} {N : Nat} {b : Bytes} (hN : rks.length = N) (hk : ∀ k ∈ rks, k.length = 8)
    (hb : b.length = 16) : feistelChecked b (some rks) N 16 compRoundChecked = .ok (compEnc rks N b) :=
  feistelChecked_of_lengths (h := 8) (fun r k _ => length_compRound r k) (fun _ _ => compRoundChecked_ok) hk hN.ge hb

theorem encBlock_composite {v : Variant} (hv : v ≠ .base) (rks : List Bytes) (b : Bytes) :
    encBlock v rks b = compEnc rks (roundCount v) b := by
  cases v with
  | base => exact absurd rfl hv
  | comp2 => rfl
  | comp3 => rfl
  | comp4 => rfl

/-- `D` of a composite variant is the same engine on the reversed round keys. -/
theorem decBlock_composite {v : Variant} (hv : v ≠ .base) (rks : List Bytes) (b : Bytes) :
    decBlock v rks b = compEnc rks.reverse (roundCount v) b := by
  cases v with
  | base => exact absurd rfl hv
  | comp2 => rfl
  | comp3 => rfl
  | comp4 => rfl

/-- Settles O47: `D` is the engine on the reversed round keys, which have the same number and lengths. -/
theorem eAndDAreTheCheckedEngine : Obligations.EAndDAreTheCheckedEngine := by
  have reversed {l : Nat} {rks : List Bytes} (hk : ∀ k ∈ rks, k.length = l) : ∀ k ∈ rks.reverse, k.length = l :=
    fun k hmem => hk k (List.mem_reverse.1 hmem)
  refine ⟨⟨rfl, rfl, ?base⟩, ?composite, fun half rk => ⟨fun h => if_pos h, ?adapter⟩⟩
  case base =>
    intro rks b hN hk _
    obtain ⟨x, hx, enc⟩ := baseEngine_ok hN hk b
    obtain ⟨y, hy, dec⟩ := baseEngine_ok (rks.length_reverse.trans hN) (reversed hk) b
    exact ⟨x, y, hx, hy, enc, dec⟩
  case composite =>
    intro v N hv
    have shape : v ≠ .base ∧ blockSize v = 16 ∧ roundCount v = N := by
      rcases hv with ⟨rfl, rfl⟩ | ⟨rfl, rfl⟩ | ⟨rfl, rfl⟩ <;> decide
    obtain ⟨hne, hbs, rfl⟩ := shape
    refine ⟨hbs, rfl, fun rks b hN hk hb => ?_⟩
    rw [encBlock_composite hne, decBlock_composite hne]
    exact ⟨compositeEngine_ok hN hk hb, compositeEngine_ok (rks.length_reverse.trans hN) (reversed hk) hb⟩
  case adapter =>
    exact fun hhalf hrk => ⟨_, baseExpand_adjustParity hrk, compRoundChecked_ok hhalf hrk⟩

end Sys2Proof.Machine
end

section
/-! What a command reads (`93_implementation_defined.md` U13): the answer of each data command as a function of the state,
tied to `exec`, and the operands that answer depends on. -/

namespace Sys2Proof.Machine

open Sys2Proof.Safety

/-! ### Operands from equal fields and bytes -/

section
variable {s s' : State}

theorem ctrlKeyadj_congr (h : keyadjField s' = keyadjField s) : s'.ctrlKeyadj = s.ctrlKeyadj :=
  Bool.eq_iff_iff.2 (by rw [ctrlKeyadj_iff, ctrlKeyadj_iff, h])

theorem ctrlModeCode_congr (h : modeField s' = modeField s) : s'.ctrlModeCode = s.ctrlModeCode :=
  BitVec.eq_of_toNat_eq (by rw [ctrlModeCode_toNat, ctrlModeCode_toNat, h])

theorem ctrlPad_congr (h : padField s' = padField s) : s'.ctrlPad = s.ctrlPad :=
  (ctrlPad_iff s' _).2 (h.trans ((ctrlPad_iff s _).1 rfl))

theorem ctrlPorder_congr (h : porderField s' = porderField s) : s'.ctrlPorder = s.ctrlPorder :=
  (ctrlPorder_iff s' _).2 (h.trans ((ctrlPorder_iff s _).1 rfl))

theorem draw_congr (h : s'.drawIndex = s.drawIndex) : s'.draw = s.draw := by
  funext j
  rw [State.draw, State.draw, h]

theorem din_congr (h : SameInput s s') (hd : s.dlen.toNat ≤ 4096) : s'.din s.dlen.toNat = s.din s.dlen.toNat :=
  List.map_congr_left fun k hk => h.din hd k (List.mem_range.1 hk)

theorem tbl_congr {m : Nat} (h : ∀ k, k < 4 * m → s'.byteAt (tblBase + k) = s.byteAt (tblBase + k)) :
    s'.tbl m = s.tbl m := by
  refine List.map_congr_left fun j hj => ?_
  have hj := List.mem_range.1 hj
  simp only [State.tblEntry, State.wordAt, Nat.add_assoc]
  rw [h (4 * j) (by omega), h (4 * j + 1) (by omega), h (4 * j + 2) (by omega), h (4 * j + 3) (by omega)]

theorem installed_congr (h : KeepsKeyStore s s') : s'.installed = s.installed := by
  simp only [State.installed, h.keySet, h.kcipher, h.rkEnc]

end

/-! ### What a mode reads of `IV` and `DELTA`, and padding of the draws -/

theorem runBlocks_encStep_ecb (E : Bytes → Bytes) (bs : Nat) (iv del : Bytes) (i : Nat) (F : Bytes) (xs : List Bytes) :
    runBlocks (encStep E bs .ecb iv del) i F xs = xs.map E := by
  induction xs generalizing i with
  | nil => rfl
  | cons X xs ih => exact congrArg _ (ih (i + 1))

theorem runBlocks_decStep_ecb (E D : Bytes → Bytes) (bs : Nat) (iv del : Bytes) (i : Nat) (F : Bytes)
    (xs : List Bytes) : runBlocks (decStep E D bs .ecb iv del) i F xs = xs.map D := by
  induction xs generalizing i with
  | nil => rfl
  | cons X xs ih => exact congrArg _ (ih (i + 1))

/-- Only `RANDOM_DELTA` reads `DELTA`. -/
theorem encStep_congr_delta (E : Bytes → Bytes) (bs : Nat) {m : Mode} (iv : Bytes) {del del' : Bytes}
    (hdel : m = .randomDelta → del' = del) : encStep E bs m iv del' = encStep E bs m iv del := by
  cases m with
  | randomDelta => rw [hdel rfl]
  | _ => rfl

theorem decStep_congr_delta (E D : Bytes → Bytes) (bs : Nat) {m : Mode} (iv : Bytes) {del del' : Bytes}
    (hdel : m = .randomDelta → del' = del) : decStep E D bs m iv del' = decStep E D bs m iv del := by
  cases m with
  | randomDelta => rw [hdel rfl]
  | _ => rfl

section
variable {m : Mode} {iv iv' del del' : Bytes} (hiv : m ≠ .ecb → iv' = iv) (hdel : m = .randomDelta → del' = del)
include hiv hdel

/-- `ECB` does not read the feedback, so not `IV`; only `RANDOM_DELTA` reads `DELTA`. -/
theorem modeEnc_congr (E : Bytes → Bytes) (bs : Nat) (x : Bytes) : modeEnc E bs m iv' del' x = modeEnc E bs m iv del x := by
  by_cases hm : m = .ecb
  · subst hm
    simp only [modeEnc, runBlocks_encStep_ecb]
  · rw [modeEnc, hiv hm, encStep_congr_delta E bs iv hdel, modeEnc]

theorem modeDec_congr (E D : Bytes → Bytes) (bs : Nat) (x : Bytes) :
    modeDec E D bs m iv' del' x = modeDec E D bs m iv del x := by
  by_cases hm : m = .ecb
  · subst hm
    simp only [modeDec, runBlocks_decStep_ecb]
  · rw [modeDec, hiv hm, decStep_congr_delta E D bs iv hdel, modeDec]

end

/-- Only `ISO_10126` makes requests of the random source. -/
theorem pad_congr_draw {draw draw' : Nat → Byte} {pd : Padding} (h : pd = .iso10126 → draw' = draw) (bs : Nat)
    (d : Bytes) : pad draw' bs pd d = pad draw bs pd d := by
  cases pd with
  | iso10126 => rw [h rfl]
  | _ => rfl

/-! ### The answers of the data commands -/

/-- The answer of a block command: an error or the output. -/
def blockAnswer (op : Variant → List Bytes → Bytes → Bytes) (s : State) : Except CoreError Bytes :=
  s.installed.bind fun key =>
    if s.dlen.toNat ≠ blockSize key.1 then .error (.sizeBlock s.dlen) else .ok (op key.1 key.2 (s.din (blockSize key.1)))

/-- The answer of an encrypting mode command. -/
def encryptAnswer (s : State) : Except CoreError Bytes :=
  (modeChecks Config.params s).map fun c => s.modeEnc c (s.paddedInput c)

/-- The answer of a decrypting mode command. -/
def decryptAnswer (s : State) : Except CoreError Bytes :=
  (modeChecks Config.params s).bind fun c =>
    if s.dlen.toNat % c.bs ≠ 0 then .error (.sizeBuf s.dlen)
    else unpad c.bs c.padding (s.modeDec c (s.din s.dlen.toNat))

/-- The answer of `PERMUTE m`. -/
def permuteAnswer (m : Nat) (s : State) : Except CoreError Bytes :=
  match permuteChecks Config.params m s with
  | some e => .error e
  | none => .ok (permute (s.din s.dlen.toNat) (s.tbl m) s.ctrlPorder s.ctrlPbase)

/-- Command `i` ends from `s` with this answer: the error raised, or the output written. -/
def EndsWithAnswer (i : Instr) (s : State) : Except CoreError Bytes → Prop
  | .error e => ∃ u : State, exec i s = .next (u.raise true e)
  | .ok out => ∃ u : State, exec i s = .next (u.putOutput out).complete

theorem endsWith_blockAnswer {i : Instr} {s : State} {op : Variant → List Bytes → Bytes → Bytes}
    {order : List Bytes → List Bytes} (h : exec i s = .next (blockCommand Config.params op order s)) :
    EndsWithAnswer i s (blockAnswer op s) := by
  rw [blockAnswer]
  rcases blockCommand_cases Config.params op order s with ⟨e, he, ht⟩ | ⟨v, rks, hk, hd, ht⟩ | ⟨v, rks, hk, hd, ht⟩
  · rw [he]
    exact ⟨s, h.trans (congrArg _ ht)⟩
  · rw [hk, Except.bind, if_pos hd]
    exact ⟨s, h.trans (congrArg _ ht)⟩
  · rw [hk, Except.bind, if_neg (not_not.2 hd)]
    exact ⟨_, h.trans (congrArg _ ht)⟩

/-- In the default build `ENCCHK` is `ENCBUF` for every thread count (`46_chunked_and_parallel.md` R264). -/
theorem exec_encrypting {i : Instr} (hi : i = .encbuf ∨ ∃ n, i = .encchk n) (s : State) :
    exec i s = .next (encryptCommand Config.params s.modeEnc s) := by
  rcases hi with rfl | ⟨n, rfl⟩
  · exact exec_encbuf s
  · have whole : (fun c x => runChunked Config.params.legacyChunkRestart n.toNat c.bs c.mode (s.modeEnc c) x)
        = s.modeEnc := by
      funext c x
      exact runChunked_false _ _ _ _ x
    rw [exec_encchk, encryptChunked, whole]

theorem endsWith_encryptAnswer {i : Instr} (hi : i = .encbuf ∨ ∃ n, i = .encchk n) (s : State) :
    EndsWithAnswer i s (encryptAnswer s) := by
  have h := exec_encrypting hi s
  rw [encryptAnswer]
  rcases encryptCommand_cases Config.params s.modeEnc s with ⟨e, he, ht⟩ | ⟨c, hc, ht⟩
  · rw [he]
    exact ⟨s, h.trans (congrArg _ ht)⟩
  · rw [hc]
    exact ⟨_, h.trans (congrArg _ ht)⟩

theorem endsWith_decryptAnswer {i : Instr} (hi : i = .decbuf ∨ ∃ n, i = .decchk n) (s : State) :
    EndsWithAnswer i s (decryptAnswer s) := by
  have h := exec_decrypting hi s
  rw [decryptAnswer]
  rcases decryptCommand_cases Config.params s.modeDec s with
    ⟨e, he, ht⟩ | ⟨c, hc, hd, ht⟩ | ⟨c, e, hc, hd, hu, ht⟩ | ⟨c, z, hc, hd, hu, ht⟩
  · rw [he]
    exact ⟨s, h.trans (congrArg _ ht)⟩
  · rw [hc, Except.bind, if_pos hd]
    exact ⟨s, h.trans (congrArg _ ht)⟩
  · rw [hc, Except.bind, if_neg (not_not.2 hd), hu]
    exact ⟨_, h.trans (congrArg _ ht)⟩
  · rw [hc, Except.bind, if_neg (not_not.2 hd), hu]
    exact ⟨_, h.trans (congrArg _ ht)⟩

theorem endsWith_permuteAnswer (m : BitVec 16) (s : State) : EndsWithAnswer (.permute m) s (permuteAnswer m.toNat s) := by
  rw [permuteAnswer]
  rcases permuteCommand_cases Config.params m s with ⟨e, he, ht⟩ | ⟨hn, ht⟩
  · rw [he]
    exact ⟨s, (exec_permute m s).trans (congrArg _ ht)⟩
  · rw [hn]
    exact ⟨s, (exec_permute m s).trans (congrArg _ ht)⟩

/-! ### The answers depend on the operands only -/

theorem blockAnswer_congr {s s' : State} (op : Variant → List Bytes → Bytes → Bytes) (h : SameBlockOperands s s') :
    blockAnswer op s' = blockAnswer op s := by
  rw [blockAnswer, blockAnswer, installed_congr h.key, h.input.dlen]
  congr 1
  funext key
  by_cases hd : s.dlen.toNat = blockSize key.1
  · rw [← hd, din_congr h.input (by have := blockSize_le key.1; omega)]
  · rw [if_pos hd, if_pos hd]

section
variable {s s' : State} (h : SameModeOperands s s')

theorem modeField_ne_ecb {m : Mode} (hm : modeOfCode s.ctrlModeCode = some m) (hne : m ≠ .ecb) :
    modeField s ≠ modeCode .ecb := fun hf =>
  hne (Option.some.inj (hm.symm.trans ((ctrlMode_iff s .ecb).2 hf)))

include h

theorem modeChecks_congr : modeChecks Config.params s' = modeChecks Config.params s := by
  simp only [modeChecks, installed_congr h.key, ctrlModeCode_congr h.mode, h.input.dlen, ctrlPad_congr h.pad]
  cases hm : modeOfCode s.ctrlModeCode with
  | none => rfl
  | some m =>
    have iv : m ≠ .ecb → s'.ivlen = s.ivlen := fun hne => h.ivlen (modeField_ne_ecb hm hne)
    have delta : m = .randomDelta → s'.deltalen = s.deltalen := fun he =>
      h.deltalen ((ctrlMode_iff s _).1 (he ▸ hm))
    cases m with
    | ecb => simp
    | randomDelta => rw [iv (by decide), delta rfl]
    | _ => simp [iv]

section
variable {c : ModeSetup} (hc : modeChecks Config.params s = .ok c)
include hc

/-- The blocks of `IV` and `DELTA` agree where the selected mode reads them. -/
theorem modeBlocks_congr : (c.mode ≠ .ecb → s'.ivBlock c.bs = s.ivBlock c.bs)
    ∧ (c.mode = .randomDelta → s'.deltaBlock c.bs = s.deltaBlock c.bs) := by
  obtain ⟨key, mode, -⟩ := modeChecks_ok.1 hc
  obtain ⟨-, -, variant, -⟩ := State.installed_ok.1 key
  rw [ModeSetup.bs, ← variant]
  exact ⟨fun hne => h.iv (modeField_ne_ecb mode hne), fun hd => h.delta ((ctrlMode_iff s _).1 (hd ▸ mode))⟩

theorem State.modeEnc_congr : s'.modeEnc c = s.modeEnc c := by
  obtain ⟨iv, delta⟩ := modeBlocks_congr h hc
  exact funext (Machine.modeEnc_congr iv delta _ _)

theorem State.modeDec_congr : s'.modeDec c = s.modeDec c := by
  obtain ⟨iv, delta⟩ := modeBlocks_congr h hc
  exact funext (Machine.modeDec_congr iv delta _ _ _)

theorem din_congr_of_checks : s'.din s.dlen.toNat = s.din s.dlen.toNat := by
  obtain ⟨-, -, fits, -⟩ := modeChecks_ok.1 hc
  exact din_congr h.input fits

theorem paddedInput_congr (draws : SameDraws s s') : s'.paddedInput c = s.paddedInput c := by
  obtain ⟨-, -, -, -, -, padding⟩ := modeChecks_ok.1 hc
  have draw : c.padding = .iso10126 → s'.draw = s.draw := fun hp =>
    draw_congr (draws ((ctrlPad_iff s _).1 (padding.trans hp)))
  rw [State.paddedInput, h.input.dlen, din_congr_of_checks h hc, pad_congr_draw draw, State.paddedInput]

end

theorem encryptAnswer_congr (draws : SameDraws s s') : encryptAnswer s' = encryptAnswer s := by
  rw [encryptAnswer, encryptAnswer, modeChecks_congr h]
  cases hc : modeChecks Config.params s with
  | error e => simp only [Except.map]
  | ok c => simp only [Except.map, State.modeEnc_congr h hc, paddedInput_congr h hc draws]

theorem decryptAnswer_congr : decryptAnswer s' = decryptAnswer s := by
  rw [decryptAnswer, decryptAnswer, modeChecks_congr h, h.input.dlen]
  cases hc : modeChecks Config.params s with
  | error e => simp only [Except.bind]
  | ok c => simp only [Except.bind, State.modeDec_congr h hc, din_congr_of_checks h hc]

end

section
variable {m : Nat} {s s' : State} (h : SamePermuteOperands m s s')
include h

theorem permuteChecks_congr : permuteChecks Config.params m s' = permuteChecks Config.params m s := by
  simp only [permuteChecks, h.input.dlen, ctrlPbase_eq, h.pbase]
  by_cases hm : m ≤ 256
  · rw [tbl_congr (h.tbl hm)]
  · have tooLong : Config.params.tblEntries < m := Nat.lt_of_not_le hm
    simp only [if_pos tooLong]

theorem permuteAnswer_congr : permuteAnswer m s' = permuteAnswer m s := by
  rw [permuteAnswer, permuteAnswer, permuteChecks_congr h]
  cases hc : permuteChecks Config.params m s with
  | some e => rfl
  | none =>
    obtain ⟨-, -, fits, entries, -⟩ := permuteChecks_none.1 hc
    simp only [h.input.dlen, din_congr h.input fits, tbl_congr (h.tbl entries), ctrlPorder_congr h.porder,
      ctrlPbase_eq, h.pbase]

end

/-! ### Equal answers, equal ends -/

/-- The output read back depends on the bytes written only. -/
theorem State.output_putOutput_congr (s s' : State) (out : Bytes) :
    (s'.putOutput out).output = (s.putOutput out).output := by
  refine List.map_congr_left fun k hk => ?_
  have hk : k < out.length :=
    (List.mem_range.1 hk).trans_le ((BitVec.toNat_ofNat ..).trans_le (Nat.mod_le ..))
  rw [State.byteAt_putOutput, State.byteAt_putOutput, dif_pos (by omega), dif_pos (by omega)]

theorem State.output_of_olen_zero {s : State} (h : s.olen = 0) : s.output = [] := by
  rw [State.output, h]
  rfl

/-- The statement's conclusion: from both states the command ends with the same report, output and key store. -/
def SameEnd (i : Instr) (s s' : State) : Prop :=
  ∃ t t', exec i s = .next t ∧ exec i s' = .next t' ∧ SameReport t t'
    ∧ (isDataCommand i = true → t'.output = t.output ∧ t'.olen = t.olen)
    ∧ (∀ n, i = .setkey n → KeepsKeyStore t t')

theorem sameEnd_of_answer {i : Instr} {s s' : State} {r r' : Except CoreError Bytes} (hi : ∀ n, i ≠ .setkey n)
    (h : EndsWithAnswer i s r) (h' : EndsWithAnswer i s' r') (hr : r' = r) : SameEnd i s s' := by
  subst hr
  have noKey {t t' : State} (n : BitVec 16) (hn : i = .setkey n) : KeepsKeyStore t t' := absurd hn (hi n)
  cases r' with
  | error e =>
    obtain ⟨u, hu⟩ := h
    obtain ⟨u', hu'⟩ := h'
    exact ⟨_, _, hu, hu', ⟨rfl, rfl, rfl, rfl⟩, fun _ => ⟨rfl, rfl⟩, noKey⟩
  | ok out =>
    obtain ⟨u, hu⟩ := h
    obtain ⟨u', hu'⟩ := h'
    exact ⟨_, _, hu, hu', ⟨rfl, rfl, rfl, rfl⟩, fun _ => ⟨State.output_putOutput_congr u u' out, rfl⟩, noKey⟩

/-- `SETKEY` drops the old key first, so what it leaves is made of its operands. -/
theorem sameEnd_setkey {n : BitVec 16} {s s' : State} (h : SameKeyOperands n.toNat s s') : SameEnd (.setkey n) s s' := by
  have hv : cipherField s = cipherCode s.ctrlCipher := (ctrlCipher_iff s _).1 rfl
  have hv' : cipherField s' = cipherCode s.ctrlCipher := h.cipher.trans hv
  have ends {t t' : State} (ht : exec (.setkey n) s = .next t) (ht' : exec (.setkey n) s' = .next t')
      (report : SameReport t t') (store : KeepsKeyStore t t') : SameEnd (.setkey n) s s' :=
    ⟨t, t', ht, ht', report, nofun, fun _ _ => store⟩
  by_cases hn : n.toNat = keyLength s.ctrlCipher
  · have same := h.key _ hv hn
    have adj := ctrlKeyadj_congr h.keyadj
    cases hx : expandKey Config.compKsConstByte s.ctrlCipher s.ctrlKeyadj (s.keyBytes n.toNat) with
    | error e =>
      exact ends (exec_setkey_rejected hv hn hx) (exec_setkey_rejected hv' hn (by rw [adj, same, hx]))
        ⟨rfl, rfl, rfl, rfl⟩ ⟨rfl, rfl, rfl⟩
    | ok rk =>
      exact ends (exec_setkey_installs hv hn hx) (exec_setkey_installs hv' hn (by rw [adj, same, hx]))
        ⟨rfl, rfl, rfl, rfl⟩ ⟨rfl, rfl, rfl⟩
  · exact ends (exec_setkey_wrongLength hv hn) (exec_setkey_wrongLength hv' hn) ⟨rfl, rfl, rfl, rfl⟩ ⟨rfl, rfl, rfl⟩

/-- Settles O58: each data command's answer is a function of its operands, and so are the ends of the others. -/
theorem commandsReadOnlyTheirOperands : Obligations.CommandsReadOnlyTheirOperands := by
  intro i s s' h
  cases i with
  | nop => exact ⟨_, _, exec_nop s, exec_nop s', ⟨rfl, rfl, rfl, rfl⟩, nofun, nofun⟩
  | clr => exact ⟨_, _, exec_clr s, exec_clr s', ⟨rfl, rfl, rfl, rfl⟩, nofun, nofun⟩
  | setkey n => exact sameEnd_setkey h
  | encblk =>
    exact sameEnd_of_answer nofun (endsWith_blockAnswer (exec_encblk s)) (endsWith_blockAnswer (exec_encblk s'))
      (blockAnswer_congr _ h)
  | decblk =>
    exact sameEnd_of_answer nofun (endsWith_blockAnswer (exec_decblk s)) (endsWith_blockAnswer (exec_decblk s'))
      (blockAnswer_congr _ h)
  | encbuf =>
    obtain ⟨operands, draws⟩ := h
    exact sameEnd_of_answer nofun (endsWith_encryptAnswer (.inl rfl) s) (endsWith_encryptAnswer (.inl rfl) s')
      (encryptAnswer_congr operands draws)
  | encchk n =>
    obtain ⟨operands, draws⟩ := h
    exact sameEnd_of_answer nofun (endsWith_encryptAnswer (.inr ⟨n, rfl⟩) s) (endsWith_encryptAnswer (.inr ⟨n, rfl⟩) s')
      (encryptAnswer_congr operands draws)
  | decbuf =>
    exact sameEnd_of_answer nofun (endsWith_decryptAnswer (.inl rfl) s) (endsWith_decryptAnswer (.inl rfl) s')
      (decryptAnswer_congr h)
  | decchk n =>
    exact sameEnd_of_answer nofun (endsWith_decryptAnswer (.inr ⟨n, rfl⟩) s) (endsWith_decryptAnswer (.inr ⟨n, rfl⟩) s')
      (decryptAnswer_congr h)
  | permute m =>
    exact sameEnd_of_answer nofun (endsWith_permuteAnswer m s) (endsWith_permuteAnswer m s') (permuteAnswer_congr h)

end Sys2Proof.Machine
end

section
/-! Padding and its removal, byte by byte (`45_mode_engine.md` R221 to R227). -/

namespace Sys2Proof.Machine

/-! ### Removing padding -/

/-- The last byte is a length in range: so many bytes go, whatever they are (R226). -/
theorem unpadLength_ok {bs : Nat} {e : Bytes} {p : Byte} (pos : 0 < p.toNat) (block : p.toNat ≤ bs)
    (fits : p.toNat ≤ (e ++ [p]).length) :
    unpadLength bs (e ++ [p]) = .ok ((e ++ [p]).take ((e ++ [p]).length - p.toNat)) := by
  simp only [unpadLength, List.getLast?_concat]
  rw [if_neg (by omega)]

/-! `unpadZeros` is the library's `rdropWhile` by definition. -/

theorem unpadZeros_append_zero (d : Bytes) : unpadZeros (d ++ [0]) = unpadZeros d :=
  List.rdropWhile_concat_pos _ d 0 rfl

theorem unpadZeros_append_nonzero (d : Bytes) {b : Byte} (hb : b ≠ 0) : unpadZeros (d ++ [b]) = d ++ [b] :=
  List.rdropWhile_concat_neg _ d b (by simpa using hb)

/-- `d[0 .. k)` is `d` without its trailing zero bytes (R227). -/
structure TrailingZerosFrom (d : Bytes) (k : Nat) : Prop where
  le : k ≤ d.length
  zero : ∀ j, k ≤ j → d.getD j 0 = 0
  last : 0 < k → d.getD (k - 1) 0 ≠ 0

theorem TrailingZerosFrom.append_zero {d : Bytes} {k : Nat} (h : TrailingZerosFrom d k) :
    TrailingZerosFrom (d ++ [0]) k := by
  have same : ∀ j, (d ++ [0]).getD j 0 = d.getD j 0 := by
    intro j
    by_cases hj : j < d.length
    · exact List.getD_append _ _ _ _ hj
    · rw [List.getD_append_right _ _ _ _ (by omega), List.getD_eq_default d _ (by omega)]
      exact getD_zeroBytes 1 _
  refine ⟨?_, fun j hj => (same j).trans (h.zero j hj), fun hk => ?_⟩
  · have := h.le
    rw [List.length_append]
    omega
  · rw [same]
    exact h.last hk

theorem trailingZerosFrom_length {d : Bytes} {b : Byte} (hb : b ≠ 0) :
    TrailingZerosFrom (d ++ [b]) (d ++ [b]).length := by
  refine ⟨Nat.le_refl _, fun j hj => List.getD_eq_default _ _ hj, fun _ => ?_⟩
  rw [List.length_append, List.length_singleton, Nat.add_sub_cancel, List.getD_append_right _ _ _ _ (Nat.le_refl _),
    Nat.sub_self]
  exact hb

/-- `ZEROS` keeps the shortest prefix after which all bytes are 0. -/
theorem unpadZeros_eq_take (d : Bytes) : ∃ k, unpadZeros d = d.take k ∧ TrailingZerosFrom d k := by
  induction d using List.reverseRecOn with
  | nil => exact ⟨0, rfl, Nat.le_refl 0, fun _ _ => rfl, nofun⟩
  | append_singleton d b ih =>
    by_cases hb : b = 0
    · obtain ⟨k, eq, h⟩ := ih
      rw [hb, unpadZeros_append_zero, eq]
      exact ⟨k, (List.take_append_of_le_length h.le).symm, h.append_zero⟩
    · exact ⟨_, (unpadZeros_append_nonzero d hb).trans (List.take_length).symm, trailingZerosFrom_length hb⟩

/-- Settles O51: the length-byte schemes branch on the last byte only; `ZEROS` stops at the last byte that is not 0. -/
theorem unpadReadsOnlyTheLastByte : Obligations.UnpadReadsOnlyTheLastByte := by
  intro bs d
  refine ⟨fun scheme hs => ?_, ?_⟩
  · rw [unpad_eq_unpadLength hs]
    refine ⟨?_, ?_⟩
    · rintro rfl
      rfl
    · rintro e p rfl
      refine ⟨fun bad => ?_, unpadLength_ok⟩
      have last : p = (e ++ [p]).getD ((e ++ [p]).length - 1) 0 := by simp
      exact unpadLength_bad (by simp) last (bad.imp_left fun h => BitVec.eq_of_toNat_eq h)
  · obtain ⟨k, eq, h⟩ := unpadZeros_eq_take d
    exact ⟨k, congrArg _ eq, h.le, h.zero, h.last⟩

/-! ### Padding -/

theorem getD_rep (b d : Byte) {n k : Nat} (hk : k < n) : (rep b n).getD k d = b := List.getD_replicate b hk

/-- A length byte holds any length up to 255. -/
theorem toNat_lengthByte {p : Nat} (hp : p < 256) : (BitVec.ofNat 8 p).toNat = p := Nat.mod_eq_of_lt hp

/-- A padding that ends in its length byte: `p` bytes, the last one `p`, the others the filler (R224, R225). -/
theorem lengthByte_ends {filler : Bytes} {p : Nat} (hf : filler.length = p - 1) (pos : 0 < p) (hp : p < 256) :
    (filler ++ [BitVec.ofNat 8 p]).length = p ∧ ((filler ++ [BitVec.ofNat 8 p]).getD (p - 1) 0).toNat = p
      ∧ ∀ k b, k + 1 < p → (filler ++ [BitVec.ofNat 8 p]).getD k b = filler.getD k b := by
  refine ⟨?_, ?_, fun k b hk => List.getD_append _ _ _ _ (by omega)⟩
  · rw [List.length_append, List.length_singleton]
    omega
  · rw [← hf, List.getD_append_right _ _ _ _ (Nat.le_refl _), Nat.sub_self]
    exact toNat_lengthByte hp

/-- Settles O52, scheme by scheme. -/
theorem padAppendsWhatTheSchemeSays : Obligations.PadAppendsWhatTheSchemeSays := by
  intro draw bs d pos small
  refine ⟨fun aligned => if_pos aligned, ?_⟩
  rintro r p rfl rfl
  obtain ⟨hp, le⟩ : 0 < bs - d.length % bs ∧ bs - d.length % bs ≤ bs := padLength_pos bs d.length pos
  have byte : bs - d.length % bs < 256 := Nat.lt_of_le_of_lt le small
  refine ⟨fun hr => ?zeros, ?pkcs7, ?ansiX923, ?iso10126⟩
  case zeros =>
    exact ⟨zeroBytes (bs - d.length % bs), if_neg (by omega), length_zeroBytes _,
      fun k hk => getD_rep 0 1 hk⟩
  case pkcs7 =>
    refine ⟨rep (BitVec.ofNat 8 (bs - d.length % bs)) (bs - d.length % bs), rfl, length_rep _ _, fun k hk => ?_⟩
    rw [getD_rep _ _ hk, toNat_lengthByte byte]
  case ansiX923 =>
    obtain ⟨len, last, front⟩ := lengthByte_ends (length_zeroBytes _) hp byte
    refine ⟨_, List.append_assoc _ _ _, len, last, fun k hk => (front k 1 hk).trans ?_⟩
    exact getD_rep 0 1 (Nat.lt_sub_of_add_lt hk)
  case iso10126 =>
    obtain ⟨len, last, front⟩ :=
      lengthByte_ends (filler := (List.range (bs - d.length % bs - 1)).map draw) (by simp) hp byte
    refine ⟨_, List.append_assoc _ _ _, len, last, fun k hk => (front k 0 hk).trans ?_⟩
    have hk' : k < bs - d.length % bs - 1 := Nat.lt_sub_of_add_lt hk
    simp [hk']

end Sys2Proof.Machine
end

section
/-! The five checks of the mode commands, one lemma per failure (`45_mode_engine.md` R239). -/

namespace Sys2Proof.Machine

open Sys2Proof.Safety

/-- A failed check ends each of the four mode commands: it is the command's answer. -/
theorem exec_mode_fails {i : Instr} {s : State} {e : CoreError} (hi : isModeCommand i = true)
    (he : modeChecks Config.params s = .error e) :
    ∃ t, exec i s = .next t ∧ EndedWith t e.code e.info ∧ t.olen = 0 := by
  have answer : EndsWithAnswer i s (.error e) := by
    have enc : encryptAnswer s = .error e := by rw [encryptAnswer, he, Except.map]
    have dec : decryptAnswer s = .error e := by rw [decryptAnswer, he, Except.bind]
    cases i with
    | encbuf => exact enc ▸ endsWith_encryptAnswer (.inl rfl) s
    | encchk n => exact enc ▸ endsWith_encryptAnswer (.inr ⟨n, rfl⟩) s
    | decbuf => exact dec ▸ endsWith_decryptAnswer (.inl rfl) s
    | decchk n => exact dec ▸ endsWith_decryptAnswer (.inr ⟨n, rfl⟩) s
    | _ => cases hi
  obtain ⟨u, hu⟩ := answer
  exact dataCommand_fails hu

theorem modeChecks_nokey {p : Params} {s : State} (h : s.keySet = false) : modeChecks p s = .error .stateNokey := by
  rw [modeChecks, State.installed_nokey h]

section
variable {p : Params} {s : State} {v : Variant} {rks : List Bytes} (key : s.installed = .ok (v, rks))
include key

theorem modeChecks_unsupported (hm : modeOfCode s.ctrlModeCode = none) :
    modeChecks p s = .error (.stateUnsup s.ctrlModeCode) := by
  simp only [modeChecks, key, hm]

section
variable {m : Mode} (mode : modeOfCode s.ctrlModeCode = some m)
include mode

theorem modeChecks_overCapacity (h : p.bufBytes < s.dlen.toNat) : modeChecks p s = .error (.sizeBuf s.dlen) := by
  simp only [modeChecks, key, mode, if_pos h]

theorem modeChecks_badIv (fits : s.dlen.toNat ≤ p.bufBytes) (hm : m ≠ .ecb) (h : s.ivlen.toNat ≠ blockSize v) :
    modeChecks p s = .error (.sizeIv s.ivlen) := by
  simp only [modeChecks, key, mode]
  rw [if_neg (by omega), if_pos ⟨hm, h⟩]

theorem modeChecks_badDelta (fits : s.dlen.toNat ≤ p.bufBytes) (iv : s.ivlen.toNat = blockSize v)
    (hm : m = .randomDelta) (h : s.deltalen.toNat ≠ blockSize v) :
    modeChecks p s = .error (.sizeDelta s.deltalen) := by
  simp only [modeChecks, key, mode]
  rw [if_neg (by omega), if_neg fun bad => bad.2 iv, if_pos ⟨hm, h⟩]

end

end

/-- `MODE` other than 7 selects one of the modes (`10_state.md` R22). -/
theorem exists_ctrlMode {s : State} (h : modeField s ≠ 7) : ∃ m, modeOfCode s.ctrlModeCode = some m :=
  Option.ne_none_iff_exists'.1 fun hn => h ((ctrlMode_none_iff s).1 hn)

/-- The detail of an unsupported mode is the field `MODE`. -/
theorem info_stateUnsup (s : State) : (CoreError.stateUnsup s.ctrlModeCode).info = BitVec.ofNat 32 (modeField s) := by
  rw [← ctrlModeCode_toNat, BitVec.ofNat_toNat]
  rfl

/-- Settles O30: one failing check after the other, each with the earlier ones passed. -/
theorem modeChecksFailInOrder : Obligations.ModeChecksFailInOrder := by
  intro i s hi
  refine ⟨fun h => exec_mode_fails hi (modeChecks_nokey h), fun v rks hkey => ?_⟩
  have key := installed_of_keyInstalled hkey
  refine ⟨fun h7 => ?unsupported, fun h7 large => ?capacity, fun h7 fits hne h => ?iv, fun hm fits iv h => ?delta⟩
  case unsupported =>
    have ends := exec_mode_fails hi (modeChecks_unsupported key ((ctrlMode_none_iff s).2 h7))
    rwa [info_stateUnsup, h7] at ends
  case capacity =>
    obtain ⟨m, mode⟩ := exists_ctrlMode h7
    exact exec_mode_fails hi (modeChecks_overCapacity key mode large)
  case iv =>
    obtain ⟨m, mode⟩ := exists_ctrlMode h7
    have notEcb : m ≠ .ecb := fun he => hne ((ctrlMode_iff s .ecb).1 (he ▸ mode))
    rw [BitVec.ofNat_toNat]
    exact exec_mode_fails hi (modeChecks_badIv key mode fits notEcb h)
  case delta =>
    rw [BitVec.ofNat_toNat]
    exact exec_mode_fails hi (modeChecks_badDelta key ((ctrlMode_iff s _).2 hm) fits iv rfl h)

end Sys2Proof.Machine
end

section
/-! The step rules of the modes as equations between blocks (`45_mode_engine.md` R230 to R238): the feedback before each
block, and what it is in each mode. -/

namespace Sys2Proof.Machine

open Sys2Proof.Safety

/-! ### Running a step rule -/

/-- The feedback before block `i` of a run over the blocks `X 0, X 1, …` from feedback `F`. -/
def feedbackAt (step : Nat → Bytes → Bytes → Bytes × Bytes) (X : Nat → Bytes) (F : Bytes) : Nat → Bytes
  | 0 => F
  | i + 1 => (step i (feedbackAt step X F i) (X i)).2

/-- Output block `i` of that run. -/
def outputAt (step : Nat → Bytes → Bytes → Bytes × Bytes) (X : Nat → Bytes) (F : Bytes) (i : Nat) : Bytes :=
  (step i (feedbackAt step X F i) (X i)).1

section
variable (step : Nat → Bytes → Bytes → Bytes × Bytes)

theorem runBlocks_map_range' (X : Nat → Bytes) (F : Bytes) (i n : Nat) :
    runBlocks step i (feedbackAt step X F i) ((List.range' i n).map X) = (List.range' i n).map (outputAt step X F) := by
  induction n generalizing i with
  | zero => rfl
  | succ n ih => exact congrArg (outputAt step X F i :: ·) (ih (i + 1))

/-- The blocks of a run over all of `x` are the `outputAt`s. -/
theorem runBlocks_blocksOf (bs : Nat) (F x : Bytes) :
    runBlocks step 0 F (blocksOf bs x) = (List.range (x.length / bs)).map (outputAt step (blk bs x) F) := by
  rw [List.range_eq_range', ← runBlocks_map_range', ← List.range_eq_range']
  rfl

end

theorem getElem?_blocksOf {bs : Nat} {s : Bytes} {i : Nat} (hi : i < s.length / bs) :
    (blocksOf bs s)[i]? = some (blk bs s i) := by
  simp [blocksOf, blk, hi]

/-- Block `i` of the output of a step rule that keeps the block size. -/
theorem blk_runBlocks {step : Nat → Bytes → Bytes → Bytes × Bytes} {bs : Nat} (pos : 0 < bs)
    (keeps : ∀ i F X, F.length = bs → X.length = bs → (step i F X).1.length = bs ∧ (step i F X).2.length = bs)
    {F : Bytes} (hF : F.length = bs) (x : Bytes) {i : Nat} (hi : i < x.length / bs) :
    blk bs (runBlocks step 0 F (blocksOf bs x)).flatten i = outputAt step (blk bs x) F i := by
  have sizes : ∀ Y ∈ runBlocks step 0 F (blocksOf bs x), Y.length = bs := fun Y hY =>
    length_of_mem_runBlocks keeps hF (fun X hX => length_of_mem_blocksOf hX) hY
  have blocks := blocksOf_flatten bs pos _ sizes
  have count : (runBlocks step 0 F (blocksOf bs x)).flatten.length / bs = x.length / bs := by
    rw [← length_blocksOf, blocks, length_runBlocks, length_blocksOf]
  have read := getElem?_blocksOf (hi.trans_eq count.symm)
  have made : (runBlocks step 0 F (blocksOf bs x))[i]? = some (outputAt step (blk bs x) F i) := by
    rw [runBlocks_blocksOf, List.getElem?_map, List.getElem?_range hi, Option.map_some]
  exact Option.some.inj (read.symm.trans ((congrArg (·[i]?) blocks).trans made))

/-! ### The feedback of each mode -/

/-- The feedback that is the cipher of the last feedback is the cipher iterated, whatever the blocks are. -/
theorem feedbackAt_iterate {step : Nat → Bytes → Bytes → Bytes × Bytes} {E : Bytes → Bytes}
    (hE : ∀ i F X, (step i F X).2 = E F) (X : Nat → Bytes) (F : Bytes) (i : Nat) :
    feedbackAt step X F i = E^[i] F := by
  induction i with
  | zero => rfl
  | succ i ih => rw [feedbackAt, hE, ih, Function.iterate_succ_apply']

section
variable {step : Nat → Bytes → Bytes → Bytes × Bytes} {X Y : Nat → Bytes} {F : Bytes} {n : Nat}
  (out : ∀ i, i < n → Y i = outputAt step X F i)
include out

/-- A mode whose next feedback is a function `next` of the input and output block (`CBC`, `PCBC`, `CFB`,
`RANDOM_DELTA`): the first block sees the starting feedback, every later one what its predecessor makes. -/
theorem chained_blocks {next : Bytes → Bytes → Bytes} (hnext : ∀ i F X, (step i F X).2 = next X (step i F X).1) :
    (0 < n → Y 0 = (step 0 F (X 0)).1)
      ∧ ∀ i, i + 1 < n → Y (i + 1) = (step (i + 1) (next (X i) (Y i)) (X (i + 1))).1 := by
  refine ⟨out 0, fun i hi => ?_⟩
  rw [out (i + 1) hi, out i (Nat.lt_of_succ_lt hi), outputAt, feedbackAt, hnext, outputAt]

/-- `OFB`: the input block under a key stream made of the starting feedback alone (R235). -/
theorem keyStream_blocks {E : Bytes → Bytes} (hE : ∀ i F X, step i F X = (xorBytes X (E F), E F)) :
    ∀ i, i < n → Y i = xorBytes (X i) (E^[i + 1] F) := by
  intro i hi
  rw [out i hi, outputAt, hE, feedbackAt_iterate (E := E) fun i F X => congrArg Prod.snd (hE i F X),
    Function.iterate_succ_apply']

end

section
variable {E D : Bytes → Bytes} {bs : Nat} {m : Mode} {iv del x y : Bytes}

theorem encryptsBy_of_outputs
    (out : ∀ i, i < x.length / bs → blk bs y i = outputAt (encStep E bs m iv del) (blk bs x) iv i) :
    EncryptsBy E bs m iv del x y := by
  cases m with
  | ecb => exact out
  | ctr => exact out
  | cbc => exact chained_blocks out (next := fun _ Y => Y) fun _ _ _ => rfl
  | pcbc => exact chained_blocks out (next := fun X Y => xorBytes Y X) fun _ _ _ => rfl
  | cfb => exact chained_blocks out (next := fun _ Y => Y) fun _ _ _ => rfl
  | randomDelta => exact chained_blocks out (next := fun _ Y => xorBytes Y del) fun _ _ _ => rfl
  | ofb => exact keyStream_blocks out fun _ _ _ => rfl

theorem decryptsBy_of_outputs
    (out : ∀ i, i < x.length / bs → blk bs y i = outputAt (decStep E D bs m iv del) (blk bs x) iv i) :
    DecryptsBy E D bs m iv del x y := by
  cases m with
  | ecb => exact out
  | ctr => exact out
  | cbc => exact chained_blocks out (next := fun X _ => X) fun _ _ _ => rfl
  | pcbc => exact chained_blocks out (next := fun X Y => xorBytes X Y) fun _ _ _ => rfl
  | cfb => exact chained_blocks out (next := fun X _ => X) fun _ _ _ => rfl
  | randomDelta => exact chained_blocks out (next := fun X _ => xorBytes X del) fun _ _ _ => rfl
  | ofb => exact keyStream_blocks out fun _ _ _ => rfl

end

/-- Settles O48: block `i` of the output is the step rule's, with the feedback each mode hands on. -/
theorem modesFollowTheirStepRules : Obligations.ModesFollowTheirStepRules := by
  intro E D bs m iv del x pos hE hD hiv hdel hx
  exact ⟨length_modeEnc hE m hiv hdel x hx, length_modeDec hE hD m hiv hdel x hx,
    encryptsBy_of_outputs fun _ hi => blk_runBlocks pos (length_encStep hE m hdel) hiv x hi,
    decryptsBy_of_outputs fun _ hi => blk_runBlocks pos (length_decStep hE hD m hdel) hiv x hi⟩

end Sys2Proof.Machine
end

section
/-! How many chunks a buffer has, which bytes each holds, and their total (`46_chunked_and_parallel.md` R262). -/

namespace Sys2Proof.Machine

/-- The rounded-up quotient counts the chunks that start before the end. -/
theorem lt_length_chunks {N T bs : Nat} (pos : 0 < bs) (k : Nat) :
    k < (chunks N T bs).length ↔ k * chunkSize N T bs < N := by
  have hc := chunkSize_pos N T bs pos
  rw [chunks, List.length_map, List.length_range, ← Nat.ceilDiv_eq_add_pred_div, ← not_le,
    ceilDiv_le_iff_le_mul hc, not_le, Nat.mul_comm]

theorem getElem_chunks {N T bs k : Nat} (hk : k < (chunks N T bs).length) :
    (chunks N T bs)[k] = (k * chunkSize N T bs, min ((k + 1) * chunkSize N T bs) N) := by
  simp [chunks]

/-- The first `n` slices of `c` bytes, cut off at `N`, have the lengths of a prefix: the sum telescopes. -/
theorem sum_sliceLengths (N c n : Nat) :
    ((List.range n).map fun k => min ((k + 1) * c) N - k * c).sum = min (n * c) N := by
  induction n with
  | zero => simp
  | succ n ih =>
    have step : n * c ≤ (n + 1) * c := Nat.mul_le_mul_right c n.le_succ
    rw [List.range_succ, List.map_append, List.sum_append, ih, List.map_singleton, List.sum_singleton]
    omega

/-- No chunk starts at or after the end, so the chunks reach it. -/
theorem sum_chunkLengths {N T bs : Nat} (pos : 0 < bs) :
    ((chunks N T bs).map fun ab => ab.2 - ab.1).sum = N := by
  have reach : N ≤ (chunks N T bs).length * chunkSize N T bs :=
    not_lt.1 fun h => lt_irrefl _ ((lt_length_chunks pos _).2 h)
  rw [chunks, List.length_map, List.length_range] at reach
  rw [chunks, List.map_map]
  exact (sum_sliceLengths N _ _).trans (min_eq_right reach)

/-- Settles O54: chunk `k` is there exactly when it starts before the end, and the lengths telescope. -/
theorem chunksCutTheBufferInOrder : Obligations.ChunksCutTheBufferInOrder := by
  intro N T bs pos _ _
  refine ⟨rfl, chunkSize_mod N T bs, fun k ab h => ?_, fun k => (lt_length_chunks pos k).2, sum_chunkLengths pos⟩
  obtain ⟨hk, rfl⟩ := List.getElem?_eq_some_iff.1 h
  rw [getElem_chunks hk]
  exact ⟨rfl, (lt_length_chunks pos k).1 hk, rfl⟩

end Sys2Proof.Machine
end

section
/-! What the housekeeping commands leave (`47_housekeeping.md` R280, R281). -/

namespace Sys2Proof.Machine

/-- Settles O20: `NOP` is the ordinary command end and no more. -/
theorem nopOnlyReports : Obligations.NopOnlyReports := exec_nop

/-- Clearing is resetting, with the memories and the environment kept. -/
theorem State.clear_eq_reset (s : State) :
    s.clear = { State.reset with
      mem := s.mem, port := s.port, drawIndex := s.drawIndex, resetCount := s.resetCount } := rfl

/-- Settles O21: `CLR` clears the state, and the cache it leaves is the empty one of reset. -/
theorem clrReturnsRegistersToReset : Obligations.ClrReturnsRegistersToReset := by
  intro s
  refine ⟨State.reset.cache, ?_⟩
  rw [exec_clr, State.clear_eq_reset]

end Sys2Proof.Machine
end

section
/-! The adapter's cache (`42_composite_schedule_and_adapter.md` R176 to R179): a lookup answers the expansion and keeps
the cache exact, so every run of block operations does. -/

namespace Sys2Proof.Safety

open Sys2Proof.Machine

/-! ### Finding and inserting an entry -/

theorem mem_of_cacheFind {cache : List CacheEntry} {k : Bytes} {v : List Bytes} (h : cacheFind cache k = some v) :
    ∃ e ∈ cache, e.key = k ∧ e.subKeys = v := by
  obtain ⟨e, he, rfl⟩ := Option.map_eq_some_iff.1 h
  exact ⟨e, List.mem_of_find?_eq_some he, of_decide_eq_true (List.find?_some he :), rfl⟩

theorem not_mem_of_cacheFind_none {cache : List CacheEntry} {k : Bytes} (h : cacheFind cache k = none) :
    k ∉ cache.map CacheEntry.key := by
  rintro hk
  obtain ⟨e, he, rfl⟩ := List.mem_map.1 hk
  simpa using List.find?_eq_none.1 (Option.map_eq_none_iff.1 h) e he

theorem parityOk_adjustParity (k : Bytes) : parityOk (adjustParity k) = true := by
  refine List.all_eq_true.2 fun b hb => ?_
  obtain ⟨a, _, rfl⟩ := List.mem_map.1 hb
  exact (parityOkByte_iff _).2 (adjustParityByte_idem a)

section
variable {p : Params} {cache : List CacheEntry} (ok : CacheOk p cache)
include ok

/-- What a full cache drops makes room for the new entry, which is exact and has a key of its own. -/
theorem CacheOk.insert {k : Bytes} (room : 1 ≤ p.cacheEntries) (hl : k.length = 8) (hp : parityOk k = true)
    (fresh : k ∉ cache.map CacheEntry.key) : CacheOk p (cacheInsert p.cacheEntries cache ⟨k, baseRoundKeys k⟩) := by
  have kept {e : CacheEntry} (he : e ∈ cache.drop (cache.length + 1 - p.cacheEntries)) : e ∈ cache :=
    List.mem_of_mem_drop he
  have each {P : CacheEntry → Prop} (old : ∀ e ∈ cache, P e) (new : P ⟨k, baseRoundKeys k⟩) :
      ∀ e ∈ cacheInsert p.cacheEntries cache ⟨k, baseRoundKeys k⟩, P e := by
    intro e he
    rcases List.mem_append.1 he with he | he
    · exact old e (kept he)
    · exact List.mem_singleton.1 he ▸ new
  refine ⟨?fits, each ok.exact rfl, each ok.adjusted ⟨hl, hp⟩, ?distinct⟩
  case fits =>
    rw [cacheInsert, List.length_append, List.length_drop, List.length_singleton]
    omega
  case distinct =>
    rw [cacheInsert, List.map_append, List.map_drop, List.map_singleton, ← List.concat_eq_append]
    exact (ok.distinct.sublist (List.drop_sublist _ _)).concat fun h => fresh (List.mem_of_mem_drop h)

/-- A lookup answers the expansion of its key, on a hit and on a miss (R177). -/
theorem CacheOk.lookup_fst (n : Nat) (k : Bytes) : (cacheLookup n cache k).1 = baseRoundKeys k := by
  rw [cacheLookup]
  split
  · rename_i v hv
    obtain ⟨e, he, rfl, rfl⟩ := mem_of_cacheFind hv
    exact ok.exact e he
  · rfl

/-- A lookup of an adjusted key keeps the cache exact (R177, R178). -/
theorem CacheOk.lookup_snd {rk : Bytes} (room : 1 ≤ p.cacheEntries) (hl : rk.length = 8) :
    CacheOk p (cacheLookup p.cacheEntries cache (adjustParity rk)).2 := by
  rw [cacheLookup]
  split
  · exact ok
  · rename_i hn
    exact ok.insert room ((length_adjustParity rk).trans hl) (parityOk_adjustParity rk) (not_mem_of_cacheFind_none hn)

end

/-! ### Runs of lookups -/

theorem CacheOk.afterBlock {p : Params} {cache : List CacheEntry} {rks : List Bytes} (ok : CacheOk p cache)
    (room : 1 ≤ p.cacheEntries) (hk : ∀ k ∈ rks, k.length = 8) :
    CacheOk p (cacheAfterBlock p.cacheEntries rks cache) := by
  induction rks generalizing cache with
  | nil => exact ok
  | cons rk rks ih =>
    obtain ⟨hrk, hrks⟩ := List.forall_mem_cons.1 hk
    exact ih (ok.lookup_snd room hrk) hrks

theorem CacheOk.afterBlocks {p : Params} {cache : List CacheEntry} {rks : List Bytes} (ok : CacheOk p cache)
    (room : 1 ≤ p.cacheEntries) (hk : ∀ k ∈ rks, k.length = 8) (n : Nat) :
    CacheOk p (cacheAfterBlocks p.cacheEntries rks n cache) := by
  induction n generalizing cache with
  | zero => exact ok
  | succ n ih => exact ih (ok.afterBlock room hk)

/-- The block operations of a command keep the cache exact; those of the base cipher look nothing up. -/
theorem CacheOk.touchCache {p : Params} {s : State} {v : Variant} {rks : List Bytes} (ok : CacheOk p s.cache)
    (room : 1 ≤ p.cacheEntries) (hk : ∀ k ∈ rks, k.length = roundKeyLength v) (n : Nat) :
    CacheOk p (s.touchCache p v rks n).cache := by
  rw [State.touchCache_cache]
  split
  · exact ok
  · rename_i hv
    have composite : roundKeyLength v = 8 := by
      cases v with
      | base => exact absurd rfl hv
      | _ => rfl
    exact ok.afterBlocks room (fun k hmem => (hk k (List.mem_of_mem_take hmem)).trans composite) n

/-- Settles O42: the lookup on a hit and on a miss, and what the adapter makes of its answer. -/
theorem cacheLookupEqualsExpansion : Obligations.CacheLookupEqualsExpansion := by
  intro p cache half rk legal ok hl
  obtain ⟨-, -, -, -, -, -, -, -, room⟩ := legal
  refine ⟨ok.lookup_fst _ _, ok.lookup_snd room hl, ?adapter, baseExpand_adjustParity hl⟩
  case adapter => rw [compRoundCached, ok.lookup_fst, compRound]

end Sys2Proof.Safety
end

section
/-! The invariant: one lemma per operation of the state, then the commands by how they end and the steps by what they
can do (`10_state.md` R23, R24, R30, R31, R35; `60_exceptions.md` R301, R320, R321). -/

namespace Sys2Proof.Safety

open Sys2Proof.Machine

/-! ### The parts of the invariant -/

section
variable {s t : State}

theorem KeyStoreOk.of_keeps (h : KeyStoreOk s) (k : KeepsKeyStore s t) : KeyStoreOk t := by
  refine ⟨fun hk => ?_, fun hk => ?_⟩
  · rw [k.rkEnc, k.kcipher]
    exact h.absent (k.keySet ▸ hk)
  · rw [k.rkEnc, k.kcipher]
    exact h.present (k.keySet ▸ hk)

theorem ReportOk.of_same (h : ReportOk s) (r : SameReport s t) : ReportOk t := by
  refine ⟨?_, ?_, ?_⟩
  · rw [r.done, r.err]
    exact h.notBoth
  · rw [r.err, r.errcode, r.errinfo]
    exact h.clean
  · rw [r.err, r.errcode]
    exact h.coded

/-- Every error has a code of the table (`60_exceptions.md` R301). -/
theorem code_mem_errorCodes (e : CoreError) : e.code ∈ errorCodes := by
  cases e <;> simp [CoreError.code, errorCodes]

theorem reportOk_raise (s : State) (d : Bool) (e : CoreError) : ReportOk (s.raise d e) :=
  ⟨nofun, nofun, fun _ => code_mem_errorCodes e⟩

theorem reportOk_complete (s : State) : ReportOk s.complete :=
  ⟨nofun, fun _ => ⟨rfl, rfl⟩, nofun⟩

section
variable {p : Params} (h : MemoryOk p s)
include h

/-- The same written bytes, and the same output or none. -/
theorem MemoryOk.of_mem (mem : t.mem = s.mem) (olen : t.olen = s.olen ∨ t.olen = 0) : MemoryOk p t := by
  have le : t.olen.toNat ≤ s.olen.toNat := by
    rcases olen with olen | olen
    · rw [olen]
    · rw [olen]
      exact Nat.zero_le _
  refine ⟨mem ▸ h.canonical, mem ▸ h.mapped, le.trans h.outputFits, fun k hk => ?_⟩
  rw [mem]
  exact h.outputWritten k (hk.trans_le le)

/-- Bytes written inside the map, with every byte of the new output written now or before. -/
theorem MemoryOk.of_writeBytes {a : Nat} {bs : Bytes} (mem : t.mem = Memory.writeBytes s.mem a bs)
    (mapped : ∀ k, a ≤ k → k < a + bs.length → Memory.mapped p k) (fits : t.olen.toNat ≤ p.bufBytes + 16)
    (written : ∀ k, k < t.olen.toNat → k < s.olen.toNat ∨ (a ≤ doutBase + k ∧ doutBase + k < a + bs.length)) :
    MemoryOk p t := by
  refine ⟨mem ▸ Memory.wf_writeBytes a bs h.canonical, fun c hc => ?_, fits, fun k hk => ?_⟩
  · rcases Memory.mem_writeBytes (mem ▸ hc) with inside | old
    · exact mapped c.1 inside.1 inside.2
    · exact h.mapped c old
  · rw [mem, Memory.find_writeBytes]
    split
    · rename_i inside
      rw [List.getElem?_eq_getElem (Nat.sub_lt_left_of_lt_add inside.1 inside.2)]
      rfl
    · rename_i outside
      exact h.outputWritten k ((written k hk).resolve_right outside)

end

end

/-! ### The operations of the state -/

section
variable {p : Params} {s : State} (h : Inv p s)
include h

/-- What leaves the key store, the report, the cache, the memories, `OLEN` and `CTRL` alone. -/
theorem Inv.of_keeps {t : State} (store : KeepsKeyStore s t) (report : SameReport s t) (cache : t.cache = s.cache)
    (mem : t.mem = s.mem) (olen : t.olen = s.olen) (ctrl : t.ctrl = s.ctrl) : Inv p t :=
  ⟨h.keyStore.of_keeps store, h.report.of_same report, cache ▸ h.cache, h.memory.of_mem mem (.inl olen),
    ctrl ▸ h.ctrl⟩

theorem Inv.answered (rest : List HostEvent) (r : Response) : Inv p (s.answered rest r) :=
  h.of_keeps ⟨rfl, rfl, rfl⟩ ⟨rfl, rfl, rfl, rfl⟩ rfl rfl rfl rfl

theorem Inv.drew (n : Nat) : Inv p (s.drew n) :=
  h.of_keeps ⟨rfl, rfl, rfl⟩ ⟨rfl, rfl, rfl, rfl⟩ rfl rfl rfl rfl

theorem Inv.withCache {c : List CacheEntry} (hc : CacheOk p c) : Inv p { s with cache := c } :=
  ⟨h.keyStore.of_keeps ⟨rfl, rfl, rfl⟩, h.report.of_same ⟨rfl, rfl, rfl, rfl⟩, hc, h.memory.of_mem rfl (.inl rfl),
    h.ctrl⟩

theorem Inv.raise (d : Bool) (e : CoreError) : Inv p (s.raise d e) := by
  have olen : (s.raise d e).olen = s.olen ∨ (s.raise d e).olen = 0 := by
    cases d with
    | false => exact .inl rfl
    | true => exact .inr rfl
  exact ⟨h.keyStore.of_keeps ⟨rfl, rfl, rfl⟩, reportOk_raise s d e, h.cache, h.memory.of_mem rfl olen, h.ctrl⟩

theorem Inv.complete : Inv p s.complete :=
  ⟨h.keyStore.of_keeps ⟨rfl, rfl, rfl⟩, reportOk_complete s, h.cache, h.memory.of_mem rfl (.inl rfl), h.ctrl⟩

theorem Inv.dropKey : Inv p s.dropKey :=
  ⟨⟨fun _ => ⟨rfl, rfl⟩, nofun⟩, h.report.of_same ⟨rfl, rfl, rfl, rfl⟩, h.cache, h.memory.of_mem rfl (.inl rfl), h.ctrl⟩

theorem Inv.installKey {v : Variant} {rk : List Bytes} (count : rk.length = roundCount v)
    (lengths : ∀ k ∈ rk, k.length = roundKeyLength v) : Inv p (s.installKey v rk) :=
  ⟨⟨nofun, fun _ => ⟨rk, rfl, count, lengths⟩⟩, h.report.of_same ⟨rfl, rfl, rfl, rfl⟩, h.cache,
    h.memory.of_mem rfl (.inl rfl), h.ctrl⟩

theorem Inv.clear : Inv p s.clear :=
  ⟨⟨fun _ => ⟨rfl, rfl⟩, nofun⟩, ⟨nofun, fun _ => ⟨rfl, rfl⟩, nofun⟩, ⟨Nat.zero_le _, nofun, nofun, .nil⟩,
    h.memory.of_mem rfl (.inr rfl), BitVec.zero_and⟩

/-- An output that fits `DOUT`. -/
theorem Inv.putOutput {out : Bytes} (fits : out.length ≤ p.bufBytes + 16) : Inv p (s.putOutput out) := by
  have olen : (s.putOutput out).olen.toNat ≤ out.length := by
    rw [State.putOutput_olen, BitVec.toNat_ofNat]
    exact Nat.mod_le _ _
  have memory : MemoryOk p (s.putOutput out) :=
    h.memory.of_writeBytes rfl (fun k _ _ => .inr (.inr (by omega))) (olen.trans fits) fun k hk => .inr (by omega)
  exact ⟨h.keyStore.of_keeps ⟨rfl, rfl, rfl⟩, h.report.of_same ⟨rfl, rfl, rfl, rfl⟩, h.cache, memory, h.ctrl⟩

/-- Bytes that the host writes inside the map. -/
theorem Inv.putBytes {a : Nat} {bs : Bytes} (mapped : ∀ k, a ≤ k → k < a + bs.length → Memory.mapped p k) :
    Inv p (s.putBytes a bs) :=
  ⟨h.keyStore.of_keeps ⟨rfl, rfl, rfl⟩, h.report.of_same ⟨rfl, rfl, rfl, rfl⟩, h.cache,
    h.memory.of_writeBytes rfl mapped h.memory.outputFits fun _ hk => .inl hk, h.ctrl⟩

end

/-! ### Reset -/

theorem inv_of_reset_fields (p : Params) (port : Port) (drawIndex resetCount : Nat) :
    Inv p { State.reset with port := port, drawIndex := drawIndex, resetCount := resetCount } :=
  ⟨⟨fun _ => ⟨rfl, rfl⟩, nofun⟩, ⟨nofun, fun _ => ⟨rfl, rfl⟩, nofun⟩, ⟨Nat.zero_le _, nofun, nofun, .nil⟩,
    ⟨.nil, nofun, Nat.zero_le _, nofun⟩, BitVec.zero_and⟩

/-- Settles O59: no key, no report, an empty cache and no written byte. -/
theorem invariantHoldsAtReset : Obligations.InvariantHoldsAtReset :=
  inv_of_reset_fields Config.params ⟨[], .none⟩ 0 0

/-! ### Host writes -/

/-- The bits `CTRL` stores are none of the reserved ones (`10_state.md` R22). -/
theorem ctrlMask_reserved (w : Word) : w &&& ctrlMask &&& ~~~0x00000F77#32 = 0 := by
  rw [BitVec.and_assoc, show ctrlMask &&& ~~~0x00000F77#32 = 0#32 by decide, BitVec.and_zero]
  rfl

theorem Inv.writeLocation {s : State} {a : Nat} {l : Location} (h : Inv Config.params s)
    (hl : locate Config.params a = some l) (w : Word) : Inv Config.params (writeLocation s l w) := by
  obtain ⟨tbl, din, -⟩ := locate_bounds hl
  have hm := map_numbers
  have hw := length_wordBytes w
  cases l with
  | ctrl =>
    exact ⟨h.keyStore.of_keeps ⟨rfl, rfl, rfl⟩, h.report.of_same ⟨rfl, rfl, rfl, rfl⟩, h.cache,
      h.memory.of_mem rfl (.inl rfl), ctrlMask_reserved w⟩
  | tbl j =>
    have hj := tbl j rfl
    exact h.putBytes fun k _ _ => .inl (by omega)
  | din j =>
    have hj := din j rfl
    exact h.putBytes fun k _ _ => .inr (.inl (by omega))
  | _ => exact h.of_keeps ⟨rfl, rfl, rfl⟩ ⟨rfl, rfl, rfl, rfl⟩ rfl rfl rfl rfl

/-! ### Commands and steps -/

/-- Whatever block operations a data command makes, they look up round keys of the installed variant. -/
theorem Inv.cacheAfter {s : State} {c : List CacheEntry} (h : Inv Config.params s) (hc : CacheAfter s c) :
    CacheOk Config.params c := by
  rcases hc with rfl | ⟨v, rks, r, n, installed, order, rfl⟩
  · exact h.cache
  · obtain ⟨keySet, rkEnc, rfl, -⟩ := State.installed_ok.1 installed
    obtain ⟨rks', rkEnc', -, lengths⟩ := h.keyStore.present keySet
    cases rkEnc.symm.trans rkEnc'
    refine h.cache.touchCache (by decide) (fun k hk => lengths k ?_) n
    rcases order with rfl | rfl
    · exact hk
    · exact List.mem_reverse.1 hk

/-- Every command keeps the invariant, by how it ends. -/
theorem Inv.exec {i : Instr} {s t : State} (h : Inv Config.params s) (ht : exec i s = .next t) :
    Inv Config.params t := by
  cases exec_ends ht with
  | clr _ ht => exact ht ▸ h.clear
  | nop _ ht => exact ht ▸ h.complete
  | keyRejected _ _ e ht => exact ht ▸ h.dropKey.raise false e
  | keyInstalled _ _ rk count lengths ht => exact ht ▸ (h.dropKey.installKey count lengths).complete
  | dataFailed _ e c hc ht => exact ht ▸ (h.withCache (h.cacheAfter hc)).raise true e
  | dataDone _ out fits c hc ht =>
    exact ht ▸ (((h.withCache (h.cacheAfter hc)).drew _).putOutput fits).complete

theorem Inv.runCommand {w : Word} {s t : State} (h : Inv Config.params s) (ht : runCommand w s = .next t) :
    Inv Config.params t := by
  rw [Machine.runCommand] at ht
  cases hd : decode w with
  | ok i =>
    rw [hd] at ht
    exact h.exec ht
  | error r =>
    rw [hd] at ht
    cases ht
    exact h.raise false _

/-- Settles O60: by what a step can do. -/
theorem everyStepKeepsTheInvariant : Obligations.EveryStepKeepsTheInvariant := by
  intro s t h ht
  rcases step_cases s with ⟨_, hs⟩ | ⟨rest, hs⟩ | ⟨rest, l, hs⟩ | ⟨rest, a, l, w, hl, hs⟩ | ⟨rest, hs⟩ | ⟨rest, w, hs⟩
  · cases hs.symm.trans ht
    exact h
  · cases hs.symm.trans ht
    exact h.answered rest _
  · cases hs.symm.trans ht
    exact h.answered rest _
  · cases hs.symm.trans ht
    exact (h.answered rest _).writeLocation hl w
  · cases hs.symm.trans ht
    exact inv_of_reset_fields _ _ _ _
  · exact (h.answered rest _).runCommand (hs.symm.trans ht)

end Sys2Proof.Safety
end

section
/-! The legal and the illegal command words (`30_encoding.md` R90 to R95). -/

namespace Sys2Proof

/-- Settles O1: both directions of `decode_eq_ok_iff`. -/
theorem encodeAndDecodeAgree : Obligations.EncodeAndDecodeAgree :=
  ⟨fun _ hwf => decode_encode hwf, fun _ _ h => wellFormed_and_encode_of_decode h⟩

/-- Settles O4: each of the fifteen words runs through the decoder. -/
theorem writtenOutWordsDecode : Obligations.WrittenOutWordsDecode := by
  unfold Obligations.WrittenOutWordsDecode
  decide

/-! ### The fields as numbers -/

theorem toNat_rsvField (w : Word) : (rsvField w).toNat = w.toNat / 2 ^ 24 := by
  have := w.isLt
  rw [rsvField, BitVec.extractLsb'_toNat, Nat.shiftRight_eq_div_pow]
  omega

theorem toNat_opcField (w : Word) : (opcField w).toNat = w.toNat % 256 := by
  rw [opcField, BitVec.extractLsb'_toNat]
  rfl

/-! ### Legal words -/

/-- A word is refused exactly when no command has it. -/
theorem decode_isError_iff (w : Word) : (∃ r, decode w = .error r) ↔ ¬∃ i, decode w = .ok i := by
  cases decode w with
  | error r => exact iff_of_true ⟨r, rfl⟩ nofun
  | ok i => exact iff_of_false nofun (not_not.2 ⟨i, rfl⟩)

/-- The words of the ten commands by their fields (R95). -/
theorem decode_isOk_iff (w : Word) : (∃ i, decode w = .ok i) ↔
    rsvField w = 0 ∧ ((opcField w ∈ [0x00, 0x02, 0x03, 0x04, 0x05, 0x0F] ∧ argField w = 0)
      ∨ opcField w ∈ [0x01, 0x08] ∨ (opcField w ∈ [0x06, 0x07] ∧ argField w ≠ 0)) := by
  constructor
  · rintro ⟨i, h⟩
    obtain ⟨hwf, he⟩ := decode_eq_ok_iff.1 h
    cases i <;>
      · obtain ⟨hr, ho, ha⟩ := commandWord_eq_iff.1 he
        refine ⟨hr, ?_⟩
        rw [ho, ha]
        simp_all [Instr.wellFormed]
  · rintro ⟨hr, h⟩
    have legal {i : Instr} {opc : BitVec 8} {arg : BitVec 16} (hwf : i.wellFormed = true)
        (he : encode i = commandWord opc arg) (ho : opcField w = opc) (ha : argField w = arg) :
        ∃ i, decode w = .ok i := ⟨i, decode_eq_ok_iff.2 ⟨hwf, he.trans (commandWord_eq_iff.2 ⟨hr, ho, ha⟩)⟩⟩
    simp only [List.mem_cons, List.not_mem_nil, or_false] at h
    rcases h with ⟨nop | encblk | decblk | encbuf | decbuf | clr, ha⟩ | (setkey | permute) | ⟨encchk | decchk, ha⟩
    · exact legal (i := .nop) rfl rfl nop ha
    · exact legal (i := .encblk) rfl rfl encblk ha
    · exact legal (i := .decblk) rfl rfl decblk ha
    · exact legal (i := .encbuf) rfl rfl encbuf ha
    · exact legal (i := .decbuf) rfl rfl decbuf ha
    · exact legal (i := .clr) rfl rfl clr ha
    · exact legal (i := .setkey _) rfl rfl setkey rfl
    · exact legal (i := .permute _) rfl rfl permute rfl
    · exact legal (i := .encchk _) (bne_iff_ne.2 ha) rfl encchk rfl
    · exact legal (i := .decchk _) (bne_iff_ne.2 ha) rfl decchk rfl

/-- Settles O2: a word is illegal when its fields are none of those of the ten commands. -/
theorem illegalWordsAreExactlyTheFourSteps : Obligations.IllegalWordsAreExactlyTheFourSteps := by
  intro w
  rw [decode_isError_iff, decode_isOk_iff]
  simp only [List.mem_cons, List.not_mem_nil, or_false, ← BitVec.toNat_inj, toNat_rsvField, toNat_opcField,
    toNat_argField, BitVec.ofNat_eq_ofNat, BitVec.toNat_ofNat, Nat.reduceMod, Nat.reducePow, ne_eq]
  generalize w.toNat / 2 ^ 24 = rsv
  generalize w.toNat % 256 = opc
  generalize w.toNat / 256 % 65536 = arg
  omega

end Sys2Proof
end

section
/-! A command word written to `CMD`, and how every command ends: the report, what it leaves unchanged and what it draws
(`60_exceptions.md` R300, R318, R320, R321; `10_state.md` R22 to R30; `45_mode_engine.md` R225). -/

namespace Sys2Proof.Machine

open Sys2Proof.Safety

/-! ### The step of a command word -/

theorem runCommand_ok {w : Word} {i : Instr} (h : decode w = .ok i) (s : State) : runCommand w s = exec i s := by
  rw [runCommand, h]

theorem runCommand_illegal {w : Word} {r : IllegalReason} (h : decode w = .error r) (s : State) :
    runCommand w s = .next (s.raiseIllegal w) := by
  rw [runCommand, h]

/-- Settles O5: a write to `CMD` decodes the word and runs it. -/
theorem stepRunsTheDecodedCommand : Obligations.StepRunsTheDecodedCommand := fun _ _ _ _ h hd =>
  (step_command h).trans (runCommand_ok hd _)

/-- Settles O6: the illegal word is raised as an error that is no data command's, so `OLEN` stays. -/
theorem illegalWordOnlyReports : Obligations.IllegalWordOnlyReports := fun _ _ _ _ h hd =>
  (step_command h).trans (runCommand_illegal hd _)

/-! ### The report -/

theorem ne_clr_of_isDataCommand {i : Instr} (h : isDataCommand i = true) : i ≠ .clr := by
  rintro rfl
  cases h

/-- `CLR` clears; every other command ends by one of the two command ends. -/
theorem exec_reports {i : Instr} {s t : State} (h : exec i s = .next t) :
    (i = .clr ∧ t = s.clear) ∨ (i ≠ .clr ∧ ((∃ u d e, t = State.raise u d e) ∨ ∃ u, t = State.complete u)) := by
  cases exec_ends h with
  | clr hi ht => exact .inl ⟨hi, ht⟩
  | nop hi ht => exact .inr ⟨hi ▸ nofun, .inr ⟨_, ht⟩⟩
  | keyRejected n hi e ht => exact .inr ⟨hi ▸ nofun, .inl ⟨_, _, _, ht⟩⟩
  | keyInstalled n hi rk _ _ ht => exact .inr ⟨hi ▸ nofun, .inr ⟨_, ht⟩⟩
  | dataFailed hi e c _ ht => exact .inr ⟨ne_clr_of_isDataCommand hi, .inl ⟨_, _, _, ht⟩⟩
  | dataDone hi out _ c _ ht => exact .inr ⟨ne_clr_of_isDataCommand hi, .inr ⟨_, ht⟩⟩

/-- Settles O14: `CLR` reports nothing, the two command ends exactly one of success and a code. -/
theorem everyCommandEndsWithOneReport : Obligations.EveryCommandEndsWithOneReport := by
  intro i s
  obtain ⟨t, ht⟩ := exec_next i s
  refine ⟨t, ht, ?_⟩
  rcases exec_reports ht with ⟨hi, rfl⟩ | ⟨hi, ⟨u, d, e, rfl⟩ | ⟨u, rfl⟩⟩
  · exact ⟨fun _ => ⟨rfl, rfl⟩, fun hne => absurd hi hne, fun _ => ⟨rfl, rfl⟩, nofun⟩
  · exact ⟨fun he => absurd he hi, fun _ => rfl, nofun, fun _ => code_mem_errorCodes e⟩
  · exact ⟨fun he => absurd he hi, fun _ => rfl, fun _ => ⟨rfl, rfl⟩, nofun⟩

/-- Settles O15: only a rejected key and a failed data command end with `ERR`. -/
theorem failedCommandsHaveNoPartialEffect : Obligations.FailedCommandsHaveNoPartialEffect := by
  intro i s t h herr
  cases exec_ends h with
  | clr _ ht | nop _ ht | keyInstalled _ _ _ _ _ ht | dataDone _ _ _ _ _ ht =>
    subst ht
    cases herr
  | keyRejected n hi e ht =>
    subst hi ht
    exact ⟨rfl, nofun, fun _ _ => ⟨s.cache, rfl⟩, nofun, nofun⟩
  | dataFailed hi e c _ ht =>
    subst ht
    refine ⟨rfl, fun _ => ⟨State.doutByte_of_olen_zero rfl, c, rfl⟩, ?_, ?_, ne_clr_of_isDataCommand hi⟩
    · rintro n rfl
      cases hi
    · rintro rfl
      cases hi

/-! ### What a command leaves unchanged -/

/-- Settles O16: of the ends of a command only those of `SETKEY` and `CLR` touch the key. -/
theorem onlySetkeyAndClrChangeTheKey : Obligations.OnlySetkeyAndClrChangeTheKey := by
  intro i s t noSetkey noClr h
  cases exec_ends h with
  | clr hi _ => exact absurd hi noClr
  | keyRejected n hi _ _ | keyInstalled n hi _ _ _ _ => exact absurd hi (noSetkey n)
  | nop _ ht | dataFailed _ _ _ _ ht | dataDone _ _ _ _ _ ht => exact ht ▸ ⟨rfl, rfl, rfl⟩

theorem exec_keepsHostRegisters {i : Instr} {s t : State} (hi : i ≠ .clr) (h : exec i s = .next t) :
    KeepsHostRegisters s t := by
  cases exec_ends h with
  | clr he _ => exact absurd he hi
  | nop _ ht | keyRejected _ _ _ ht | keyInstalled _ _ _ _ _ ht | dataFailed _ _ _ _ ht | dataDone _ _ _ _ _ ht =>
    exact ht ▸ ⟨rfl, rfl, rfl, rfl, rfl, rfl, rfl⟩

/-- A byte outside a command's output reads as before: only a data command that ends well writes the memories. -/
theorem exec_keepsByte {i : Instr} {s t : State} (h : exec i s = .next t) {k : Nat}
    (hk : ¬(doutBase ≤ k ∧ k < doutBase + t.olen.toNat)) : t.byteAt k = s.byteAt k := by
  cases exec_ends h with
  | clr _ ht | nop _ ht | keyRejected _ _ _ ht | keyInstalled _ _ _ _ _ ht | dataFailed _ _ _ _ ht =>
    exact State.byteAt_congr (ht ▸ rfl) (ht ▸ rfl) k
  | dataDone _ out fits c _ ht =>
    subst ht
    have olen : (BitVec.ofNat 32 out.length).toNat = out.length := Nat.mod_eq_of_lt (by omega)
    rw [State.complete_olen, State.putOutput_olen, olen] at hk
    rw [State.byteAt_complete, State.byteAt_putOutput, dif_neg hk]
    rfl

/-- Settles O17: no end but that of `CLR` writes a register the host loads, and the output begins at `DOUT`. -/
theorem commandsLeaveTheHostsRegisters : Obligations.CommandsLeaveTheHostsRegisters := by
  intro i s t h
  refine ⟨fun hi => exec_keepsHostRegisters hi h, fun a ha => exec_keepsByte h ?_⟩
  rw [doutBase]
  omega

/-- Settles O18: a data command is neither `SETKEY` nor `CLR`, and writes no byte outside its output. -/
theorem dataCommandWritesOnlyItsOutput : Obligations.DataCommandWritesOnlyItsOutput := by
  intro i s t hi h
  have noClr := ne_clr_of_isDataCommand hi
  have noSetkey : ∀ n, i ≠ .setkey n := by
    rintro n rfl
    cases hi
  exact ⟨exec_keepsHostRegisters noClr h, onlySetkeyAndClrChangeTheKey i s t noSetkey noClr h, exec_keepsPort h,
    fun k hk => exec_keepsByte h hk⟩

/-! ### Draws -/

/-- Settles O19: the draws of a data command that ends well are `drawsOf`, and no other end draws. -/
theorem onlyIsoPaddingDraws : Obligations.OnlyIsoPaddingDraws := by
  intro i s t h
  have draws : drawsOf i s = if (i = .encbuf ∨ ∃ n, i = .encchk n) ∧ padField s = padCode .iso10126
      then blockSize s.kcipher - s.dlen.toNat % blockSize s.kcipher - 1 else 0 := by
    simp only [drawsOf, ctrlPad_iff, padLength]
  cases exec_ends h with
  | clr hi ht | nop hi ht | keyRejected _ hi _ ht | keyInstalled _ hi _ _ _ ht =>
    subst hi ht
    rw [if_neg (by simp)]
    rfl
  | dataFailed _ e c _ ht =>
    subst ht
    rw [if_neg (by simp)]
    rfl
  | dataDone _ out _ c _ ht =>
    subst ht
    simpa using draws

end Sys2Proof.Machine
end

section
/-! Host writes (`20_memory.md` R62, R65): what a write changes, what is read back, and the bytes of a written word. -/

namespace Sys2Proof.Machine

open Sys2Proof.Safety

/-! ### Writes -/

/-- A mapped offset other than `CMD` writes its location (R65). -/
theorem writes_location {a : Nat} {l : Location} (hl : locate Config.params a = some l) (hne : l ≠ .cmd) (s : State)
    (w : Word) : Writes s a w fun rest => writeLocation (s.answered rest .ack) l w :=
  fun _ h => step_write hl hne h

/-! The multiples of 4 in the ranges of the map, by the index of their word. -/

theorem exists_tbl {a : Nat} (h4 : a % 4 = 0) (h : 0x00400 ≤ a ∧ a ≤ 0x007FC) :
    ∃ j, a = tblBase + 4 * j ∧ locate Config.params a = some (.tbl j) := by
  obtain ⟨j, rfl⟩ : ∃ j, a = tblBase + 4 * j := ⟨(a - tblBase) / 4, by rw [tblBase]; omega⟩
  exact ⟨j, rfl, locate_tbl j (by rw [tblBase] at h; omega)⟩

theorem exists_din {a : Nat} (h4 : a % 4 = 0) (h : 0x10000 ≤ a ∧ a ≤ 0x10FFC) :
    ∃ j, a = dinBase + 4 * j ∧ locate Config.params a = some (.din j) := by
  obtain ⟨j, rfl⟩ : ∃ j, a = dinBase + 4 * j := ⟨(a - dinBase) / 4, by rw [dinBase]; omega⟩
  exact ⟨j, rfl, locate_din j (by rw [dinBase] at h; omega)⟩

theorem exists_dout {a : Nat} (h4 : a % 4 = 0) (h : 0x20000 ≤ a ∧ a ≤ 0x2100C) :
    ∃ j, locate Config.params a = some (.dout j) := by
  obtain ⟨j, rfl⟩ : ∃ j, a = doutBase + 4 * j := ⟨(a - doutBase) / 4, by rw [doutBase]; omega⟩
  exact ⟨j, locate_dout j (by rw [doutBase] at h; omega)⟩

/-- The words of `IV` and `DELTA`. -/
theorem exists_block {a : Nat} (h4 : a % 4 = 0) (h : 0x00060 ≤ a ∧ a ≤ 0x0007C) :
    ∃ j, locate Config.params a = some (.iv j) ∨ locate Config.params a = some (.delta j) := by
  by_cases hd : a < 0x00070
  · obtain ⟨j, rfl⟩ : ∃ j : Fin 4, a = 0x00060 + 4 * j := ⟨⟨(a - 0x00060) / 4, by omega⟩, by simp only; omega⟩
    exact ⟨j, .inl (locate_iv j)⟩
  · obtain ⟨j, rfl⟩ : ∃ j : Fin 4, a = 0x00070 + 4 * j := ⟨⟨(a - 0x00070) / 4, by omega⟩, by simp only; omega⟩
    exact ⟨j, .inr (locate_delta j)⟩

/-! ### The words and bytes of the registers -/

theorem Reg4.get_set (r : Reg4) (j k : Fin 4) (w : Word) : (r.set j w).get k = if k = j then w else r.get k := by
  fin_cases j <;> fin_cases k <;> rfl

theorem Reg8.get_set (r : Reg8) (j k : Fin 8) (w : Word) : (r.set j w).get k = if k = j then w else r.get k := by
  fin_cases j <;> fin_cases k <;> rfl

/-- Byte `i` of a word, as a number (R62). -/
theorem toNat_getD_wordBytes (w : Word) {i : Nat} (hi : i < 4) :
    ((wordBytes w).getD i 0).toNat = w.toNat / 2 ^ (24 - 8 * i) % 256 := by
  interval_cases i <;> exact toNat_extract w _ 8

theorem finOfNat_eq_iff {n m : Nat} [NeZero n] (hm : m < n) (j : Fin n) : Fin.ofNat n m = j ↔ m = j := by
  rw [Fin.ext_iff, Fin.val_ofNat, Nat.mod_eq_of_lt hm]

/-- The bytes of `n` words, packed big-endian (R62). -/
def bytesOfWords (n : Nat) [NeZero n] (word : Fin n → Word) : Bytes :=
  (List.range n).flatMap fun j => wordBytes (word (Fin.ofNat n j))

theorem Reg4.bytes_eq_bytesOfWords (r : Reg4) : r.bytes = bytesOfWords 4 r.get := rfl

theorem Reg8.bytes_eq_bytesOfWords (r : Reg8) : r.bytes = bytesOfWords 8 r.get := rfl

/-- Byte `i` is byte `i mod 4` of word `i div 4`. -/
theorem getD_bytesOfWords {n : Nat} [NeZero n] (word : Fin n → Word) {i : Nat} (hi : i < 4 * n) :
    (bytesOfWords n word).getD i 0 = (wordBytes (word (Fin.ofNat n (i / 4)))).getD (i % 4) 0 :=
  getD_flatMap_range _ 0 (fun _ => length_wordBytes _) n hi

/-- The bytes after word `j` has been replaced by `w`. -/
theorem toNat_getD_bytesOfWords_set {n : Nat} [NeZero n] {word word' : Fin n → Word} {j : Fin n} {w : Word}
    (set : ∀ k, word' k = if k = j then w else word k) {i : Nat} (hi : i < 4 * n) :
    ((bytesOfWords n word').getD i 0).toNat
      = if i / 4 = j then w.toNat / 2 ^ (24 - 8 * (i % 4)) % 256 else ((bytesOfWords n word).getD i 0).toNat := by
  rw [getD_bytesOfWords _ hi, set]
  simp only [finOfNat_eq_iff (show i / 4 < n by omega)]
  split
  · exact toNat_getD_wordBytes w (Nat.mod_lt _ (by decide))
  · rw [getD_bytesOfWords _ hi]

/-- Settles O12: a write stores one word of the register, and every byte of it lies in one word. -/
theorem byteRegistersPackBigEndian : Obligations.ByteRegistersPackBigEndian := by
  intro s w
  refine ⟨fun j => ⟨s.key.set j w, writes_location (locate_key j) nofun s w, rfl, fun i hi => ?_⟩,
    fun j => ⟨s.iv.set j w, writes_location (locate_iv j) nofun s w, rfl, fun i hi => ?_⟩,
    fun j => ⟨s.delta.set j w, writes_location (locate_delta j) nofun s w, rfl, fun i hi => ?_⟩⟩
  · exact toNat_getD_bytesOfWords_set (fun k => s.key.get_set j k w) hi
  · exact toNat_getD_bytesOfWords_set (fun k => s.iv.get_set j k w) hi
  · exact toNat_getD_bytesOfWords_set (fun k => s.delta.get_set j k w) hi

/-! ### What a write changes -/

/-- The word of a memory that a write stores, byte by byte (R62). -/
theorem State.putBytes_wordBytes_frame (s : State) (a : Nat) (w : Word) :
    KeepsMemoryOutside s (s.putBytes a (wordBytes w)) a 4
      ∧ ∀ i, i < 4 → (s.putBytes a (wordBytes w)).byteAt (a + i) = BitVec.ofNat 8 (w.toNat / 2 ^ (24 - 8 * i)) := by
  refine ⟨fun k hk => (s.byteAt_putBytes a k _).trans (dif_neg hk), fun i hi => ?_⟩
  have byte := toNat_getD_wordBytes w hi
  rw [List.getD_eq_getElem _ _ hi] at byte
  rw [State.byteAt_putBytes, dif_pos ⟨by omega, Nat.add_lt_add_left hi a⟩]
  refine BitVec.eq_of_toNat_eq ?_
  simp only [Nat.add_sub_cancel_left, BitVec.toNat_ofNat]
  exact byte

/-- Settles O11: location by location. -/
theorem hostWriteChangesOnlyItsWord : Obligations.HostWriteChangesOnlyItsWord := by
  intro s w
  refine ⟨fun a ha => ?_, writes_location (l := .ctrl) rfl nofun s w, writes_location (l := .dlen) rfl nofun s w,
    writes_location (l := .ivlen) rfl nofun s w, writes_location (l := .deltalen) rfl nofun s w, fun a h4 ha => ?_⟩
  · rcases ha with rfl | rfl | rfl | rfl | rfl | ⟨h4, h⟩
    · exact writes_location (l := .id) rfl nofun s w
    · exact writes_location (l := .status) rfl nofun s w
    · exact writes_location (l := .errcode) rfl nofun s w
    · exact writes_location (l := .errinfo) rfl nofun s w
    · exact writes_location (l := .olen) rfl nofun s w
    · obtain ⟨j, hl⟩ := exists_dout h4 h
      exact writes_location hl nofun s w
  · rcases ha with h | h
    · obtain ⟨j, rfl, hl⟩ := exists_tbl h4 h
      exact ⟨Memory.writeBytes s.mem _ (wordBytes w), writes_location hl nofun s w, s.putBytes_wordBytes_frame _ w⟩
    · obtain ⟨j, rfl, hl⟩ := exists_din h4 h
      exact ⟨Memory.writeBytes s.mem _ (wordBytes w), writes_location hl nofun s w, s.putBytes_wordBytes_frame _ w⟩

/-! ### Reading back -/

/-- A write and a read of one location, in two steps. -/
theorem step_write_read {s : State} {a : Nat} {l : Location} {w v : Word} {rest : List HostEvent}
    (hl : locate Config.params a = some l) (hne : l ≠ .cmd)
    (h : s.port.pending = .write 32 a w :: .read 32 a :: rest)
    (hv : ∀ u : State, readLocation (writeLocation u l w) l = v) :
    ∃ t, step s = .next t ∧ step t = .next { t with port := ⟨rest, .data v⟩ } := by
  refine ⟨_, step_write hl hne h, ?_⟩
  rw [step_read hl (congrArg Port.pending (writeLocation_port _ l w)), hv]
  rfl

theorem read_write_ctrl (s : State) (w : Word) : readLocation (writeLocation s .ctrl w) .ctrl = w &&& 0x00000F77 := by
  simp only [readLocation, writeLocation, BitVec.and_assoc, BitVec.and_self]
  rfl

/-- The five bits of `IVLEN` and `DELTALEN` (`10_state.md` R27). -/
theorem setWidth_setWidth_five (w : Word) : (w.setWidth 5).setWidth 32 = w &&& 0x0000001F := by
  refine BitVec.eq_of_toNat_eq ?_
  have mask : (0x0000001F : Word).toNat = 2 ^ 5 - 1 := rfl
  rw [BitVec.toNat_setWidth, BitVec.toNat_setWidth, BitVec.toNat_and, mask, Nat.and_two_pow_sub_one_eq_mod]
  omega

/-- Settles O10: each location reads back the bits it stores. -/
theorem writeThenReadReturnsStoredBits : Obligations.WriteThenReadReturnsStoredBits := by
  intro s a w rest h v hv
  rcases hv with ⟨rfl, rfl⟩ | ⟨rfl, rfl⟩ | ⟨rfl | rfl, rfl⟩ | ⟨h4, rfl, block | tbl | din⟩
  · exact step_write_read (l := .ctrl) rfl nofun h fun u => read_write_ctrl u w
  · exact step_write_read (l := .dlen) rfl nofun h fun _ => rfl
  · exact step_write_read (l := .ivlen) rfl nofun h fun _ => setWidth_setWidth_five w
  · exact step_write_read (l := .deltalen) rfl nofun h fun _ => setWidth_setWidth_five w
  · obtain ⟨j, hl | hl⟩ := exists_block h4 block
    · exact step_write_read hl nofun h fun u => (u.iv.get_set j j v).trans (if_pos rfl)
    · exact step_write_read hl nofun h fun u => (u.delta.get_set j j v).trans (if_pos rfl)
  · obtain ⟨j, -, hl⟩ := exists_tbl h4 tbl
    exact step_write_read hl nofun h fun u => u.wordAt_putBytes_wordBytes _ v
  · obtain ⟨j, -, hl⟩ := exists_din h4 din
    exact step_write_read hl nofun h fun u => u.wordAt_putBytes_wordBytes _ v

end Sys2Proof.Machine
end

section
/-! The laws of the primitive `Permute` (`40_bit_permutation.md` R123) and the fixed tables
(`41_base_cipher_round_and_schedule.md` R141 to R149). -/

namespace Sys2Proof.Machine

theorem permute_xorBytes {a b : Bytes} (hl : a.length = b.length) (T : List Nat) (o : BitOrder) (base : Nat) :
    permute (xorBytes a b) T o base = xorBytes (permute a T o base) (permute b T o base) := by
  refine bytes_ext o _ _ (by simp) fun k hk => ?_
  rw [length_permute] at hk
  rw [bitOf_xorBytes _ _ _ (by simp), bitOf_permute _ _ _ _ _ hk, bitOf_permute _ _ _ _ _ hk,
    bitOf_permute _ _ _ _ _ hk, bitOf_xorBytes _ _ _ hl]

/-- Bit `i` of the result comes from the place that `U` names, where `T` has put bit `i`. -/
theorem permute_permute {x : Bytes} {T U : List Nat} {n : Nat} (o : BitOrder) (hx : x.length = n)
    (hT : T.length = 8 * n) (hU : U.length = 8 * n)
    (inverse : ∀ i, i < 8 * n → 1 ≤ U.getD i 0 ∧ U.getD i 0 ≤ 8 * n ∧ T.getD (U.getD i 0 - 1) 0 = i + 1) :
    permute (permute x T o 1) U o 1 = x := by
  have hl : (permute (permute x T o 1) U o 1).length = x.length := by
    rw [length_permute]
    omega
  refine bytes_ext o _ _ hl fun k hk => ?_
  rw [hl, hx] at hk
  obtain ⟨low, high, back⟩ := inverse k hk
  rw [bitOf_permute _ _ _ _ _ (by omega), bitOf_permute _ _ _ _ _ (by omega), back, Nat.add_sub_cancel]

/-- Settles O35: bit by bit. -/
theorem permuteLaws : Obligations.PermuteLaws :=
  ⟨fun _ _ T o base hl => permute_xorBytes hl T o base, fun _ _ _ o hT hU back => permute_permute o rfl hT hU back⟩

/-- Settles O36: the tables are closed data. -/
theorem fixedTablesAsSpecified : Obligations.FixedTablesAsSpecified := by
  unfold Obligations.FixedTablesAsSpecified
  decide

end Sys2Proof.Machine
end

section
/-! Decryption undoes encryption: the Feistel engine under reversed round keys (`43_feistel_engine.md` R193) and the
block functions made of it (`44_block_ciphers.md` R203, R204, R208, R209). -/

namespace Sys2Proof.Machine

/-! ### The engine -/

/-- The halves of a block of two. -/
theorem slice_append_halves {L R : Bytes} {h : Nat} (hL : L.length = h) (hR : R.length = h) :
    slice (L ++ R) 0 h = L ∧ slice (L ++ R) h (2 * h) = R := by
  subst hL
  refine ⟨List.take_left' rfl, ?_⟩
  rw [slice, List.drop_left' rfl]
  exact List.take_of_length_le (by omega)

section
variable {F : Bytes → Bytes → Bytes} {h : Nat} (keeps : ∀ r k, r.length = h → (F r k).length = h)
include keeps

/-- The rounds with the keys reversed, from the halves exchanged, lead back to the halves exchanged: the last of them
undoes the first round. -/
theorem feistelRounds_reverse (rks : List Bytes) {L R : Bytes} (hL : L.length = h) (hR : R.length = h) :
    feistelRounds F rks.reverse (feistelRounds F rks L R).2 (feistelRounds F rks L R).1 = (R, L) := by
  induction rks generalizing L R with
  | nil => rfl
  | cons rk rks ih =>
    have hF : (F R rk).length = h := keeps R rk hR
    have next : (xorBytes (F R rk) L).length = h := by rw [length_xorBytes, hF, hL, Nat.min_self]
    rw [List.reverse_cons, feistelRounds_append_singleton, feistelRounds, ih hR next]
    exact congrArg (R, ·) (xorBytes_cancel_left L (F R rk) (by omega))

theorem feistel_reverse {rks : List Bytes} {N : Nat} {b : Bytes} (hN : rks.length = N) (hb : b.length = 2 * h) :
    feistel (feistel b rks N (2 * h) F) rks.reverse N (2 * h) F = b := by
  have half : 2 * h / 2 = h := Nat.mul_div_cancel_left h (by decide)
  have hL : (slice b 0 h).length = h := by rw [length_slice]; omega
  have hR : (slice b h (2 * h)).length = h := by rw [length_slice]; omega
  obtain ⟨hL', hR'⟩ := length_feistelRounds F h keeps rks _ _ hL hR
  obtain ⟨left, right⟩ := slice_append_halves hR' hL'
  simp only [feistel, half, List.take_of_length_le hN.le, List.take_of_length_le (rks.length_reverse.trans hN).le, left,
    right, feistelRounds_reverse keeps rks hL hR]
  rw [slice_append_slice b 0 h (2 * h) (Nat.zero_le h) (by omega), slice_zero_length b _ hb.le]

end

/-- Settles O45: the rounds of the second run undo those of the first, the last one first. -/
theorem feistelWithReversedKeysInverts : Obligations.FeistelWithReversedKeysInverts := fun _ _ _ _ _ keeps hN hb =>
  feistel_reverse keeps hN hb

/-! ### The block functions -/

/-- `IP` and `FP` undo each other (R142). -/
theorem permuteFixed_ip_fp {b : Bytes} (hb : b.length = 8) :
    permuteFixed (permuteFixed b tables.ip) tables.fp = b ∧ permuteFixed (permuteFixed b tables.fp) tables.ip = b := by
  have fpInverse : ∀ i, i < 8 * 8 → 1 ≤ tables.fp.getD i 0 ∧ tables.fp.getD i 0 ≤ 8 * 8
      ∧ tables.ip.getD (tables.fp.getD i 0 - 1) 0 = i + 1 := by decide
  have ipInverse : ∀ i, i < 8 * 8 → 1 ≤ tables.ip.getD i 0 ∧ tables.ip.getD i 0 ≤ 8 * 8
      ∧ tables.fp.getD (tables.ip.getD i 0 - 1) 0 = i + 1 := by decide
  exact ⟨permute_permute .msbFirst hb rfl rfl fpInverse, permute_permute .msbFirst hb rfl rfl ipInverse⟩

theorem baseBlock_reverse {rks : List Bytes} {b : Bytes} (hN : rks.length = 16) (hb : b.length = 8) :
    baseBlock rks.reverse (baseBlock rks b) = b := by
  have keeps : ∀ r k : Bytes, r.length = 4 → (baseRound r k).length = 4 := fun r k _ => length_baseRound r k
  have hin : (permuteFixed b tables.ip).length = 2 * 4 := length_permuteFixed b tables.ip
  have hout := length_feistel baseRound 4 keeps rks 16 _ hin
  rw [baseBlock, baseBlock, (permuteFixed_ip_fp hout).2, feistel_reverse keeps hN hin, (permuteFixed_ip_fp hb).1]

theorem compEnc_reverse {rks : List Bytes} {N : Nat} {b : Bytes} (hN : rks.length = N) (hb : b.length = 16) :
    compEnc rks.reverse N (compEnc rks N b) = b :=
  feistel_reverse (h := 8) (fun r k _ => length_compRound r k) hN hb

/-- `D` is `E` under the reversed round keys (R203, R204). -/
theorem decBlock_eq_encBlock_reverse (v : Variant) (rks : List Bytes) (b : Bytes) :
    decBlock v rks b = encBlock v rks.reverse b := by
  cases v <;> rfl

theorem encBlock_reverse {v : Variant} {rks : List Bytes} {b : Bytes} (hN : rks.length = roundCount v)
    (hb : b.length = blockSize v) : encBlock v rks.reverse (encBlock v rks b) = b := by
  cases v with
  | base => exact baseBlock_reverse hN hb
  | comp2 => exact compEnc_reverse hN hb
  | comp3 => exact compEnc_reverse hN hb
  | comp4 => exact compEnc_reverse hN hb

/-- Settles O46: both `E` and `D` are undone by the engine under the reversed round keys. -/
theorem blockDecryptionInvertsEncryption : Obligations.BlockDecryptionInvertsEncryption := by
  intro v rks b hN hb
  have back := encBlock_reverse (rks.length_reverse.trans hN) hb
  rw [List.reverse_reverse] at back
  rw [decBlock_eq_encBlock_reverse, decBlock_eq_encBlock_reverse]
  exact ⟨encBlock_reverse hN hb, back⟩

/-- Settles O39: the encryption by evaluation, the decryption because it undoes it. -/
theorem baseCipherKnownAnswer : Obligations.BaseCipherKnownAnswer := by
  have encrypts : encBlock .base (baseRoundKeys [0x13, 0x34, 0x57, 0x79, 0x9B, 0xBC, 0xDF, 0xF1])
      [0x01, 0x23, 0x45, 0x67, 0x89, 0xAB, 0xCD, 0xEF] = [0x85, 0xE8, 0x13, 0x54, 0x0F, 0x0A, 0xB4, 0x05] := by
    decide +kernel
  refine ⟨encrypts, ?_⟩
  rw [← encrypts]
  exact (blockDecryptionInvertsEncryption .base _ _ (length_baseRoundKeys _) rfl).1

end Sys2Proof.Machine
end

section
/-! What the composite round keys say of the master key (`42_composite_schedule_and_adapter.md` R172, R175). -/

namespace Sys2Proof.Machine

/-! ### The master key from the round keys -/

theorem schedEnc_injective {c : Byte} {x y : Bytes} (hx : x.length = 8) (hy : y.length = 8)
    (h : schedEnc c x = schedEnc c y) : x = y := by
  have undo {z : Bytes} (hz : z.length = 8) : baseBlock (schedRk c).reverse (schedEnc c z) = z :=
    baseBlock_reverse (length_baseRoundKeys _) hz
  rw [← undo hx, h, undo hy]

theorem length_getD_compRoundKeys (c : Byte) (key : Bytes) (S : Nat) {R i : Nat} (hi : i < R) :
    ((compRoundKeys c key S R).getD i []).length = 8 := by
  have hi' : i < (compRoundKeys c key S R).length := hi.trans_eq (length_compSchedule ..).symm
  rw [List.getD_eq_getElem _ _ hi']
  exact length_of_mem_compSchedule _ _ _ _ _ _ (List.getElem_mem hi')

theorem xorBytes_right_cancel {s t u : Bytes} (hs : s.length = u.length) (ht : t.length = u.length)
    (h : xorBytes s u = xorBytes t u) : s = t := by
  rw [← xorBytes_self_cancel s u hs.le, h, xorBytes_self_cancel t u ht.le]

theorem length_keyPart {key : Bytes} {j : Nat} (h : 8 * j + 8 ≤ key.length) : (keyPart key j).length = 8 := by
  rw [keyPart, length_slice]
  omega

/-- Equal round keys come from equal parts: each part is encrypted, alone or under the round key before (R172). -/
theorem keyPart_eq_of_compRoundKeys_eq {c : Byte} {key key' : Bytes} {S R i : Nat} (hS : S ≤ R)
    (hl : key.length = 8 * S) (hl' : key'.length = 8 * S) (h : compRoundKeys c key S R = compRoundKeys c key' S R)
    (hi : i < S) : keyPart key i = keyPart key' i := by
  have part : (keyPart key i).length = 8 := length_keyPart (by omega)
  have part' : (keyPart key' i).length = 8 := length_keyPart (by omega)
  rcases Nat.eq_zero_or_pos i with rfl | h0
  · have keys := getD_compRoundKeys_zero c key S (show 0 < R by omega)
    rw [h, getD_compRoundKeys_zero c key' S (by omega)] at keys
    exact schedEnc_injective part part' keys.symm
  · have keys := getD_compRoundKeys_pos c key S h0 (show i < R by omega)
    have prev := length_getD_compRoundKeys c key' S (show i - 1 < R by omega)
    rw [h, getD_compRoundKeys_pos c key' S h0 (by omega), compInput_part h0 hi, compInput_part h0 hi] at keys
    exact xorBytes_right_cancel (part.trans prev.symm) (part'.trans prev.symm)
      (schedEnc_injective (by rw [length_xorBytes, part, prev]; rfl) (by rw [length_xorBytes, part', prev]; rfl)
        keys.symm)

/-- A key of `S` parts is determined by them. -/
theorem eq_of_keyParts_eq {key key' : Bytes} {S : Nat} (hl : key.length = 8 * S) (hl' : key'.length = 8 * S)
    (h : ∀ i, i < S → keyPart key i = keyPart key' i) : key = key' := by
  have blocks : blocksOf 8 key = blocksOf 8 key' := by
    rw [blocksOf, blocksOf, hl, hl', Nat.mul_div_cancel_left S (by decide)]
    refine List.map_congr_left fun i hi => ?_
    rw [Nat.succ_mul, Nat.mul_comm]
    exact h i (List.mem_range.1 hi)
  rw [← flatten_blocksOf 8 key (by omega), blocks, flatten_blocksOf 8 key' (by omega)]

/-! ### The first two round keys -/

/-- In every composite variant they are made of the first two parts (R172). -/
theorem take_two_compRoundKeys (c : Byte) (key : Bytes) {v : Variant} (hv : v ≠ .base) :
    (compRoundKeys c key (keyParts v) (roundCount v)).take 2
      = [schedEnc c (slice key 0 8), schedEnc c (xorBytes (slice key 8 16) (schedEnc c (slice key 0 8)))] := by
  cases v with
  | base => exact absurd rfl hv
  | comp2 => rfl
  | comp3 => rfl
  | comp4 => rfl

theorem slice_take (s : Bytes) {a b n : Nat} (h : b ≤ n) : slice (s.take n) a b = slice s a b := by
  rw [slice, List.drop_take, List.take_take, Nat.min_eq_left (by omega), slice]

/-- Settles O41: the schedule's encryption is injective, and the first two round keys read the first 16 bytes only. -/
theorem compositeRoundKeysDetermineTheMasterKey : Obligations.CompositeRoundKeysDetermineTheMasterKey := by
  refine ⟨fun c key key' S R hSR hl hl' hne h => hne (eq_of_keyParts_eq hl hl' fun i hi => ?_),
    fun c key key' v v' hv hv' h => ?_⟩
  · exact keyPart_eq_of_compRoundKeys_eq (by omega) hl hl' h hi
  · have slices {b : Nat} (a : Nat) (hb : b ≤ 16) : slice key a b = slice key' a b := by
      rw [← slice_take key hb, h, slice_take key' hb]
    rw [take_two_compRoundKeys c key hv, take_two_compRoundKeys c key' hv', slices 0 (by decide), slices 8 (by decide)]

end Sys2Proof.Machine
end

section
/-! The counter blocks and the round trip of the modes (`45_mode_engine.md` R230, R238). -/

namespace Sys2Proof.Machine

/-! ### Counter blocks -/

/-- `Int(BE(v, n)) = v` for a number of `n` bytes: the same bits (`00_scope.md` R13). -/
theorem intOf_beBytes {v n : Nat} (hv : v < 2 ^ (8 * n)) : intOf (beBytes v n) = v := by
  have lt := intOf_lt (beBytes v n)
  rw [length_beBytes] at lt
  refine Nat.eq_of_testBit_eq fun i => ?_
  by_cases hi : i < 8 * n
  · have bit := testBit_intOf (beBytes v n) (k := 8 * n - 1 - i) (by rw [length_beBytes]; omega)
    rw [length_beBytes, bitOf_beBytes _ (by omega), show 8 * n - 1 - (8 * n - 1 - i) = i by omega] at bit
    exact bit
  · have high : 2 ^ (8 * n) ≤ 2 ^ i := Nat.pow_le_pow_right (by decide) (Nat.le_of_not_lt hi)
    rw [Nat.testBit_lt_two_pow (lt.trans_le high), Nat.testBit_lt_two_pow (hv.trans_le high)]

/-- Settles O50: the wrapped sum fits the block. -/
theorem counterBlockIsTheWrappedSum : Obligations.CounterBlockIsTheWrappedSum := fun bs iv i =>
  ⟨length_ctrBlock bs iv i, intOf_beBytes (Nat.mod_lt _ (Nat.two_pow_pos _))⟩

/-! ### The round trip -/

section
variable {E D : Bytes → Bytes} {bs : Nat} (hE : ∀ b, b.length = bs → (E b).length = bs)
  (hDE : ∀ b, b.length = bs → D (E b) = b) {m : Mode} {iv del : Bytes}
include hE hDE

/-- From the same feedback a decrypting step gives back the block and goes on with the same feedback (R231 to R237). -/
theorem decStep_encStep (i : Nat) {F X : Bytes} (hF : F.length = bs) (hX : X.length = bs) :
    decStep E D bs m iv del i F (encStep E bs m iv del i F X).1 = (X, (encStep E bs m iv del i F X).2) := by
  have hDX : D (E X) = X := hDE X hX
  have hDXF : xorBytes (D (E (xorBytes X F))) F = X := by
    rw [hDE _ (by rw [length_xorBytes, hX, hF, Nat.min_self]), xorBytes_self_cancel X F (by omega)]
  have hEF : (E F).length = bs := hE F hF
  have hctr : (E (ctrBlock bs iv i)).length = bs := hE _ (length_ctrBlock bs iv i)
  cases m with
  | ecb => simp only [decStep, encStep, hDX]
  | cbc => simp only [decStep, encStep, hDXF]
  | pcbc => simp only [decStep, encStep, hDXF]
  | randomDelta => simp only [decStep, encStep, hDXF]
  | cfb => simp only [decStep, encStep, xorBytes_cancel_left X (E F) (by omega)]
  | ofb => simp only [decStep, encStep, xorBytes_self_cancel X (E F) (by omega)]
  | ctr => simp only [decStep, encStep, xorBytes_cancel_left X (E (ctrBlock bs iv i)) (by omega)]

theorem runBlocks_decStep_encStep (hdel : del.length = bs) (i : Nat) {F : Bytes} (hF : F.length = bs)
    {xs : List Bytes} (hxs : ∀ X ∈ xs, X.length = bs) :
    runBlocks (decStep E D bs m iv del) i F (runBlocks (encStep E bs m iv del) i F xs) = xs := by
  induction xs generalizing i F with
  | nil => rfl
  | cons X xs ih =>
    obtain ⟨hX, hxs⟩ := List.forall_mem_cons.1 hxs
    have next := (length_encStep hE m (iv := iv) hdel i F X hF hX).2
    simp only [runBlocks, decStep_encStep hE hDE i hF hX, ih (i + 1) next hxs]

/-- `ModeDec` undoes `ModeEnc` on whole blocks (R238). -/
theorem modeDec_modeEnc (pos : 0 < bs) (hiv : iv.length = bs) (hdel : del.length = bs) {x : Bytes}
    (hx : x.length % bs = 0) : modeDec E D bs m iv del (modeEnc E bs m iv del x) = x := by
  have blocks : ∀ X ∈ blocksOf bs x, X.length = bs := fun X hX => length_of_mem_blocksOf hX
  rw [modeDec, modeEnc, blocksOf_flatten bs pos _ fun Y hY =>
      length_of_mem_runBlocks (length_encStep hE m hdel) hiv blocks hY,
    runBlocks_decStep_encStep hE hDE hdel 0 hiv blocks, flatten_blocksOf bs x hx]

end

theorem modeDec_modeEnc_of_cipher {v : Variant} {rks : List Bytes} (hN : rks.length = roundCount v) {m : Mode}
    {iv del x : Bytes} (hiv : iv.length = blockSize v) (hdel : del.length = blockSize v)
    (hx : x.length % blockSize v = 0) :
    modeDec (encBlock v rks) (decBlock v rks) (blockSize v) m iv del
      (modeEnc (encBlock v rks) (blockSize v) m iv del x) = x :=
  modeDec_modeEnc (length_encBlock v rks) (fun b hb => (blockDecryptionInvertsEncryption v rks b hN hb).1)
    (blockSize_pos v) hiv hdel hx

/-- Settles O49: block by block, because `D` undoes `E`. -/
theorem modeDecryptionInvertsEncryption : Obligations.ModeDecryptionInvertsEncryption :=
  fun _ _ _ _ _ _ hN hiv hdel hx => modeDec_modeEnc_of_cipher hN hiv hdel hx

end Sys2Proof.Machine
end

section
/-! Removing padding undoes it (`45_mode_engine.md` R221 to R228). -/

namespace Sys2Proof.Machine

section
variable (draw : Nat → Byte) (bs : Nat) (d : Bytes)

/-- `ZEROS` appends zero bytes, none to whole blocks (R222). -/
theorem exists_pad_zeros : ∃ k, pad draw bs .zeros d = d ++ zeroBytes k := by
  by_cases h : d.length % bs = 0
  · exact ⟨0, (if_pos h).trans (List.append_nil d).symm⟩
  · exact ⟨_, if_neg h⟩

/-- Padding only appends. -/
theorem exists_pad_append (scheme : Padding) : ∃ e, pad draw bs scheme d = d ++ e := by
  cases scheme with
  | zeros =>
    obtain ⟨k, hk⟩ := exists_pad_zeros draw bs d
    exact ⟨_, hk⟩
  | pkcs7 => exact ⟨_, rfl⟩
  | ansiX923 => exact ⟨_, List.append_assoc _ _ _⟩
  | iso10126 => exact ⟨_, List.append_assoc _ _ _⟩

/-- The last byte of the three length-byte schemes is the number of bytes added (R223 to R225). -/
theorem exists_pad_lengthByte {scheme : Padding} (pos : 0 < bs) (hs : scheme ≠ .zeros) :
    ∃ e, pad draw bs scheme d = e ++ [BitVec.ofNat 8 (padLength bs d.length)] := by
  cases scheme with
  | zeros => exact absurd rfl hs
  | pkcs7 =>
    obtain ⟨k, hk⟩ := Nat.exists_eq_add_of_le' (padLength_pos bs d.length pos).1
    have last : rep (BitVec.ofNat 8 (k + 1)) (k + 1) = rep (BitVec.ofNat 8 (k + 1)) k ++ [BitVec.ofNat 8 (k + 1)] :=
      List.replicate_succ'
    refine ⟨d ++ rep (BitVec.ofNat 8 (k + 1)) k, ?_⟩
    rw [pad, hk, last, List.append_assoc]
  | ansiX923 => exact ⟨_, rfl⟩
  | iso10126 => exact ⟨_, rfl⟩

end

/-- A length-byte scheme takes off the bytes its last byte counts, which are those added (R226). -/
theorem unpad_pad_lengthByte (draw : Nat → Byte) {bs : Nat} {scheme : Padding} (d : Bytes) (pos : 0 < bs)
    (small : bs < 256) (hs : scheme ≠ .zeros) : unpad bs scheme (pad draw bs scheme d) = .ok d := by
  obtain ⟨low, high⟩ := padLength_pos bs d.length pos
  have count : (BitVec.ofNat 8 (padLength bs d.length)).toNat = padLength bs d.length := toNat_lengthByte (by omega)
  have length : (pad draw bs scheme d).length = d.length + padLength bs d.length := by
    rw [length_pad draw bs pos]
    cases scheme with
    | zeros => exact absurd rfl hs
    | _ => rfl
  obtain ⟨e, ends⟩ := exists_pad_lengthByte draw bs d pos hs
  obtain ⟨f, begins⟩ := exists_pad_append draw bs d scheme
  rw [unpad_eq_unpadLength hs, ends, unpadLength_ok (by omega) (by omega) (by rw [← ends]; omega), ← ends, count,
    length, Nat.add_sub_cancel, begins, List.take_left]

theorem unpadZeros_append_zeroBytes (d : Bytes) (k : Nat) : unpadZeros (d ++ zeroBytes k) = unpadZeros d := by
  induction k with
  | zero => rw [show zeroBytes 0 = [] from rfl, List.append_nil]
  | succ k ih =>
    rw [show zeroBytes (k + 1) = zeroBytes k ++ [0] from List.replicate_succ', ← List.append_assoc,
      unpadZeros_append_zero, ih]

/-- `ZEROS` takes nothing off exactly when there is no last byte that is 0 (R227). -/
theorem unpadZeros_eq_self_iff (d : Bytes) : unpadZeros d = d ↔ d = [] ∨ d.getD (d.length - 1) 0 ≠ 0 := by
  by_cases hd : d = []
  · exact iff_of_true (by rw [hd]; rfl) (.inl hd)
  · have last : d.getD (d.length - 1) 0 = d.getLast hd := by
      rw [List.getLast_eq_getElem, List.getD_eq_getElem]
    rw [last, show unpadZeros d = d.rdropWhile (· == 0) from rfl, List.rdropWhile_eq_self_iff]
    simp [hd]

/-- Settles O53: whole blocks that begin with the data, the length byte, and the zero bytes. -/
theorem unpadInvertsPad : Obligations.UnpadInvertsPad := by
  intro draw bs scheme d pos small
  obtain ⟨e, append⟩ := exists_pad_append draw bs d scheme
  obtain ⟨k, zeros⟩ := exists_pad_zeros draw bs d
  refine ⟨length_pad_mod draw bs pos scheme d, ?_, unpad_pad_lengthByte draw d pos small, ?_⟩
  · rw [append, List.take_left]
  · rw [unpad, Except.ok.injEq, zeros, unpadZeros_append_zeroBytes, unpadZeros_eq_self_iff]

end Sys2Proof.Machine
end

section
/-! The chunked commands (`46_chunked_and_parallel.md` R262 to R267) and the round trip of the buffer commands
(`45_mode_engine.md` R242). -/

namespace Sys2Proof.Machine

open Sys2Proof.Safety

/-! ### The default build -/

/-- Settles O29: the chunked commands are the buffer commands, whose ends O27 and O28 give. -/
theorem chunkedCommandsEqualBufferCommands : Obligations.ChunkedCommandsEqualBufferCommands := by
  intro s n
  have encrypts : exec (.encchk n) s = exec .encbuf s :=
    (exec_encrypting (.inr ⟨n, rfl⟩) s).trans (exec_encrypting (.inl rfl) s).symm
  have decrypts : exec (.decchk n) s = exec .decbuf s :=
    (exec_decrypting (.inr ⟨n, rfl⟩) s).trans (exec_decrypting (.inl rfl) s).symm
  refine ⟨encrypts, decrypts, fun v rks m pd h => ?_, fun v rks m pd z h hd hz => ?_⟩
  · obtain ⟨t, ht, well, output, -⟩ := encbufEncryptsThePaddedInput s v rks m pd h
    exact ⟨t, encrypts.trans ht, well, output⟩
  · obtain ⟨t, ht, well, output, -⟩ := decbufDecryptsAndUnpads s v rks m pd z h hd hz
    exact ⟨t, decrypts.trans ht, well, output⟩

/-! ### At most one chunk -/

/-- What `run` makes of each chunk as a buffer of its own (R266). -/
def chunkResults (T bs : Nat) (run : Bytes → Bytes) (x : Bytes) : List Bytes :=
  (chunks x.length T bs).map fun ab => run (slice x ab.1 ab.2)

theorem runChunked_restarts {legacy : Bool} {m : Mode} (h : ¬(legacy = false ∨ m = .ecb)) (T bs : Nat)
    (run : Bytes → Bytes) (x : Bytes) : runChunked legacy T bs m run x = (chunkResults T bs run x).flatten :=
  if_neg h

/-- The chunks of empty data and the one chunk that holds all of them leave nothing to restart. -/
theorem runChunked_of_one_chunk {legacy : Bool} {T bs : Nat} {m : Mode} {run : Bytes → Bytes} {x : Bytes} (pos : 0 < bs)
    (empty : run [] = []) (h : m = .ecb ∨ (chunks x.length T bs).length ≤ 1) :
    runChunked legacy T bs m run x = run x := by
  by_cases whole : legacy = false ∨ m = .ecb
  · exact if_pos whole
  rw [runChunked_restarts whole, chunkResults]
  have few := h.resolve_left fun he => whole (.inr he)
  have reach : x.length ≤ chunkSize x.length T bs := by
    have second := mt (lt_length_chunks (N := x.length) (T := T) pos 1).2 (Nat.not_lt.2 few)
    rwa [Nat.one_mul, Nat.not_lt] at second
  cases hc : chunks x.length T bs with
  | nil =>
    have first := mt (lt_length_chunks (N := x.length) (T := T) pos 0).2 (by rw [hc]; exact Nat.lt_irrefl 0)
    have hx : x = [] := List.eq_nil_of_length_eq_zero (by omega)
    rw [hx, empty]
    rfl
  | cons ab rest =>
    rw [hc] at few
    have hrest : rest = [] := List.eq_nil_of_length_eq_zero (by rw [List.length_cons] at few; omega)
    have hab : ab = (0, x.length) := by
      have first := getElem_chunks (N := x.length) (T := T) (bs := bs) (k := 0) (by rw [hc]; exact Nat.succ_pos _)
      simp only [hc, List.getElem_cons_zero, Nat.zero_mul, Nat.zero_add, Nat.one_mul, Nat.min_eq_right reach] at first
      exact first
    rw [hrest, hab]
    simp [slice]

theorem State.modeEnc_nil (s : State) (c : ModeSetup) : s.modeEnc c [] = [] :=
  List.eq_nil_of_length_eq_zero (s.length_modeEnc c [] (Nat.zero_mod _))

theorem State.modeDec_nil (s : State) (c : ModeSetup) : s.modeDec c [] = [] :=
  List.eq_nil_of_length_eq_zero (s.length_modeDec c [] (Nat.zero_mod _))

theorem encryptCommand_congr {p : Params} {run run' : ModeSetup → Bytes → Bytes} {s : State}
    (h : ∀ c, modeChecks p s = .ok c → run c (s.paddedInput c) = run' c (s.paddedInput c)) :
    encryptCommand p run s = encryptCommand p run' s := by
  rw [encryptCommand, encryptCommand]
  cases hc : modeChecks p s with
  | error e => rfl
  | ok c => simp only [h c hc]

theorem decryptCommand_congr {p : Params} {run run' : ModeSetup → Bytes → Bytes} {s : State}
    (h : ∀ c, modeChecks p s = .ok c → run c (s.din s.dlen.toNat) = run' c (s.din s.dlen.toNat)) :
    decryptCommand p run s = decryptCommand p run' s := by
  rw [decryptCommand, decryptCommand]
  cases hc : modeChecks p s with
  | error e => rfl
  | ok c => simp only [h c hc]

/-- Settles O55: the one run that a command makes is over at most one chunk. -/
theorem legacyChunkingAgreesOnOneChunk : Obligations.LegacyChunkingAgreesOnOneChunk := by
  intro p n s c hc
  obtain ⟨-, mode, -⟩ := modeChecks_ok.1 hc
  have ecb (h : modeField s = modeCode .ecb) : c.mode = .ecb :=
    Option.some.inj (mode.symm.trans ((ctrlMode_iff s .ecb).2 h))
  have pos : 0 < c.bs := blockSize_pos c.variant
  refine ⟨fun h => encryptCommand_congr fun c' hc' => ?_, fun h => decryptCommand_congr fun c' hc' => ?_⟩
  · cases hc.symm.trans hc'
    exact runChunked_of_one_chunk pos (s.modeEnc_nil c) (h.imp_left ecb)
  · cases hc.symm.trans hc'
    refine runChunked_of_one_chunk pos (s.modeDec_nil c) (h.imp ecb fun few => ?_)
    rwa [State.length_din]

/-! ### The round trip chunk by chunk -/

/-- The first `n` slices of `c` bytes, cut off at the end of `x`, are the beginning of `x`. -/
theorem flatten_slices (x : Bytes) (c n : Nat) :
    ((List.range n).map fun k => slice x (k * c) (min ((k + 1) * c) x.length)).flatten
      = slice x 0 (min (n * c) x.length) := by
  induction n with
  | zero => simp [slice]
  | succ n ih =>
    have step : n * c ≤ (n + 1) * c := Nat.mul_le_mul_right c n.le_succ
    rw [List.range_succ, List.map_append, List.flatten_append, ih, List.map_singleton, List.flatten_singleton]
    by_cases h : n * c ≤ x.length
    · rw [Nat.min_eq_left h, slice_append_slice _ _ _ _ (Nat.zero_le _) (by omega)]
    · have past : slice x (n * c) (min ((n + 1) * c) x.length) = [] :=
        List.eq_nil_of_length_eq_zero (by rw [length_slice]; omega)
      rw [past, List.append_nil, Nat.min_eq_right (by omega), Nat.min_eq_right (by omega)]

/-- The chunks of the data, one after the other, are the data. -/
theorem flatten_chunkResults_id {T bs : Nat} (pos : 0 < bs) (x : Bytes) : (chunkResults T bs id x).flatten = x := by
  have reach : x.length ≤ (chunks x.length T bs).length * chunkSize x.length T bs :=
    not_lt.1 fun h => lt_irrefl _ ((lt_length_chunks pos _).2 h)
  rw [chunks, List.length_map, List.length_range] at reach
  rw [chunkResults, chunks, List.map_map]
  refine (flatten_slices x _ _).trans ?_
  rw [Nat.min_eq_right reach, slice_zero_length x _ (Nat.le_refl _)]

/-- A chunk lies inside the data and is a whole number of blocks. -/
theorem chunk_blocks {N T bs : Nat} (hN : N % bs = 0) {ab : Nat × Nat} (h : ab ∈ chunks N T bs) :
    ab.2 ≤ N ∧ (ab.2 - ab.1) % bs = 0 := by
  obtain ⟨k, -, rfl⟩ := List.mem_map.1 h
  have size : bs ∣ chunkSize N T bs := Nat.dvd_of_mod_eq_zero (chunkSize_mod N T bs)
  have last : bs ∣ min ((k + 1) * chunkSize N T bs) N := by
    rcases Nat.le_total ((k + 1) * chunkSize N T bs) N with hle | hle
    · rw [Nat.min_eq_left hle]
      exact size.mul_left _
    · rw [Nat.min_eq_right hle]
      exact Nat.dvd_of_mod_eq_zero hN
  exact ⟨Nat.min_le_right _ _, Nat.mod_eq_zero_of_dvd (Nat.dvd_sub last (size.mul_left k))⟩

/-- The first `k` chunks end where chunk `k` begins. -/
theorem sum_take_chunkLengths {N T bs k : Nat} (hk : k ≤ (chunks N T bs).length) :
    (((chunks N T bs).map fun ab => ab.2 - ab.1).take k).sum = min (k * chunkSize N T bs) N := by
  rw [chunks, List.length_map, List.length_range] at hk
  rw [chunks, List.map_map, ← List.map_take, List.take_range, Nat.min_eq_left hk]
  exact sum_sliceLengths N _ k

/-- A piece of a concatenation, by the lengths of the pieces before it. -/
theorem slice_flatten (ps : List Bytes) {k : Nat} (hk : k < ps.length) :
    slice ps.flatten ((ps.map List.length).take k).sum ((ps.map List.length).take (k + 1)).sum = ps[k] := by
  rw [slice, ← List.drop_take]
  exact List.drop_take_succ_flatten_eq_getElem ps k hk

section
variable {T bs : Nat} {enc : Bytes → Bytes} (keeps : ∀ z, z.length % bs = 0 → (enc z).length = z.length) {x : Bytes}
  (hx : x.length % bs = 0)
include keeps hx

theorem lengths_chunkResults :
    (chunkResults T bs enc x).map List.length = (chunks x.length T bs).map fun ab => ab.2 - ab.1 := by
  rw [chunkResults, List.map_map]
  refine List.map_congr_left fun ab hab => ?_
  obtain ⟨inside, blocks⟩ := chunk_blocks hx hab
  have hl : (slice x ab.1 ab.2).length = ab.2 - ab.1 := by
    rw [length_slice]
    omega
  exact (keeps _ (hl ▸ blocks)).trans hl

/-- Each chunk of the results put together is the result of the chunk. -/
theorem slice_chunkResults (pos : 0 < bs) {ab : Nat × Nat} (hab : ab ∈ chunks x.length T bs) :
    slice (chunkResults T bs enc x).flatten ab.1 ab.2 = enc (slice x ab.1 ab.2) := by
  obtain ⟨k, hk, rfl⟩ := List.mem_iff_getElem.1 hab
  have starts := (lt_length_chunks pos k).1 hk
  have piece := slice_flatten (chunkResults T bs enc x) (k := k) (by rwa [chunkResults, List.length_map])
  rw [lengths_chunkResults keeps hx, sum_take_chunkLengths hk.le, sum_take_chunkLengths hk,
    Nat.min_eq_left starts.le] at piece
  simp only [chunkResults, List.getElem_map, getElem_chunks hk] at piece ⊢
  exact piece

/-- Undoing chunk by chunk with the same thread count undoes the whole (R266). -/
theorem runChunked_undoes {legacy : Bool} {m : Mode} {dec : Bytes → Bytes} (pos : 0 < bs)
    (undoes : ∀ z, z.length % bs = 0 → dec (enc z) = z) :
    runChunked legacy T bs m dec (runChunked legacy T bs m enc x) = x := by
  by_cases whole : legacy = false ∨ m = .ecb
  · rw [runChunked, if_pos whole, runChunked, if_pos whole, undoes x hx]
  have length : (chunkResults T bs enc x).flatten.length = x.length := by
    rw [List.length_flatten, lengths_chunkResults keeps hx, sum_chunkLengths pos]
  rw [runChunked_restarts whole, runChunked_restarts whole, chunkResults, length]
  refine (congrArg List.flatten (List.map_congr_left fun ab hab => ?_)).trans (flatten_chunkResults_id pos x)
  obtain ⟨inside, blocks⟩ := chunk_blocks hx hab
  rw [slice_chunkResults keeps hx pos hab, undoes, id]
  rw [length_slice, Nat.min_eq_left (by omega), blocks]

end

/-- Settles O56: the mode's round trip, over the whole data or chunk by chunk. -/
theorem legacyChunkedRoundTrip : Obligations.LegacyChunkedRoundTrip := by
  intro legacy T v rks m iv del x hN hiv hdel hx
  exact runChunked_undoes (fun z hz => length_modeEnc (length_encBlock v rks) m hiv hdel z hz) hx (blockSize_pos v)
    fun z hz => modeDec_modeEnc_of_cipher hN hiv hdel hz

/-! ### `DECBUF` after `ENCBUF` -/

theorem keyInstalled_of_keeps {s u : State} {v : Variant} {rks : List Bytes} (h : KeyInstalled s v rks)
    (store : KeepsKeyStore s u) : KeyInstalled u v rks :=
  ⟨store.keySet.trans h.keySet, store.kcipher.trans h.kcipher, store.rkEnc.trans h.rkEnc, h.enough⟩

/-- The checks pass again under the same settings on an input that fits. -/
theorem modeReady_of_settings {s u : State} {v : Variant} {rks : List Bytes} {m : Mode} {pd : Padding}
    (h : ModeReady s v rks m pd) (store : KeepsKeyStore s u) (ctrl : u.ctrl = s.ctrl) (ivlen : u.ivlen = s.ivlen)
    (deltalen : u.deltalen = s.deltalen) (capacity : u.dlen.toNat ≤ 4096) : ModeReady u v rks m pd := by
  have mode : modeField u = modeField s := by rw [modeField, ctrl, modeField]
  have pad : padField u = padField s := by rw [padField, ctrl, padField]
  exact ⟨keyInstalled_of_keeps h.key store, mode.trans h.mode, pad.trans h.pad, capacity, ivlen ▸ h.iv,
    deltalen ▸ h.delta⟩

/-- Removing padding gives back data that the scheme can tell from its padding (R228). -/
theorem unpad_pad (draw : Nat → Byte) {bs : Nat} {pd : Padding} {d : Bytes} (pos : 0 < bs) (small : bs < 256)
    (h : pd ≠ .zeros ∨ d.length = 0 ∨ d.getD (d.length - 1) 0 ≠ 0) : unpad bs pd (pad draw bs pd d) = .ok d := by
  obtain ⟨-, -, lengthByte, zeros⟩ := unpadInvertsPad draw bs pd d pos small
  by_cases hz : pd = .zeros
  · subst hz
    exact zeros.2 ((h.resolve_left (not_not.2 rfl)).imp_left List.eq_nil_of_length_eq_zero)
  · exact lengthByte hz

/-- Settles O57: the output is whole blocks that fit `DIN`, the mode's decryption gives back the padded input, and
removing the padding the data. -/
theorem decbufReturnsWhatEncbufTook : Obligations.DecbufReturnsWhatEncbufTook := by
  intro s t u v rks m pd h hN hfit hpad ht hctrl hiv hivlen hdelta hdeltalen store hdlen hdin
  obtain ⟨t', ht', -, output, -⟩ := encbufEncryptsThePaddedInput s v rks m pd h
  cases ht.symm.trans ht'
  have pos := blockSize_pos v
  have small := blockSize_le v
  have blocks := length_pad_mod s.draw (blockSize v) pos pd (s.din s.dlen.toNat)
  have atMost := length_pad_le s.draw (blockSize v) pos pd (s.din s.dlen.toNat)
  have olen := length_modeEnc (length_encBlock v rks) m (length_ivBlock s v) (length_deltaBlock s v) _ blocks
  rw [← output, State.output, State.length_bytesAt, ← hdlen] at olen
  rw [← olen, State.length_din] at atMost
  have iv : u.ivBlock (blockSize v) = s.ivBlock (blockSize v) := by rw [State.ivBlock, hiv, State.ivBlock]
  have delta : u.deltaBlock (blockSize v) = s.deltaBlock (blockSize v) := by
    rw [State.deltaBlock, hdelta, State.deltaBlock]
  have unpads : unpad (blockSize v) pd (modeDec (encBlock v rks) (decBlock v rks) (blockSize v) m
      (u.ivBlock (blockSize v)) (u.deltaBlock (blockSize v)) (u.din u.dlen.toNat)) = .ok (s.din s.dlen.toNat) := by
    rw [hdlen, hdin, output, iv, delta,
      modeDec_modeEnc_of_cipher hN (length_ivBlock s v) (length_deltaBlock s v) blocks]
    exact unpad_pad s.draw pos (by omega) (by rwa [State.length_din])
  have ready : ModeReady u v rks m pd := modeReady_of_settings h store hctrl hivlen hdeltalen (by omega)
  obtain ⟨w, hw, well, returned, -⟩ :=
    decbufDecryptsAndUnpads u v rks m pd (s.din s.dlen.toNat) ready (olen ▸ blocks) unpads
  exact ⟨w, hw, well, returned⟩

end Sys2Proof.Machine
end

section
/-! The block commands (`44_block_ciphers.md` R205, R206): their answer with a key, and without. -/

namespace Sys2Proof.Machine

open Sys2Proof.Safety

theorem blockAnswer_nokey {s : State} (op : Variant → List Bytes → Bytes → Bytes) (h : s.keySet = false) :
    blockAnswer op s = .error .stateNokey := by
  rw [blockAnswer, State.installed_nokey h]
  rfl

section
variable {s : State} {v : Variant} {rks : List Bytes} (op : Variant → List Bytes → Bytes → Bytes)
  (key : KeyInstalled s v rks)
include key

theorem blockAnswer_wrongSize (hd : s.dlen.toNat ≠ blockSize v) : blockAnswer op s = .error (.sizeBlock s.dlen) := by
  rw [blockAnswer, installed_of_keyInstalled key]
  exact if_pos hd

theorem blockAnswer_block (hd : s.dlen.toNat = blockSize v) :
    blockAnswer op s = .ok (op v rks (s.din (blockSize v))) := by
  rw [blockAnswer, installed_of_keyInstalled key]
  exact if_neg (not_not.2 hd)

end

theorem dataCommand_fails_of_answer {i : Instr} {s : State} {r : Except CoreError Bytes} {e : CoreError}
    (h : EndsWithAnswer i s r) (hr : r = .error e) :
    ∃ t, exec i s = .next t ∧ EndedWith t e.code e.info ∧ t.olen = 0 := by
  subst hr
  obtain ⟨u, hu⟩ := h
  exact dataCommand_fails hu

/-- A block command that answers with one block. -/
theorem blockCommand_ends_of_answer {i : Instr} {s : State} {v : Variant} {r : Except CoreError Bytes} {out : Bytes}
    (h : EndsWithAnswer i s r) (hr : r = .ok out) (hl : out.length = blockSize v) :
    ∃ t, exec i s = .next t ∧ EndedWell t ∧ t.olen.toNat = blockSize v ∧ t.output = out := by
  subst hr
  obtain ⟨u, hu⟩ := h
  have small := blockSize_le v
  obtain ⟨t, ht, well, output, olen⟩ := dataCommand_ends hu (by omega)
  exact ⟨t, ht, well, olen.trans hl, output⟩

/-- Settles O25: the answers of the two commands are `E` and `D` of the block, which keep its size. -/
theorem blockCommandsGiveEAndD : Obligations.BlockCommandsGiveEAndD := by
  intro s v rks key hd
  have hin := State.length_din s (blockSize v)
  exact ⟨blockCommand_ends_of_answer (endsWith_blockAnswer (exec_encblk s)) (blockAnswer_block encBlock key hd)
      (length_encBlock v rks _ hin),
    blockCommand_ends_of_answer (endsWith_blockAnswer (exec_decblk s)) (blockAnswer_block decBlock key hd)
      (length_decBlock v rks _ hin)⟩

/-- Settles O26: the key is looked for before the size is checked. -/
theorem blockCommandErrorsInOrder : Obligations.BlockCommandErrorsInOrder := by
  intro s i hi
  obtain ⟨op, answer⟩ : ∃ op, EndsWithAnswer i s (blockAnswer op s) := by
    rcases hi with rfl | rfl
    · exact ⟨encBlock, endsWith_blockAnswer (exec_encblk s)⟩
    · exact ⟨decBlock, endsWith_blockAnswer (exec_decblk s)⟩
  exact ⟨fun h => dataCommand_fails_of_answer answer (blockAnswer_nokey op h),
    fun v rks key hd => dataCommand_fails_of_answer answer (blockAnswer_wrongSize op key hd)⟩

end Sys2Proof.Machine
end

section
/-! Nothing but the cache depends on the cache (`42_composite_schedule_and_adapter.md` R179): a command on a state with
another cache takes the same branches. -/

namespace Sys2Proof.Machine

/-- The second state is the first but for the cache. -/
def SameButCache (t t' : State) : Prop := ∃ c, t' = { t with cache := c }

/-- Two outcomes with next states that are the same but for the cache. -/
def SameOutcomeButCache (o o' : Host.Outcome State Fault Refusal) : Prop :=
  ∃ t t', o = .next t ∧ o' = .next t' ∧ SameButCache t t'

theorem SameButCache.next {t t' : State} (h : SameButCache t t') : SameOutcomeButCache (.next t) (.next t') :=
  ⟨t, t', rfl, rfl, h⟩

section
variable (p : Params) (s : State) (c : List CacheEntry)

theorem setKey_sameButCache (n : BitVec 16) : SameButCache (setKey p n s) (setKey p n { s with cache := c }) := by
  have cipher : State.ctrlCipher { s with cache := c } = s.ctrlCipher := rfl
  have adj : State.ctrlKeyadj { s with cache := c } = s.ctrlKeyadj := rfl
  have key : State.keyBytes { s with cache := c } n.toNat = s.keyBytes n.toNat := rfl
  simp only [setKey, cipher, adj, key]
  by_cases hn : n.toNat = keyLength s.ctrlCipher
  · rw [if_neg (not_not.2 hn), if_neg (not_not.2 hn)]
    cases expandKey p.compKsConstByte s.ctrlCipher s.ctrlKeyadj (s.keyBytes n.toNat) with
    | error e => exact ⟨c, rfl⟩
    | ok rk => exact ⟨c, rfl⟩
  · rw [if_pos hn, if_pos hn]
    exact ⟨c, rfl⟩

theorem blockCommand_sameButCache (op : Variant → List Bytes → Bytes → Bytes) (order : List Bytes → List Bytes) :
    SameButCache (blockCommand p op order s) (blockCommand p op order { s with cache := c }) := by
  have installed : State.installed { s with cache := c } = s.installed := rfl
  rw [blockCommand, blockCommand, installed]
  cases s.installed with
  | error e => exact ⟨c, rfl⟩
  | ok key =>
    by_cases hd : s.dlen.toNat = blockSize key.1
    · simp only [hd, ne_eq, not_true, if_false]
      exact ⟨_, rfl⟩
    · simp only [hd, ne_eq, not_false_eq_true, if_true]
      exact ⟨c, rfl⟩

theorem encryptCommand_sameButCache (run : ModeSetup → Bytes → Bytes) :
    SameButCache (encryptCommand p run s) (encryptCommand p run { s with cache := c }) := by
  have checks : modeChecks p { s with cache := c } = modeChecks p s := rfl
  rw [encryptCommand, encryptCommand, checks]
  cases modeChecks p s with
  | error e => exact ⟨c, rfl⟩
  | ok k => exact ⟨_, rfl⟩

theorem decryptCommand_sameButCache (run : ModeSetup → Bytes → Bytes) :
    SameButCache (decryptCommand p run s) (decryptCommand p run { s with cache := c }) := by
  have checks : modeChecks p { s with cache := c } = modeChecks p s := rfl
  have din : State.din { s with cache := c } s.dlen.toNat = s.din s.dlen.toNat := rfl
  simp only [decryptCommand, checks, din]
  cases modeChecks p s with
  | error e => exact ⟨c, rfl⟩
  | ok k =>
    by_cases hd : s.dlen.toNat % k.bs = 0
    · simp only [hd, ne_eq, not_true, if_false]
      cases unpad k.bs k.padding (run k (s.din s.dlen.toNat)) with
      | error e => exact ⟨_, rfl⟩
      | ok z => exact ⟨_, rfl⟩
    · simp only [hd, ne_eq, not_false_eq_true, if_true]
      exact ⟨c, rfl⟩

theorem permuteCommand_sameButCache (m : BitVec 16) :
    SameButCache (permuteCommand p m s) (permuteCommand p m { s with cache := c }) := by
  have checks : permuteChecks p m.toNat { s with cache := c } = permuteChecks p m.toNat s := rfl
  rw [permuteCommand, permuteCommand, checks]
  cases permuteChecks p m.toNat s with
  | some e => exact ⟨c, rfl⟩
  | none => exact ⟨c, rfl⟩

theorem exec_sameButCache (i : Instr) : SameOutcomeButCache (exec i s) (exec i { s with cache := c }) := by
  cases i with
  | nop => exact SameButCache.next ⟨c, rfl⟩
  | clr => exact SameButCache.next ⟨[], rfl⟩
  | setkey n => exact (setKey_sameButCache _ s c n).next
  | encblk => exact (blockCommand_sameButCache _ s c _ _).next
  | decblk => exact (blockCommand_sameButCache _ s c _ _).next
  | encbuf => exact (encryptCommand_sameButCache _ s c _).next
  | decbuf => exact (decryptCommand_sameButCache _ s c _).next
  | encchk n => exact (encryptCommand_sameButCache _ s c _).next
  | decchk n => exact (decryptCommand_sameButCache _ s c _).next
  | permute m => exact (permuteCommand_sameButCache _ s c m).next

theorem runCommand_sameButCache (w : Word) :
    SameOutcomeButCache (runCommand w s) (runCommand w { s with cache := c }) := by
  rw [runCommand, runCommand]
  cases decode w with
  | ok i => exact exec_sameButCache s c i
  | error r => exact SameButCache.next ⟨c, rfl⟩

theorem writeLocation_sameButCache (l : Location) (w : Word) :
    SameButCache (writeLocation s l w) (writeLocation { s with cache := c } l w) := by
  cases l <;> exact ⟨c, rfl⟩

theorem performEvent_sameButCache (ev : HostEvent) (rest : List HostEvent) :
    SameOutcomeButCache (performEvent ev rest s) (performEvent ev rest { s with cache := c }) := by
  cases ev with
  | reset => exact SameButCache.next ⟨[], rfl⟩
  | read bits a =>
    refine SameButCache.next ?_
    rw [hostRead, hostRead]
    cases accessTarget Config.params bits a with
    | none => exact ⟨c, rfl⟩
    | some l => exact ⟨c, rfl⟩
  | write bits a w =>
    rw [performEvent, performEvent]
    cases commandOf Config.params bits a w with
    | some word => exact runCommand_sameButCache (s.answered rest .ack) c word
    | none =>
      refine SameButCache.next ?_
      rw [hostWrite, hostWrite]
      cases accessTarget Config.params bits a with
      | none => exact ⟨c, rfl⟩
      | some l => exact writeLocation_sameButCache (s.answered rest .ack) c l w

end

/-- Settles O43: the event a step performs does not depend on the cache. -/
theorem cacheIsNotObservable : Obligations.CacheIsNotObservable := by
  intro s t c h
  rcases hp : s.port.pending with _ | ⟨ev, rest⟩
  · cases (step_idle hp).symm.trans h
    exact ⟨c, step_idle (s := { s with cache := c }) hp⟩
  · obtain ⟨u, u', hu, hu', c', rfl⟩ := performEvent_sameButCache s c ev rest
    cases ((step_event hp).trans hu).symm.trans h
    exact ⟨c', (step_event (s := { s with cache := c }) hp).trans hu'⟩

end Sys2Proof.Machine
end
